-- ==== Sys2Proof/Word.lean ====
section
/-! DEFINITION. The word types of the block: what the spec treats as bits (00_scope.md section 7). -/

namespace Sys2Proof

/-- `u8`, one byte of `MEM` or of a packet (00_scope.md section 7, R17). -/
abbrev Byte := BitVec 8

/-- `u16`: a checksum, a port-level length field, an identifier (00_scope.md section 7). -/
abbrev Half := BitVec 16

/-- `u32`: a descriptor or response word, an address in `MEM`, an IPv4 address (R30, R50, R60). -/
abbrev Word := BitVec 32

/-- `u128`: an IPv6 address (R60). -/
abbrev Ip6 := BitVec 128

/-- `u48`: a link-layer address (R60). -/
abbrev Mac := BitVec 48

end Sys2Proof
end

