-- ==== Sys2Proof/Syntax.lean ====
section
/-! DEFINITION. The seven operations with all of their operands: one constructor per row of spec/opcode_table.json, one
operand record per descriptor format (R53 to R59). Every field has exactly the width the format gives it. -/

namespace Sys2Proof

/-- Operands of format C, `CSUM` (R53). -/
structure CsumOp where
  ptr : Word
  length : Word
  deriving DecidableEq, Repr

/-- Operands of format P, `PCSUM6` (R54). -/
structure Pcsum6Op where
  src : Ip6
  dst : Ip6
  upperLen : Word
  nextHeader : Byte
  payloadPtr : Word
  payloadLen : Word
  deriving DecidableEq, Repr

/-- Operands of format N, `NEEDFRAG` (R55). -/
structure NeedfragOp where
  mtu : Half
  origPtr : Word
  origLen : Half
  deriving DecidableEq, Repr

/-- Operands of format B4, `BUILD4` (R56). -/
structure Build4Op where
  badsum : Bool
  df : Bool
  src : Word
  dst : Word
  ttl : Byte
  tos : Byte
  ipId : Half
  id : Half
  seq : Half
  icmpType : Byte
  icmpCode : Byte
  optPtr : Word
  optLen : Half
  dataPtr : Word
  dataLen : Half
  deriving DecidableEq, Repr

/-- Operands of format S4, `SEND4` (R57): no `ip_id`, no `tos`, no `id`. -/
structure Send4Op where
  badsum : Bool
  df : Bool
  src : Word
  dst : Word
  ttl : Byte
  seq : Half
  icmpType : Byte
  icmpCode : Byte
  optPtr : Word
  optLen : Half
  dataPtr : Word
  dataLen : Half
  mtu : Word
  link : Word
  fd : Word
  deriving DecidableEq, Repr

/-- The operands formats B6E and B6N share, words W0 to W10 (R58, R59). -/
structure Build6Head where
  badsum : Bool
  src : Ip6
  dst : Ip6
  trafficClass : Byte
  flowLabel : BitVec 20
  hopLimit : Byte
  icmpType : Byte
  icmpCode : Byte
  deriving DecidableEq, Repr

/-- Operands of format B6E, `BUILD6.ECHO` (R58). -/
structure Build6EchoOp where
  head : Build6Head
  id : Half
  seq : Half
  dataPtr : Word
  dataLen : Half
  deriving DecidableEq, Repr

/-- Operands of format B6N, `BUILD6.ND` (R59). -/
structure Build6NdOp where
  head : Build6Head
  flags : Word
  target : Ip6
  optType : Byte
  optLen : Byte
  lladdr : Mac
  deriving DecidableEq, Repr

/-- The operations of the opcode table (R52). -/
inductive Instr where
  | csum (d : CsumOp)
  | pcsum6 (d : Pcsum6Op)
  | needfrag (d : NeedfragOp)
  | build4 (d : Build4Op)
  | send4 (d : Send4Op)
  | build6Echo (d : Build6EchoOp)
  | build6Nd (d : Build6NdOp)
  deriving DecidableEq, Repr

end Sys2Proof
end

