-- ==== Sys2Proof/WellFormed.lean ====
section
/-! DEFINITION. Well-formed descriptors, R62: the block's only validation, read off the tables of R51 to R59 as a word count and a
mask of must-be-zero bits per word. Operand records (Syntax.lean) cannot be ill-formed: every field has its exact width. -/

namespace Sys2Proof

/-- Why a descriptor is not well-formed (R62). All four are answered with `ST_ILLEGAL` (R164). -/
inductive Illegal where
  /-- No word at all. -/
  | noWords
  /-- `OP` is not in the table of R52 (R63). -/
  | reservedOpcode
  /-- The number of words is not the format's (R61). -/
  | wrongWordCount
  /-- A must-be-zero bit is set (R51, R53 to R59). -/
  | reservedBits
  deriving DecidableEq, Repr

/-- The seven formats (R50). -/
inductive Format where
  | c | p | n | b4 | s4 | b6e | b6n
  deriving DecidableEq, Repr

/-- The format `W0` selects: by `OP`, and for `OP` = 0x30 also by `KIND` (R52, R61). -/
def Format.ofW0 (w0 : Word) : Option Format :=
  let op := w0.extractLsb' 0 8
  if op = 0x01#8 then some .c
  else if op = 0x02#8 then some .p
  else if op = 0x10#8 then some .n
  else if op = 0x20#8 then some .b4
  else if op = 0x21#8 then some .s4
  else if op = 0x30#8 then (if w0.getLsbD 10 then some .b6n else some .b6e)
  else none

/-- The must-be-zero bits of each word of a format, `W0` first (R51, R53 to R59). The list's length is the format's
word count (R50). -/
def Format.reserved : Format → List Word
  | .c => [0xFFFFFF00, 0, 0]
  | .p => [0xFFFFFF00, 0, 0, 0, 0, 0, 0, 0, 0, 0, 0xFFFFFF00, 0, 0]
  | .n => [0xFFFFFF00, 0xFFFF0000, 0, 0xFFFF0000]
  | .b4 => [0xFFFFFC00, 0, 0, 0, 0, 0xFFFF0000, 0, 0xFFFF0000, 0, 0xFFFF0000]
  | .s4 => [0xFFFFFC00, 0, 0, 0x00FFFFFF, 0xFFFF0000, 0xFFFF0000, 0, 0xFFFF0000, 0, 0xFFFF0000, 0, 0, 0]
  | .b6e => [0xFFFFFA00, 0, 0, 0, 0, 0, 0, 0, 0, 0xF0000000, 0x00FF0000, 0, 0, 0xFFFF0000]
  | .b6n => [0xFFFFFA00, 0, 0, 0, 0, 0, 0, 0, 0, 0xF0000000, 0x00FF0000, 0xFFFFFFFF, 0xFFFFFFFF, 0xFFFFFFFF,
      0, 0, 0, 0, 0, 0, 0]

/-- The four clauses of R62 for one descriptor. -/
def wellFormed (ws : List Word) : Bool :=
  match ws with
  | [] => false
  | w0 :: _ =>
    match Format.ofW0 w0 with
    | none => false
    | some f =>
      ws.length == f.reserved.length && (List.zipWith (fun w m => w &&& m) ws f.reserved).all (· == 0#32)

end Sys2Proof
end

