-- ==== Sys2Proof/Decode.lean ====
section
/-! DEFINITION. The decoder: a descriptor's words to an operation, or the reason it is illegal (R50 to R63); the encoder
beside it, from the same tables; and the layout of a table row's bits as a descriptor. -/

namespace Sys2Proof

/-- Bits `hi` to `lo` of `w` are all zero: a must-be-zero range (R62). -/
def zeroBits (w : Word) (hi lo : Nat) : Bool := (w >>> lo).extractLsb' 0 (hi - lo + 1) == 0#(hi - lo + 1)

/-- The format `W0` selects: by `OP`, and for `OP` = 0x30 also by `KIND`, bit 10 (R52, R61); every other `OP` is reserved (R63). -/
def formatOf (w0 : Word) : Option Format :=
  match w0.toNat % 256 with
  | 0x01 => some .c
  | 0x02 => some .p
  | 0x10 => some .n
  | 0x20 => some .b4
  | 0x21 => some .s4
  | 0x30 => some (if w0.getLsbD 10 then .b6n else .b6e)
  | _ => none

/-- A 128-bit field held in four consecutive words, most significant first (R60). -/
def join128 (a b c d : Word) : Ip6 := a ++ b ++ c ++ d

/-- The words of a 128-bit field, most significant first (R60). -/
def split128 (x : Ip6) : List Word :=
  [x.extractLsb' 96 32, x.extractLsb' 64 32, x.extractLsb' 32 32, x.extractLsb' 0 32]

/-- Accept the operation when the must-be-zero checks passed (R62). -/
def ifClear (clear : Bool) (i : Instr) : Except Illegal Instr :=
  if clear then .ok i else .error .reservedBits

/-- Format C (R53). -/
def decodeC (w0 : Word) : List Word → Except Illegal Instr
  | [w1, w2] => ifClear (zeroBits w0 31 8) (.csum { ptr := w1, length := w2 })
  | _ => .error .wrongWordCount

/-- Format P (R54). -/
def decodeP (w0 : Word) : List Word → Except Illegal Instr
  | [w1, w2, w3, w4, w5, w6, w7, w8, w9, w10, w11, w12] =>
    ifClear (zeroBits w0 31 8 && zeroBits w10 31 8)
      (.pcsum6 { src := join128 w1 w2 w3 w4, dst := join128 w5 w6 w7 w8, upperLen := w9,
                 nextHeader := w10.extractLsb' 0 8, payloadPtr := w11, payloadLen := w12 })
  | _ => .error .wrongWordCount

/-- Format N (R55). -/
def decodeN (w0 : Word) : List Word → Except Illegal Instr
  | [w1, w2, w3] =>
    ifClear (zeroBits w0 31 8 && zeroBits w1 31 16 && zeroBits w3 31 16)
      (.needfrag { mtu := w1.extractLsb' 0 16, origPtr := w2, origLen := w3.extractLsb' 0 16 })
  | _ => .error .wrongWordCount

/-- Format B4 (R56). -/
def decodeB4 (w0 : Word) : List Word → Except Illegal Instr
  | [w1, w2, w3, w4, w5, w6, w7, w8, w9] =>
    ifClear (zeroBits w0 31 10 && zeroBits w5 31 16 && zeroBits w7 31 16 && zeroBits w9 31 16)
      (.build4 { badsum := w0.getLsbD 8, df := w0.getLsbD 9, src := w1, dst := w2,
                 ttl := w3.extractLsb' 24 8, tos := w3.extractLsb' 16 8, ipId := w3.extractLsb' 0 16,
                 id := w4.extractLsb' 16 16, seq := w4.extractLsb' 0 16,
                 icmpType := w5.extractLsb' 8 8, icmpCode := w5.extractLsb' 0 8,
                 optPtr := w6, optLen := w7.extractLsb' 0 16, dataPtr := w8, dataLen := w9.extractLsb' 0 16 })
  | _ => .error .wrongWordCount

/-- Format S4 (R57). -/
def decodeS4 (w0 : Word) : List Word → Except Illegal Instr
  | [w1, w2, w3, w4, w5, w6, w7, w8, w9, w10, w11, w12] =>
    ifClear (zeroBits w0 31 10 && zeroBits w3 23 0 && zeroBits w4 31 16 && zeroBits w5 31 16 && zeroBits w7 31 16
        && zeroBits w9 31 16)
      (.send4 { badsum := w0.getLsbD 8, df := w0.getLsbD 9, src := w1, dst := w2,
                ttl := w3.extractLsb' 24 8, seq := w4.extractLsb' 0 16,
                icmpType := w5.extractLsb' 8 8, icmpCode := w5.extractLsb' 0 8,
                optPtr := w6, optLen := w7.extractLsb' 0 16, dataPtr := w8, dataLen := w9.extractLsb' 0 16,
                mtu := w10, link := w11, fd := w12 })
  | _ => .error .wrongWordCount

/-- The operands of words W0 to W10 that formats B6E and B6N share (R58, R59). -/
def head6 (w0 w1 w2 w3 w4 w5 w6 w7 w8 w9 w10 : Word) : Build6Head :=
  { badsum := w0.getLsbD 8, src := join128 w1 w2 w3 w4, dst := join128 w5 w6 w7 w8,
    trafficClass := w9.extractLsb' 20 8, flowLabel := w9.extractLsb' 0 20, hopLimit := w10.extractLsb' 24 8,
    icmpType := w10.extractLsb' 8 8, icmpCode := w10.extractLsb' 0 8 }

/-- The must-be-zero ranges of W0, W9 and W10 in formats B6E and B6N (R58, R59). -/
def head6Clear (w0 w9 w10 : Word) : Bool :=
  zeroBits w0 9 9 && zeroBits w0 31 11 && zeroBits w9 31 28 && zeroBits w10 23 16

/-- Format B6E (R58). -/
def decodeB6e (w0 : Word) : List Word → Except Illegal Instr
  | [w1, w2, w3, w4, w5, w6, w7, w8, w9, w10, w11, w12, w13] =>
    ifClear (head6Clear w0 w9 w10 && zeroBits w13 31 16)
      (.build6Echo { head := head6 w0 w1 w2 w3 w4 w5 w6 w7 w8 w9 w10,
                     id := w11.extractLsb' 16 16, seq := w11.extractLsb' 0 16,
                     dataPtr := w12, dataLen := w13.extractLsb' 0 16 })
  | _ => .error .wrongWordCount

/-- Format B6N (R59). -/
def decodeB6n (w0 : Word) : List Word → Except Illegal Instr
  | [w1, w2, w3, w4, w5, w6, w7, w8, w9, w10, w11, w12, w13, w14, w15, w16, w17, w18, w19, w20] =>
    ifClear (head6Clear w0 w9 w10 && zeroBits w11 31 0 && zeroBits w12 31 0 && zeroBits w13 31 0)
      (.build6Nd { head := head6 w0 w1 w2 w3 w4 w5 w6 w7 w8 w9 w10,
                   flags := w14, target := join128 w15 w16 w17 w18,
                   optType := w19.extractLsb' 24 8, optLen := w19.extractLsb' 16 8,
                   lladdr := (w19.extractLsb' 0 16 : BitVec 16) ++ w20 })
  | _ => .error .wrongWordCount

/-- The decoder: `W0` alone selects the format (R52, R61); a descriptor that is not well-formed is rejected by name (R62). -/
def decode : List Word → Except Illegal Instr
  | [] => .error .noWords
  | w0 :: ws =>
    match formatOf w0 with
    | none => .error .reservedOpcode
    | some .c => decodeC w0 ws
    | some .p => decodeP w0 ws
    | some .n => decodeN w0 ws
    | some .b4 => decodeB4 w0 ws
    | some .s4 => decodeS4 w0 ws
    | some .b6e => decodeB6e w0 ws
    | some .b6n => decodeB6n w0 ws

/-- `W0` from its fields (R51). -/
def commandWord (op : Byte) (badsum df kind : Bool) : Word :=
  0#21 ++ BitVec.ofBool kind ++ BitVec.ofBool df ++ BitVec.ofBool badsum ++ op

/-- Words W1 to W10 of formats B6E and B6N (R58, R59). -/
def encodeHead6 (h : Build6Head) : List Word :=
  split128 h.src ++ split128 h.dst
    ++ [0#4 ++ h.trafficClass ++ h.flowLabel, h.hopLimit ++ 0#8 ++ h.icmpType ++ h.icmpCode]

/-- The encoder: the descriptor of an operation (R53 to R59). -/
def encode : Instr → List Word
  | .csum d => [commandWord 0x01 false false false, d.ptr, d.length]
  | .pcsum6 d =>
    [commandWord 0x02 false false false] ++ split128 d.src ++ split128 d.dst
      ++ [d.upperLen, 0#24 ++ d.nextHeader, d.payloadPtr, d.payloadLen]
  | .needfrag d => [commandWord 0x10 false false false, 0#16 ++ d.mtu, d.origPtr, 0#16 ++ d.origLen]
  | .build4 d =>
    [commandWord 0x20 d.badsum d.df false, d.src, d.dst, d.ttl ++ d.tos ++ d.ipId, d.id ++ d.seq,
      0#16 ++ d.icmpType ++ d.icmpCode, d.optPtr, 0#16 ++ d.optLen, d.dataPtr, 0#16 ++ d.dataLen]
  | .send4 d =>
    [commandWord 0x21 d.badsum d.df false, d.src, d.dst, d.ttl ++ 0#24, 0#16 ++ d.seq,
      0#16 ++ d.icmpType ++ d.icmpCode, d.optPtr, 0#16 ++ d.optLen, d.dataPtr, 0#16 ++ d.dataLen,
      d.mtu, d.link, d.fd]
  | .build6Echo d =>
    [commandWord 0x30 d.head.badsum false false] ++ encodeHead6 d.head
      ++ [d.id ++ d.seq, d.dataPtr, 0#16 ++ d.dataLen]
  | .build6Nd d =>
    [commandWord 0x30 d.head.badsum false true] ++ encodeHead6 d.head
      ++ [0, 0, 0, d.flags] ++ split128 d.target
      ++ [d.optType ++ d.optLen ++ (d.lladdr.extractLsb' 32 16 : BitVec 16), d.lladdr.extractLsb' 0 32]

/-- How many words the descriptor that begins with `w0` has (R61); one word where `OP` is reserved. -/
def descriptorWords (w0 : Word) : Nat :=
  match formatOf w0 with
  | none => 1
  | some .c => 3
  | some .p => 13
  | some .n => 4
  | some .b4 => 10
  | some .s4 => 13
  | some .b6e => 14
  | some .b6n => 21

/-- `n` words of 32 bits read from the number `w`, the least significant first: bit 0 of `w` is bit 0 of `W0`, and a later
word's bits count on from it. -/
def wordsOfNat : Nat → Nat → List Word
  | 0, _ => []
  | n + 1, w => BitVec.ofNat 32 w :: wordsOfNat n (w / 4294967296)

/-- The descriptor of a table row's bits: `nbits` bits of `w`, every bit above them zero, as many words as `W0` says. -/
def tableDescriptor (nbits w : Nat) : List Word :=
  wordsOfNat (descriptorWords (BitVec.ofNat 32 (w % 2 ^ nbits))) (w % 2 ^ nbits)

/-- What the decoder reads from a table row's bits. -/
def decodeTableWord (nbits w : Nat) : Option Instr :=
  (decode (tableDescriptor nbits w)).toOption

end Sys2Proof
end

