-- ==== Sys2Proof/Config.lean ====
section
/-! DEFINITION. What an implementation of the block fixes, and the free values: the parameters of R4 and the OPEN
parameters of 92_eei_decisions.md section 7. An `opaque` constant has no body, so nothing can be proved of its value. -/

namespace Sys2Proof

/-- One answer of the allocator to `alloc(n)` (R38, R191). -/
inductive AllocAnswer where
  /-- The address the allocator offers; it counts only where R38 allows it (log entry 3). -/
  | placed (a : Word)
  /-- Allocation failed. -/
  | null
  /-- No answer yet: the block waits, still `BUSY` (R191, log entry 4). -/
  | silent
  deriving DecidableEq, Repr, Inhabited

/-- One answer of the transmitter to `tx` (R173, R191). -/
inductive TxAnswer where
  /-- The transmitter answers, true or false. -/
  | answered (ok : Bool)
  /-- No answer yet: the send blocks, the block stays `BUSY` (R148, R191, log entry 4). -/
  | silent
  deriving DecidableEq, Repr, Inhabited

/-- The three draws of one `SEND4` (R141). -/
structure Draw where
  ipId : Half
  tos : Byte
  icmpId : Half
  deriving DecidableEq, Repr

/-- How far a command had come when a reset abandoned it (R181; log entry 26). -/
inductive Progress where
  /-- It has done nothing since its last step. -/
  | untouched
  /-- It has asked the allocator, once, and no more. -/
  | allocated
  /-- It has handed its packet over and the attempt is in the history; its buffer is not freed. -/
  | sent
  /-- It has done all of its next step; only the response is lost. -/
  | ran
  deriving DecidableEq, Repr, Inhabited

/-- The shape of an ICMP v6 message (R123). -/
inductive Kind where
  | echo
  | nd
  deriving DecidableEq, Repr

/-- `ICMP4_MAX_PAYLOAD` (R4); a literal of the source that cannot be audited (log entry 29). -/
def Config.icmp4MaxPayload : Nat := 1500

/-- `ICMP6_MAX_MESSAGE` (R4); a literal of the source that cannot be audited (log entry 29). -/
def Config.icmp6MaxMessage : Nat := 32

/-- `IP4_OPT_MAX` (R4). -/
def Config.ip4OptMax : Nat := 40

/-- `IP4_PROTO_ICMP` (R4). -/
def Config.ip4ProtoIcmp : Byte := 1#8

/-- `IP6_NEXT_ICMP6` (R4). -/
def Config.ip6NextIcmp6 : Byte := 58#8

/-- `IP4_DF_BIT` (R4). -/
def Config.ip4DfBit : Half := 0x4000#16

/-- The open part of `ICMP6_ECHO_DATA_MAX` (R4, R131; log entry 12). -/
opaque Config.echoRoom : Fin 65500

/-- `ICMP6_ECHO_DATA_MAX`: at least the default `ICMP6_MAX_MESSAGE - 4` = 28, at most 65527 (R131; log entry 12). Every value in
that range is a value of this constant for some `Config.echoRoom`. -/
def Config.echoDataMax : Nat := Config.echoRoom.val + (Config.icmp6MaxMessage - 4)

/-- The open function behind `BADSUM` (R106; log entry 11). -/
opaque Config.badsumRaw : Half → Half

/-- `BADSUM`: any function with `BADSUM(c) != c` (R106). Where the open function breaks the law its complement stands in, so
every lawful function, and only a lawful one, is a value of this definition (log entry 11). -/
def Config.badsum (c : Half) : Half :=
  if Config.badsumRaw c = c then ~~~c else Config.badsumRaw c

/-- `KIND_OF_TYPE` (R133, 93 U8): which shape an ICMP v6 type goes with. A premise of claims only; the block never consults
it (log entry 27). -/
opaque Config.kindOfType : Byte → Option Kind

/-- The allocator's answer where no input is listed (R38; log entry 1). -/
opaque Config.freeAlloc : Nat → AllocAnswer

/-- The transmitter's answer where no input is listed (R173; log entry 1). -/
opaque Config.freeTx : Nat → TxAnswer

/-- `SEND4_IP_ID` where no input is listed (R141; log entry 13). -/
opaque Config.freeIpId : Nat → Half

/-- `SEND4_TOS` where no input is listed (R141; log entry 13). -/
opaque Config.freeTos : Nat → Byte

/-- `SEND4_ICMP_ID` where no input is listed (R141; log entry 13). -/
opaque Config.freeIcmpId : Nat → Half

/-- How far an abandoned command had come (R181; log entry 26). -/
opaque Config.freeProgress : Nat → Progress

/-- The answer of an attempt that a reset overtook before the transmitter had answered (R173, R181; log entry 26). -/
opaque Config.freeLateAnswer : Nat → Bool

/-- The unspecified bytes of a fresh buffer (R38; log entry 20). -/
opaque Config.freshByte : Nat → Nat → Byte

end Sys2Proof
end

