-- ==== Sys2Proof/Machine/State.lean ====
section
/-! DEFINITION. Everything the spec gives the block and its environment, as plain data, and its value after reset
(10_state.md; 20_memory.md; 70_reset_and_hazards.md). -/

namespace Sys2Proof.Machine

/-- `PHASE` (R10). -/
inductive Phase where
  /-- 0: no command is in progress; the block can accept one. -/
  | idle
  /-- 1: a command has been accepted and its response has not been delivered. -/
  | busy
  deriving DecidableEq, Repr

/-- The outcome codes of R165; their numbers are `Status.code`. -/
inductive Status where
  | ok
  | allocFail
  | txFail
  | mtuExceeded
  | illegal
  deriving DecidableEq, Repr

/-- The response record (R15). -/
structure Response where
  status : Status
  csum : Half
  buf : Word
  len : Word
  deriving DecidableEq, Repr

/-- A buffer of the allocator: `len` bytes at `addr` (R38). -/
structure Buffer where
  addr : Word
  len : Nat
  deriving DecidableEq, Repr

/-- One call of the transmitter: the two handles as given and the packet (R143, R173). -/
structure TxCall where
  link : Word
  fd : Word
  pkt : List Byte
  deriving DecidableEq, Repr

/-- One entry of the transmission history (R19(b), R173). -/
structure TxRecord where
  call : TxCall
  answer : Bool
  deriving DecidableEq, Repr

/-- What the host can do (R190, R192); which of it while a command runs, `busyMove` says. -/
inductive HostMove where
  /-- Present a command descriptor on the command port (R12, R50). -/
  | present (d : List Word)
  /-- Provide or overwrite one byte of `MEM` (R30, R43(c)). -/
  | store (a : Word) (b : Byte)
  /-- Release the buffer at `a` to the allocator (R40, R185). -/
  | free (a : Word)
  /-- Reset the block (R180). -/
  | reset
  deriving DecidableEq, Repr

/-- `MEM`: the populated addresses with their bytes, addresses strictly rising; an address not listed is unpopulated (R30). -/
abbrev Memory := List Host.Cell

/-- The canonical form of a memory: addresses strictly rising, all below 2^32 (R30). An unlisted address has no value, so no
entry can equal what it reads as. -/
abbrev Memory.wf (m : Memory) : Prop :=
  m.Pairwise (fun x y => x.1 < y.1) ∧ ∀ c ∈ m, c.1 < 2 ^ 32

/-- The block and its environment. -/
structure State where
  /-- `PHASE` (R10). -/
  phase : Phase
  /-- The captured command descriptor, held while `BUSY` (R14, R45). -/
  captured : Option (List Word)
  /-- The last response delivered, until the next command is accepted (R15; log entry 6). -/
  response : Option Response
  /-- The buffer the block owns (R18). -/
  owned : Option Buffer
  /-- The transmission in progress (R148, R180). -/
  sending : Option TxCall
  /-- `MEM` (R17, R30). -/
  mem : Memory
  /-- The allocator's live set, addresses rising (R19(a), R38; log entry 28). -/
  live : List Buffer
  /-- The transmission history, oldest first (R19(b), R173; log entry 28). -/
  history : List TxRecord
  /-- The host's moves to come while the block is `IDLE`: an input (log entry 1). -/
  host : List HostMove
  /-- What the host does at each step of a running command, `none` where it only waits: an input (R190; log entry 1). -/
  meanwhile : List (Option HostMove)
  /-- The allocator's answers to come: an input (log entry 1). -/
  allocs : List AllocAnswer
  /-- The transmitter's answers to come: an input (log entry 1). -/
  txs : List TxAnswer
  /-- The draws of `SEND4` to come: an input (log entry 1). -/
  draws : List Draw
  /-- The counter the free values of Config are applied to (log entry 2). -/
  ticks : Nat
  deriving DecidableEq, Repr

/-- Why the machine stops with a fault. The spec's block has no trap (R160). -/
inductive Fault where
  /-- Raised by `step` alone, in a `BUSY` state that holds no captured descriptor, which no run reaches (R10, R14; log entry 22).
  Safe: the machine stops. -/
  | busyWithoutCommand
  deriving DecidableEq, Repr

/-- Why a command or a host move is given no meaning: the undefined inputs of R166, each by its own name, and the host's breaches of
its duties. Every one is safe: the machine stops where the hardware may do anything (log entry 14). -/
inductive Refusal where
  /-- Raised by an arm of `exec` for an instruction without a meaning; no arm raises it now. Safe. -/
  | notModelled (mnemonic : String)
  /-- R166(a): raised by BUILD4 and SEND4 on `DATA_LEN > 1500`. Safe. -/
  | payloadOverMax
  /-- R166(b): raised by BUILD4 and SEND4 on an `OPT_LEN` that is no multiple of 4 or above 40. Safe. -/
  | optionLength
  /-- R166(c): raised by BUILD6.ECHO on `DATA_LEN > ICMP6_ECHO_DATA_MAX`. Safe. -/
  | echoOverMax
  /-- R166(d): raised by every builder and SEND4 on a null operand pointer with a nonzero length. Safe. -/
  | operandNull
  /-- R166(d): raised by every builder and SEND4 on an operand buffer that wraps the address space. Safe. -/
  | operandWraps
  /-- R166(d): raised by every builder and SEND4 on an operand buffer that reaches an unpopulated address. Safe. -/
  | operandNotProvided
  /-- R166(e): raised by CSUM and PCSUM6 on a range that wraps the address space. Safe. -/
  | rangeWraps
  /-- R166(e): raised by CSUM and PCSUM6 on a range that reaches an unpopulated address. Safe. -/
  | rangeNotProvided
  /-- Raised by the host's move `free` on an address where no live buffer is (R40; log entry 21). Safe. -/
  | freeOfNoBuffer
  /-- Raised by the host's move `present` while a command runs (R187; 93 U13; log entry 5). Safe. -/
  | presentWhileBusy
  /-- Raised by the host's moves `store` and `free` while a command runs, on a byte of an operand buffer of it (R184, R190; 93 U13;
  log entry 5). Safe. -/
  | touchedWhileBusy
  /-- Raised by the host's move `free` while a command runs, on the buffer the block owns, which the host has not received and the
  block frees itself (R18, R40, R146; log entry 21). Safe. -/
  | freeOfOwnedBuffer
  /-- Raised by the host's move `reset` while a command runs (R181, R192; 93 U13; log entry 26). Safe. -/
  | resetWhileBusy
  deriving DecidableEq, Repr

/-- The machine right after reset (R21, R180). `mem`, `live` and `history` belong to the environment, which reset does not set:
the empty values are the model's (log entries 8, 9, 10), and so are the inputs' (log entries 1, 2). -/
def State.reset : State where
  phase := .idle
  captured := none
  response := none
  owned := none
  sending := none
  mem := []
  live := []
  history := []
  host := []
  meanwhile := []
  allocs := []
  txs := []
  draws := []
  ticks := 0

end Sys2Proof.Machine
end

