-- ==== Sys2Proof/Machine/Ops.lean ====
section
/-! DEFINITION. The named operations over `MEM`, the allocator, the transmitter and the response port, and the host's side of
them (20_memory.md, 60_exceptions.md, 70_reset_and_hazards.md). -/

namespace Sys2Proof.Machine

/-! ## MEM (R30 to R32) -/

/-- The byte at an address; `none` where the address is unpopulated (R30). -/
def Memory.get? : Memory → Nat → Option Byte
  | [], _ => none
  | (k, v) :: m, a => if k = a then some v else Memory.get? m a

/-- `MEM[a] <- b` for one address, keeping the canonical form (R32). -/
def Memory.set : Memory → Nat → Byte → Memory
  | [], a, b => [(a, b)]
  | (k, v) :: m, a, b =>
    if a < k then (a, b) :: (k, v) :: m
    else if a = k then (a, b) :: m
    else (k, v) :: Memory.set m a b

/-- `MemWrite`: the bytes at rising addresses from `a` (R32). -/
def Memory.write (m : Memory) (a : Nat) : List Byte → Memory
  | [] => m
  | b :: bs => Memory.write (Memory.set m a b) (a + 1) bs

/-- `MemRead`: `n` bytes from `a`, lowest address first; `none` where one of them is unpopulated (R31). -/
def Memory.read (m : Memory) (a : Nat) : Nat → Option (List Byte)
  | 0 => some []
  | n + 1 =>
    match Memory.get? m a with
    | none => none
    | some b => (Memory.read m (a + 1) n).map (b :: ·)

/-- Make the `n` addresses from `a` unpopulated (R40). -/
def Memory.drop (m : Memory) (a n : Nat) : Memory :=
  m.filter (fun c => decide (c.1 < a) || decide (a + n ≤ c.1))

/-- `[a, a+n)` is disjoint from every populated address (R38). -/
def Memory.clear (m : Memory) (a n : Nat) : Bool :=
  m.all (fun c => decide (c.1 < a) || decide (a + n ≤ c.1))

/-! ## The response (R15, R160) -/

/-- `respond`: deliver the response; `PHASE` becomes `IDLE`, the captured descriptor is gone, the block owns nothing and sends
nothing (R10, R14, R18). -/
def respond (r : Response) (s : State) : State :=
  { s with phase := .idle, captured := none, response := some r, owned := none, sending := none }

/-- `raise ST_X`, the block's one exception mechanism: `respond(ST_X, 0, NULL, 0)` (R160). There is no return from it
(R170). -/
def raise (st : Status) (s : State) : State :=
  respond { status := st, csum := 0, buf := 0, len := 0 } s

/-! ## The allocator (R38 to R40) -/

/-- Where a new buffer of `n` bytes may lie: `a != 0`, `a + n <= 2^32`, `[a, a+n)` unpopulated (R38). -/
def mayPlace (s : State) (a : Word) (n : Nat) : Bool :=
  a != 0 && decide (a.toNat + n ≤ 2 ^ 32) && s.mem.clear a.toNat n

/-- The allocator's next answer as given: the next input, else a free value (log entry 1). -/
def nextAlloc (s : State) : AllocAnswer :=
  match s.allocs with
  | r :: _ => r
  | [] => Config.freeAlloc s.ticks

/-- The answer of `alloc(n)`: an offered address R38 does not allow is a failure (log entry 3). DESIGN CHOICE (log entry 32): where
the allocator answers only after a wait, `s`, and so what counts as populated, is the state of the step that answers. -/
def allocAnswer (n : Nat) (s : State) : AllocAnswer :=
  match nextAlloc s with
  | .placed a => if mayPlace s a n then .placed a else .null
  | r => r

/-- The allocator has been asked once. -/
def popAlloc (s : State) : State :=
  { s with allocs := s.allocs.tail, ticks := s.ticks + 1 }

/-- Put a buffer into the live set, addresses rising (log entry 28). -/
def insertBuffer (b : Buffer) : List Buffer → List Buffer
  | [] => [b]
  | x :: xs => if b.addr.toNat < x.addr.toNat then b :: x :: xs else x :: insertBuffer b xs

/-- The unspecified bytes of a fresh buffer of `n` bytes (R38; log entry 20). -/
def freshBytes (t : Nat) (n : Nat) : List Byte :=
  (List.range n).map (Config.freshByte t)

/-- `alloc` succeeds: the addresses become populated with unspecified bytes, the buffer becomes live and the block owns it
(R38, R18). -/
def grant (a : Word) (n : Nat) (s : State) : State :=
  { s with
    mem := s.mem.write a.toNat (freshBytes s.ticks n)
    live := insertBuffer { addr := a, len := n } s.live
    owned := some { addr := a, len := n } }

/-- `MemWrite(a, n, v)` (R32). -/
def memWrite (a : Word) (v : List Byte) (s : State) : State :=
  { s with mem := s.mem.write a.toNat v }

/-- `free` of a buffer: it leaves the live set and its addresses become unpopulated (R40). -/
def release (b : Buffer) (s : State) : State :=
  { s with
    mem := s.mem.drop b.addr.toNat b.len
    live := s.live.filter (fun x => x.addr != b.addr) }

/-- The block frees the buffer it owns (R146). -/
def releaseOwned (s : State) : State :=
  match s.owned with
  | some b => release b s
  | none => s

/-- The common end of the four builders: one `alloc` of the buffer's length, every byte written, the buffer handed to the host
(R38, R39, R93, R109, R130). While the allocator has not answered, the command waits (log entry 4). -/
def buildInto (bytes : List Byte) (s : State) : State :=
  match allocAnswer bytes.length s with
  | .silent => popAlloc s
  | .null => raise .allocFail (popAlloc s)
  | .placed a =>
    respond { status := .ok, csum := 0, buf := a, len := BitVec.ofNat 32 bytes.length }
      (memWrite a bytes (grant a bytes.length (popAlloc s)))

/-! ## The transmitter (R143, R148, R173) -/

/-- The transmitter's next answer: the next input, else a free value (log entry 1). -/
def nextTx (s : State) : TxAnswer :=
  match s.txs with
  | r :: _ => r
  | [] => Config.freeTx s.ticks

/-- The transmitter has been asked once. -/
def popTx (s : State) : State :=
  { s with txs := s.txs.tail, ticks := s.ticks + 1 }

/-- The packet is handed over; the send is in progress (R143). -/
def startTx (c : TxCall) (s : State) : State :=
  { s with sending := some c }

/-- One entry is added to the transmission history (R173). -/
def recordTx (c : TxCall) (ok : Bool) (s : State) : State :=
  { s with history := s.history ++ [{ call := c, answer := ok }] }

/-- The transmitter has answered: the attempt is recorded, the buffer freed, the response delivered (R140 step 3, R145, R146,
R162). -/
def finishTx (c : TxCall) (ok : Bool) (s : State) : State :=
  if ok then respond { status := .ok, csum := 0, buf := 0, len := 0 } (releaseOwned (recordTx c ok s))
  else raise .txFail (releaseOwned (recordTx c ok s))

/-- The blocking send: the command goes on only when the transmitter answers (R148, R191). -/
def awaitTx (c : TxCall) (s : State) : State :=
  match nextTx s with
  | .silent => popTx s
  | .answered ok => finishTx c ok (popTx s)

/-! ## The draws of SEND4 (R141) -/

/-- The three draws: the next input, else free values (log entry 13). -/
def nextDraw (s : State) : Draw :=
  match s.draws with
  | d :: _ => d
  | [] => { ipId := Config.freeIpId s.ticks, tos := Config.freeTos s.ticks, icmpId := Config.freeIcmpId s.ticks }

/-- The draws have been made once. -/
def popDraw (s : State) : State :=
  { s with draws := s.draws.tail, ticks := s.ticks + 1 }

/-! ## The host's side (R12, R40, R45, R180, R190) -/

/-- The block accepts the presented descriptor: it is captured whole, `PHASE` becomes `BUSY`, no response is pending
(R10, R12, R45). -/
def acceptCommand (d : List Word) (s : State) : State :=
  { s with phase := .busy, captured := some d, response := none }

/-- Reset between commands: the block's own state only; `MEM`, the live set and the history stay (R180, R182). -/
def resetBlock (s : State) : State :=
  { s with phase := .idle, captured := none, response := none, owned := none, sending := none }

/-- The host provides or overwrites a byte (R30). -/
def hostStore (a : Word) (b : Byte) (s : State) : State :=
  { s with mem := s.mem.set a.toNat b }

/-- The live buffer at an address (R40). -/
def liveAt (s : State) (a : Word) : Option Buffer :=
  s.live.find? (fun b => b.addr == a)

/-- One host move (R192). -/
def hostMove (mv : HostMove) (s : State) : Host.Outcome State Fault Refusal :=
  match mv with
  | .present d => .next (acceptCommand d s)
  | .store a b => .next (hostStore a b s)
  | .free a =>
    match liveAt s a with
    | some b => .next (release b s)
    | none => .refused .freeOfNoBuffer
  | .reset => .next (resetBlock s)

/-- The host's move is taken from its list. -/
def popHost (s : State) : State :=
  { s with host := s.host.tail }

/-- While `IDLE` the block does nothing (R177); the host makes its next move, if it has one. -/
def idleStep (s : State) : Host.Outcome State Fault Refusal :=
  match s.host with
  | [] => .next s
  | mv :: _ => hostMove mv (popHost s)

end Sys2Proof.Machine
end

