-- ==== Sys2Proof/Machine/Operands.lean ====
section
/-! DEFINITION. Operand forms: the big-endian serialisers of 00_scope.md section 7, the operand buffer of R34, the byte range
of the checksum operations, and the contract on lengths (R103, R131). -/

namespace Sys2Proof.Machine

/-- `be16` (00_scope.md section 7; R8). -/
def be16 (v : Half) : List Byte :=
  [v.extractLsb' 8 8, v.extractLsb' 0 8]

/-- `be32` (00_scope.md section 7; R8). -/
def be32 (v : Word) : List Byte :=
  [v.extractLsb' 24 8, v.extractLsb' 16 8, v.extractLsb' 8 8, v.extractLsb' 0 8]

/-- `be48` (00_scope.md section 7; R60). -/
def be48 (v : Mac) : List Byte :=
  be16 (v.extractLsb' 32 16) ++ be32 (v.extractLsb' 0 32)

/-- `be128` (00_scope.md section 7; R60). -/
def be128 (v : Ip6) : List Byte :=
  be32 (v.extractLsb' 96 32) ++ be32 (v.extractLsb' 64 32) ++ be32 (v.extractLsb' 32 32) ++ be32 (v.extractLsb' 0 32)

/-- `opbuf(ptr, n)`: the four cases of R34, in their order. -/
def opbuf (s : State) (ptr : Word) (n : Nat) : Except Refusal (List Byte) :=
  if n = 0 then .ok []
  else if ptr = 0 then .error .operandNull
  else if ptr.toNat + n > 2 ^ 32 then .error .operandWraps
  else
    match s.mem.read ptr.toNat n with
    | none => .error .operandNotProvided
    | some bs => .ok bs

/-- The byte range of CSUM and PCSUM6: `none` for null or zero-length input, which is defined (R79); a range that wraps or is not
provided is undefined (R166(e)). -/
def byteRange (s : State) (ptr : Word) (n : Nat) : Except Refusal (Option (List Byte)) :=
  if ptr = 0 ∨ n = 0 then .ok none
  else if ptr.toNat + n > 2 ^ 32 then .error .rangeWraps
  else
    match s.mem.read ptr.toNat n with
    | none => .error .rangeNotProvided
    | some bs => .ok (some bs)

/-- The two operand buffers of BUILD4 and SEND4 within the contract of R103: options, then data. -/
def operands4 (s : State) (optPtr : Word) (optLen : Half) (dataPtr : Word) (dataLen : Half) :
    Except Refusal (List Byte × List Byte) :=
  if dataLen.toNat > Config.icmp4MaxPayload then .error .payloadOverMax
  else if optLen.toNat % 4 ≠ 0 ∨ optLen.toNat > Config.ip4OptMax then .error .optionLength
  else
    match opbuf s optPtr optLen.toNat with
    | .error r => .error r
    | .ok opts =>
      match opbuf s dataPtr dataLen.toNat with
      | .error r => .error r
      | .ok data => .ok (opts, data)

/-- The trailing data of BUILD6.ECHO within the contract of R131. -/
def operandsEcho (s : State) (dataPtr : Word) (dataLen : Half) : Except Refusal (List Byte) :=
  if dataLen.toNat > Config.echoDataMax then .error .echoOverMax
  else opbuf s dataPtr dataLen.toNat

end Sys2Proof.Machine
end

