-- ==== Sys2Proof/Machine/Flags.lean ====
section
/-! DEFINITION. The block has no flag and no condition code (R13); what it reports is STATUS (R165) and the response words (R64).
Here too: the one's-complement arithmetic every checksum result is computed with (40_checksum.md). -/

namespace Sys2Proof.Machine

/-- The numbers of the STATUS codes (R165). -/
def Status.code : Status → Byte
  | .ok => 0x00
  | .allocFail => 0x01
  | .txFail => 0x02
  | .mtuExceeded => 0x03
  | .illegal => 0x7F

/-- The three words on the response port (R64). -/
def Response.words (r : Response) : List Word :=
  [r.csum ++ 0#8 ++ r.status.code, r.buf, r.len]

/-- 16-bit addition with end-around carry (R70). -/
def ocadd16 (a b : Nat) : Nat :=
  if a + b > 0xFFFF then a + b - 0xFFFF else a + b

/-- The 16-bit words of a byte sequence in network order, a trailing odd byte as the high byte of a last word (R71). -/
def words : List Byte → List Nat
  | [] => []
  | [b] => [256 * b.toNat]
  | hi :: lo :: rest => (256 * hi.toNat + lo.toNat) :: words rest

/-- The one's-complement sum (R72). -/
def ocsum (s : List Byte) : Nat :=
  (words s).foldl ocadd16 0

/-- `cksum(s) = 0xFFFF - ocsum(s)` (R73). -/
def cksum (s : List Byte) : Half :=
  BitVec.ofNat 16 (0xFFFF - ocsum s)

/-- The 40-byte IPv6 pseudo-header (R77). -/
def ph6 (src dst : Ip6) (upperLen : Word) (nh : Byte) : List Byte :=
  be128 src ++ be128 dst ++ be32 upperLen ++ [0, 0, 0] ++ [nh]

/-- `pcsum6` (R78). -/
def pcsum6 (src dst : Ip6) (upperLen : Word) (nh : Byte) (p : List Byte) : Half :=
  cksum (ph6 src dst upperLen nh ++ p)

/-- What is written into an ICMP checksum field whose correct value is `c`: `BADSUM(c)` when the flag is set (R106, R128). -/
def sumField (badsum : Bool) (c : Half) : Half :=
  if badsum then Config.badsum c else c

end Sys2Proof.Machine
end

