-- ==== Sys2Proof/Machine/Checksum.lean ====
section
/-! DEFINITION. The checksum module: CSUM and PCSUM6 (40_checksum.md). -/

namespace Sys2Proof.Machine

/-- The response of a checksum operation (R15, R76, R78). -/
def respondSum (c : Half) (s : State) : State :=
  respond { status := .ok, csum := c, buf := 0, len := 0 } s

/-- `CSUM` (R76, R79). -/
def execCsum (d : CsumOp) (s : State) : Host.Outcome State Fault Refusal :=
  match byteRange s d.ptr d.length.toNat with
  | .error r => .refused r
  | .ok none => .next (respondSum 0xFFFF s)
  | .ok (some bs) => .next (respondSum (cksum bs) s)

/-- `PCSUM6` (R78, R79). -/
def execPcsum6 (d : Pcsum6Op) (s : State) : Host.Outcome State Fault Refusal :=
  match byteRange s d.payloadPtr d.payloadLen.toNat with
  | .error r => .refused r
  | .ok none => .next (respondSum 0xFFFF s)
  | .ok (some bs) => .next (respondSum (pcsum6 d.src d.dst d.upperLen d.nextHeader bs) s)

end Sys2Proof.Machine
end

