-- ==== Sys2Proof/Machine/Message4.lean ====
section
/-! DEFINITION. The ICMP4 message builders: NEEDFRAG (41_icmp4_message_builders.md). -/

namespace Sys2Proof.Machine

/-- The need-fragment body: two reserved zero bytes, the MTU as given, the copied bytes (R90, R94). -/
def needfragBody (mtu : Half) (orig : List Byte) : List Byte :=
  [0, 0] ++ be16 mtu ++ orig

/-- `NEEDFRAG` (R91, R92, R93). -/
def execNeedfrag (d : NeedfragOp) (s : State) : Host.Outcome State Fault Refusal :=
  match opbuf s d.origPtr d.origLen.toNat with
  | .error r => .refused r
  | .ok orig => .next (buildInto (needfragBody d.mtu orig) s)

end Sys2Proof.Machine
end

