-- ==== Sys2Proof/Machine/Packet4.lean ====
section
/-! DEFINITION. The ICMP4 packet builder: BUILD4 (42_icmp4_packet_builder.md). -/

namespace Sys2Proof.Machine

/-- The length of the IPv4 header (R102). -/
def hlen4 (optLen : Half) : Nat := 20 + optLen.toNat

/-- The length of the whole packet (R102). -/
def total4 (optLen dataLen : Half) : Nat := hlen4 optLen + 8 + dataLen.toNat

/-- The IPv4 header and options with a given header checksum field (R101). -/
def ip4Header (d : Build4Op) (opts : List Byte) (sum : Half) : List Byte :=
  [0x40 ||| BitVec.ofNat 8 (hlen4 d.optLen / 4)] ++ [d.tos] ++ be16 (BitVec.ofNat 16 (total4 d.optLen d.dataLen))
    ++ be16 d.ipId ++ be16 (if d.df then Config.ip4DfBit else 0) ++ [d.ttl] ++ [Config.ip4ProtoIcmp] ++ be16 sum
    ++ be32 d.src ++ be32 d.dst ++ opts

/-- The ICMP v4 region with a given checksum field (R100). -/
def icmp4Region (d : Build4Op) (data : List Byte) (sum : Half) : List Byte :=
  [d.icmpType] ++ [d.icmpCode] ++ be16 sum ++ be16 d.id ++ be16 d.seq ++ data

/-- The correct ICMP checksum: over the ICMP region with its field zero (R105). -/
def icmp4Sum (d : Build4Op) (data : List Byte) : Half := cksum (icmp4Region d data 0)

/-- The IPv4 header checksum: over the header with its field zero, whatever `BADSUM` is (R107). -/
def ip4Sum (d : Build4Op) (opts : List Byte) : Half := cksum (ip4Header d opts 0)

/-- The complete packet of `build4` (R104): both checksums computed last, each over its own region (R105, R107, R108). -/
def packet4 (d : Build4Op) (opts data : List Byte) : List Byte :=
  ip4Header d opts (ip4Sum d opts) ++ icmp4Region d data (sumField d.badsum (icmp4Sum d data))

/-- `BUILD4` (R104, R109). -/
def execBuild4 (d : Build4Op) (s : State) : Host.Outcome State Fault Refusal :=
  match operands4 s d.optPtr d.optLen d.dataPtr d.dataLen with
  | .error r => .refused r
  | .ok (opts, data) => .next (buildInto (packet4 d opts data) s)

end Sys2Proof.Machine
end

