-- ==== Sys2Proof/Machine/Packet6.lean ====
section
/-! DEFINITION. The ICMP6 packet builder: BUILD6.ECHO and BUILD6.ND (43_icmp6_packet_builder.md). -/

namespace Sys2Proof.Machine

/-- The IPv6 header (R124). -/
def ip6Header (h : Build6Head) (plen : Nat) : List Byte :=
  be32 (6#4 ++ h.trafficClass ++ h.flowLabel) ++ be16 (BitVec.ofNat 16 plen) ++ [Config.ip6NextIcmp6] ++ [h.hopLimit]
    ++ be128 h.src ++ be128 h.dst

/-- The ICMP v6 region with a given checksum field: the common header, then the message (R120). -/
def icmp6Region (h : Build6Head) (msg : List Byte) (sum : Half) : List Byte :=
  [h.icmpType] ++ [h.icmpCode] ++ be16 sum ++ msg

/-- The correct ICMP v6 checksum: the pseudo-header algorithm over the ICMP region with its field zero (R127). -/
def icmp6Sum (h : Build6Head) (msg : List Byte) : Half :=
  pcsum6 h.src h.dst (BitVec.ofNat 32 (4 + msg.length)) Config.ip6NextIcmp6 (icmp6Region h msg 0)

/-- The complete packet of `build6` (R125). -/
def packet6 (h : Build6Head) (msg : List Byte) : List Byte :=
  ip6Header h (4 + msg.length) ++ icmp6Region h msg (sumField h.badsum (icmp6Sum h msg))

/-- The echo message (R121). -/
def echoMessage (d : Build6EchoOp) (data : List Byte) : List Byte :=
  be16 d.id ++ be16 d.seq ++ data

/-- The neighbor-discovery message (R122). -/
def ndMessage (d : Build6NdOp) : List Byte :=
  be32 d.flags ++ be128 d.target ++ [d.optType] ++ [d.optLen] ++ be48 d.lladdr

/-- `BUILD6.ECHO` (R125, R130, R131). -/
def execBuild6Echo (d : Build6EchoOp) (s : State) : Host.Outcome State Fault Refusal :=
  match operandsEcho s d.dataPtr d.dataLen with
  | .error r => .refused r
  | .ok data => .next (buildInto (packet6 d.head (echoMessage d data)) s)

/-- `BUILD6.ND` (R126, R130). -/
def execBuild6Nd (d : Build6NdOp) (s : State) : Host.Outcome State Fault Refusal :=
  .next (buildInto (packet6 d.head (ndMessage d)) s)

end Sys2Proof.Machine
end

