-- ==== Sys2Proof/Machine/Transmit.lean ====
section
/-! DEFINITION. The transmission function: SEND4 (44_transmission.md). -/

namespace Sys2Proof.Machine

/-- The BUILD4 operand record of a SEND4 command: every shared field copied, the three missing ones drawn (R140 step 1, R141). -/
def build4Of (d : Send4Op) (w : Draw) : Build4Op :=
  { badsum := d.badsum, df := d.df, src := d.src, dst := d.dst, ttl := d.ttl, tos := w.tos, ipId := w.ipId, id := w.icmpId,
    seq := d.seq, icmpType := d.icmpType, icmpCode := d.icmpCode, optPtr := d.optPtr, optLen := d.optLen,
    dataPtr := d.dataPtr, dataLen := d.dataLen }

/-- The packet is built at `a`; then the MTU gate, and the one transmission attempt (R140 steps 2 and 3, R142, R145). -/
def gateAndSend (d : Send4Op) (pkt : List Byte) (a : Word) (s : State) : State :=
  let built := memWrite a pkt (grant a pkt.length s)
  if pkt.length > d.mtu.toNat then raise .mtuExceeded (releaseOwned built)
  else
    let call : TxCall := { link := d.link, fd := d.fd, pkt := (built.mem.read a.toNat pkt.length).getD [] }
    awaitTx call (startTx call built)

/-- SEND4 once its operands are read: the build, whose one failure is the allocator's (R140 step 1, R144). -/
def sendBuilt (d : Send4Op) (pkt : List Byte) (s : State) : State :=
  match allocAnswer pkt.length s with
  | .silent => popAlloc s
  | .null => raise .allocFail (popAlloc (popDraw s))
  | .placed a => gateAndSend d pkt a (popAlloc (popDraw s))

/-- `SEND4` (R140 to R149). -/
def execSend4 (d : Send4Op) (s : State) : Host.Outcome State Fault Refusal :=
  match operands4 s d.optPtr d.optLen d.dataPtr d.dataLen with
  | .error r => .refused r
  | .ok (opts, data) => .next (sendBuilt d (packet4 (build4Of d (nextDraw s)) opts data) s)

end Sys2Proof.Machine
end

