-- ==== Sys2Proof/Machine/Dispatch.lean ====
section
/-! DEFINITION. One arm per operation of the opcode table: a direct call of its meaning. -/

namespace Sys2Proof.Machine

def exec (i : Instr) (s : State) : Host.Outcome State Fault Refusal :=
  match i with
  | .csum d => Sys2Proof.Machine.execCsum d s
  | .pcsum6 d => Sys2Proof.Machine.execPcsum6 d s
  | .needfrag d => Sys2Proof.Machine.execNeedfrag d s
  | .build4 d => Sys2Proof.Machine.execBuild4 d s
  | .send4 d => Sys2Proof.Machine.execSend4 d s
  | .build6Echo d => Sys2Proof.Machine.execBuild6Echo d s
  | .build6Nd d => Sys2Proof.Machine.execBuild6Nd d s

end Sys2Proof.Machine
end

