-- ==== Sys2Proof/Machine/Busy.lean ====
section
/-! DEFINITION. What happens while a command runs: the block's own step, what the host may do meanwhile; and, beside the step,
what R181 says of a reset that abandons the command (44_transmission.md R148; 70_reset_and_hazards.md R181, R184, R187, R190, R191). -/

namespace Sys2Proof.Machine

/-! ## The block's step -/

/-- The block waits for the transmitter if a send is in progress (R148), else it decodes the captured descriptor and runs it, or answers
`ST_ILLEGAL` (R62, R164). -/
def blockStep (s : State) : Host.Outcome State Fault Refusal :=
  match s.sending with
  | some c => .next (awaitTx c s)
  | none =>
    match s.captured with
    | none => .fault .busyWithoutCommand
    | some ws =>
      match decode ws with
      | .error _ => .next (raise .illegal s)
      | .ok i => exec i s

/-! ## What the running command holds -/

/-- The operand buffers of a command: pointer and length (R41). -/
def operandBuffers (i : Instr) : List (Word × Nat) :=
  match i with
  | .csum d => [(d.ptr, d.length.toNat)]
  | .pcsum6 d => [(d.payloadPtr, d.payloadLen.toNat)]
  | .needfrag d => [(d.origPtr, d.origLen.toNat)]
  | .build4 d => [(d.optPtr, d.optLen.toNat), (d.dataPtr, d.dataLen.toNat)]
  | .send4 d => [(d.optPtr, d.optLen.toNat), (d.dataPtr, d.dataLen.toNat)]
  | .build6Echo d => [(d.dataPtr, d.dataLen.toNat)]
  | .build6Nd _ => []

/-- The running command, where the captured descriptor is well-formed. -/
def runningCommand (s : State) : Option Instr :=
  s.captured.bind (fun ws => (decode ws).toOption)

/-- The buffers the host must leave alone while the command runs: its operand buffers, and no other memory (R184, R190). -/
def heldBuffers (s : State) : List (Word × Nat) :=
  match runningCommand s with
  | none => []
  | some i => operandBuffers i

/-- `[a, a+n)` shares an address with one of the buffers; a null pointer denotes no buffer (R35). -/
def touches (a n : Nat) (bufs : List (Word × Nat)) : Bool :=
  bufs.any (fun r => r.1 != 0 && decide (max a r.1.toNat < min (a + n) (r.1.toNat + r.2)))

/-! ## Reset during a command (R181) -/

/-- The bytes a command asks the allocator for (R91, R102, R125, R126); `none` for the checksum operations, which ask for none. -/
def request (i : Instr) : Option Nat :=
  match i with
  | .csum _ => none
  | .pcsum6 _ => none
  | .needfrag d => some (4 + d.origLen.toNat)
  | .build4 d => some (28 + d.optLen.toNat + d.dataLen.toNat)
  | .send4 d => some (28 + d.optLen.toNat + d.dataLen.toNat)
  | .build6Echo d => some (48 + d.dataLen.toNat)
  | .build6Nd _ => some 72

/-- The command has asked the allocator and done no more: the buffer it was given stays live (R181). -/
def leaveBuffer (s : State) : State :=
  match (runningCommand s).bind request with
  | none => s
  | some n =>
    match allocAnswer n s with
    | .placed a => grant a n (popAlloc s)
    | _ => popAlloc s

/-- The transmitter's next answer is put off: asked once, it does not answer. -/
def silenceTx (s : State) : State :=
  { s with txs := .silent :: s.txs }

/-- The answer of an attempt that a reset overtakes: the transmitter's, else a free one. -/
def lateAnswer (s : State) : Bool :=
  match nextTx s with
  | .answered ok => ok
  | .silent => Config.freeLateAnswer s.ticks

/-- The command has handed its packet over and the attempt is in the history, its buffer not yet freed (R140 step 3, R173, R181). A
command that hands no packet over has done nothing more. -/
def leaveAttempt (s : State) : State :=
  match s.sending with
  | some c => recordTx c (lateAnswer s) (popTx s)
  | none =>
    match blockStep (silenceTx s) with
    | .next t =>
      match t.sending with
      | some c => recordTx c (lateAnswer t) (popTx t)
      | none => s
    | _ => s

/-- The contents of the buffer the block owned are unspecified (R181). -/
def loseContents (s : State) : State :=
  match s.owned with
  | none => s
  | some b => memWrite b.addr (freshBytes s.ticks b.len) s

/-- The counter of the free values advances. -/
def tick (s : State) : State :=
  { s with ticks := s.ticks + 1 }

/-- What the command had done when the reset came: `s` is the state before its next step, `t` the state after it. -/
def leftBehind (p : Progress) (s t : State) : State :=
  match p with
  | .untouched => s
  | .allocated => if s.sending.isSome then s else leaveBuffer s
  | .sent => leaveAttempt s
  | .ran => t

/-- What R181 says of a reset while `BUSY`; no step runs it, since the step refuses that move (93 U13; log entry 26). The command is
abandoned, no response is delivered, `free` is not called, and how far the command had come is free. A command outside the contract has
no meaning up to the reset either: it is refused (R166). -/
def abandon (s : State) : Host.Outcome State Fault Refusal :=
  match blockStep (tick s) with
  | .next t => .next (resetBlock (loseContents (leftBehind (Config.freeProgress s.ticks) (tick s) t)))
  | .fault f => .fault f
  | .refused r => .refused r

/-! ## The host meanwhile (R190) -/

/-- One host move while a command runs: it may act on any memory that is no operand buffer of the command (R190, R192). Presenting a
command, touching an operand buffer and resetting are no moves of the host and are refused (R181, R184, R187, R192; 93 U13; log entries
5, 26), and the buffer the block owns is not the host's to free (R40; log entry 21). -/
def busyMove (mv : HostMove) (s : State) : Host.Outcome State Fault Refusal :=
  match mv with
  | .present _ => .refused .presentWhileBusy
  | .store a b => if touches a.toNat 1 (heldBuffers s) then .refused .touchedWhileBusy else .next (hostStore a b s)
  | .free a =>
    match liveAt s a with
    | none => .refused .freeOfNoBuffer
    | some b =>
      if s.owned = some b then .refused .freeOfOwnedBuffer
      else if touches b.addr.toNat b.len (heldBuffers s) then .refused .touchedWhileBusy else .next (release b s)
  | .reset => .refused .resetWhileBusy

/-- The host's turn during a command is taken from its list. -/
def popMeanwhile (s : State) : State :=
  { s with meanwhile := s.meanwhile.tail }

/-- While `BUSY`: the host's move if it makes one at this step, else the block's. -/
def busyStep (s : State) : Host.Outcome State Fault Refusal :=
  match s.meanwhile with
  | some mv :: _ => busyMove mv (popMeanwhile s)
  | _ => blockStep (popMeanwhile s)

end Sys2Proof.Machine
end

