-- ==== Sys2Proof/Machine/Step.lean ====
section
/-! DEFINITION. One step of the block and its environment (10_state.md R10, R12; 70_reset_and_hazards.md R190). -/

namespace Sys2Proof.Machine

/-- While `IDLE` the host moves (R177, R190); while `BUSY` the block moves, or the host does what R190 allows it meanwhile. -/
def step (s : State) : Host.Outcome State Fault Refusal :=
  match s.phase with
  | .idle => idleStep s
  | .busy => busyStep s

/-- The state in which the descriptor of a table row's bits has just been accepted, so that the next step runs it (log
entry 23). -/
def State.withFetchWord (s : State) (nbits w : Nat) : State :=
  { acceptCommand (tableDescriptor nbits w) s with sending := none, meanwhile := [] }

end Sys2Proof.Machine
end

