-- ==== Sys2Proof/Machine/Assembler.lean ====
section
/-! DEFINITION. The textual form of a command (30_encoding.md R65): a line of text to the operation it names. The block never sees
the text; `encode` of the operation is the descriptor the host presents. -/

namespace Sys2Proof.Machine

/-! ## Text -/

/-- The pieces between the characters that `p` picks out. -/
def splitText (p : Char → Bool) : List Char → List (List Char)
  | [] => [[]]
  | c :: cs =>
    if p c then [] :: splitText p cs
    else
      match splitText p cs with
      | [] => [[c]]
      | w :: ws => (c :: w) :: ws

/-- The words of a line. -/
def asmTokens (line : List Char) : List (List Char) :=
  (splitText Char.isWhitespace line).filter (fun w => !w.isEmpty)

/-- All of the values, if every one is there. -/
def allSome {α : Type} : List (Option α) → Option (List α)
  | [] => some []
  | none :: _ => none
  | some a :: os => (allSome os).map (a :: ·)

/-! ## Values (R65) -/

/-- A digit in a base up to 16. -/
def digitValue (base : Nat) (c : Char) : Option Nat :=
  let v :=
    if '0' ≤ c ∧ c ≤ '9' then c.toNat - 48
    else if 'a' ≤ c ∧ c ≤ 'f' then c.toNat - 87
    else if 'A' ≤ c ∧ c ≤ 'F' then c.toNat - 55
    else base
  if v < base then some v else none

/-- Digits, most significant first, onto the number read so far. -/
def digitsValue (base : Nat) : Nat → List Char → Option Nat
  | acc, [] => some acc
  | acc, c :: cs =>
    match digitValue base c with
    | none => none
    | some d => digitsValue base (base * acc + d) cs

/-- One or more digits. -/
def naturalValue (base : Nat) (w : List Char) : Option Nat :=
  if w.isEmpty then none else digitsValue base 0 w

/-- A decimal or `0x` hexadecimal number (R65). -/
def numberValue : List Char → Option Nat
  | '0' :: 'x' :: ds => naturalValue 16 ds
  | ds => naturalValue 10 ds

/-- A number that fits the field's width (R53 to R59). -/
def uintValue (n : Nat) (w : List Char) : Option (BitVec n) :=
  match numberValue w with
  | none => none
  | some v => if v < 2 ^ n then some (BitVec.ofNat n v) else none

/-- The buffer addresses that have a name. -/
abbrev Symbols := List (String × Word)

/-- A pointer: a number, or a symbol naming a buffer address (R65). -/
def pointerValue (syms : Symbols) (w : List Char) : Option Word :=
  match uintValue 32 w with
  | some v => some v
  | none => (syms.find? (fun p => p.1.toList == w)).map (·.2)

/-- Parts of at most `digits` digits, each below `2 ^ bits`, most significant part first. -/
def partsValue (base digits bits : Nat) (parts : List (List Char)) : Option Nat :=
  (allSome (parts.map (fun w =>
    match naturalValue base w with
    | none => none
    | some v => if w.length ≤ digits ∧ v < 2 ^ bits then some v else none))).map
  (fun vs => vs.foldl (fun acc v => acc * 2 ^ bits + v) 0)

/-- A dotted IPv4 address (R65): four parts of one to three decimal digits, each at most 255. DESIGN CHOICE (log entry 31). -/
def ip4Value (w : List Char) : Option Word :=
  let parts := splitText (· == '.') w
  if parts.length = 4 then (partsValue 10 3 8 parts).map (BitVec.ofNat 32) else none

/-- A colon MAC address (R65): six parts of one or two hexadecimal digits. DESIGN CHOICE (log entry 31). -/
def macValue (w : List Char) : Option Mac :=
  let parts := splitText (· == ':') w
  if parts.length = 6 then (partsValue 16 2 8 parts).map (BitVec.ofNat 48) else none

/-- The text before and after the first `::`. -/
def cutDoubleColon : List Char → Option (List Char × List Char)
  | [] => none
  | c :: cs =>
    if c = ':' ∧ cs.head? = some ':' then some ([], cs.tail)
    else (cutDoubleColon cs).map (fun p => (c :: p.1, p.2))

/-- The groups of one side of a `::`. -/
def ip6Groups (w : List Char) : List (List Char) :=
  if w.isEmpty then [] else splitText (· == ':') w

/-- A colon IPv6 address: eight groups, or fewer with one `::` for the zero groups left out (R65; log entry 31). -/
def ip6Value (w : List Char) : Option Ip6 :=
  match cutDoubleColon w with
  | none =>
    let parts := splitText (· == ':') w
    if parts.length = 8 then (partsValue 16 4 16 parts).map (BitVec.ofNat 128) else none
  | some (l, r) =>
    let ls := ip6Groups l
    let rs := ip6Groups r
    if ls.length + rs.length ≤ 7 then
      (partsValue 16 4 16 (ls ++ List.replicate (8 - (ls.length + rs.length)) ['0'] ++ rs)).map (BitVec.ofNat 128)
    else none

/-! ## A line (R65) -/

/-- A line taken apart: the mnemonic, the operands as name and value, the flags, the names of the results where `->` stands. -/
structure AsmLine where
  mnemonic : List Char
  operands : List (List Char × List Char)
  flags : List (List Char)
  results : Option (List (List Char))
  deriving DecidableEq, Repr

/-- Name and value of a word `name=value`. -/
def cutEquals : List Char → Option (List Char × List Char)
  | [] => none
  | c :: cs => if c = '=' then some ([], cs) else (cutEquals cs).map (fun p => (c :: p.1, p.2))

/-- The words before the first `->`, and those after it. -/
def cutArrow : List (List Char) → List (List Char) × Option (List (List Char))
  | [] => ([], none)
  | w :: ws =>
    if w = ['-', '>'] then ([], some ws)
    else ((w :: (cutArrow ws).1), (cutArrow ws).2)

/-- The result names: the words after `->` without their brackets and commas. -/
def resultNames (ws : List (List Char)) : List (List Char) :=
  (ws.map (fun w => w.filter (fun c => c != '(' && c != ')' && c != ','))).filter (fun w => !w.isEmpty)

/-- Take a line apart: operands first, then the flags, then the result. DESIGN CHOICE (log entry 31): words end at blanks only, so
blanks must stand on both sides of `->` and after the comma of two result names. -/
def parseLine (line : List Char) : Option AsmLine :=
  match asmTokens line with
  | [] => none
  | m :: ws =>
    let body := (cutArrow ws).1
    let operands := body.takeWhile (fun w => w.contains '=')
    (allSome (operands.map cutEquals)).map (fun ops =>
      { mnemonic := m, operands := ops, flags := body.drop operands.length,
        results := (cutArrow ws).2.map resultNames })

/-- The line has exactly the operands named, in any order, no flag but those named, and as many result names as the operation has
results if it names any (R65). DESIGN CHOICE (log entry 31): a flag written twice is one flag. -/
def AsmLine.shape (l : AsmLine) (names flags : List String) (results : Nat) : Bool :=
  (l.operands.map (·.1)).isPerm (names.map String.toList)
    && l.flags.all (fun f => (flags.map String.toList).contains f)
    && (match l.results with
      | none => true
      | some rs => rs.length == results)

/-- The value of an operand by its name. -/
def AsmLine.operand {α : Type} (l : AsmLine) (name : String) (read : List Char → Option α) : Option α :=
  match l.operands.find? (fun p => p.1 == name.toList) with
  | none => none
  | some p => read p.2

/-- A flag stands on the line. -/
def AsmLine.flag (l : AsmLine) (name : String) : Bool :=
  l.flags.contains name.toList

/-- `CSUM bytes= length= -> csum` (R65). -/
def asmCsum (syms : Symbols) (l : AsmLine) : Option Instr :=
  if l.shape ["bytes", "length"] [] 1 then do
    let ptr ← l.operand "bytes" (pointerValue syms)
    let length ← l.operand "length" (uintValue 32)
    some (.csum { ptr := ptr, length := length })
  else none

/-- `PCSUM6 src= dst= upper_len= next_header= payload= payload_len= -> csum` (R65). -/
def asmPcsum6 (syms : Symbols) (l : AsmLine) : Option Instr :=
  if l.shape ["src", "dst", "upper_len", "next_header", "payload", "payload_len"] [] 1 then do
    let src ← l.operand "src" ip6Value
    let dst ← l.operand "dst" ip6Value
    let upperLen ← l.operand "upper_len" (uintValue 32)
    let nextHeader ← l.operand "next_header" (uintValue 8)
    let payloadPtr ← l.operand "payload" (pointerValue syms)
    let payloadLen ← l.operand "payload_len" (uintValue 32)
    some (.pcsum6 { src := src, dst := dst, upperLen := upperLen, nextHeader := nextHeader, payloadPtr := payloadPtr,
                    payloadLen := payloadLen })
  else none

/-- `NEEDFRAG mtu= original_data= original_len= -> (buf, len)` (R65). -/
def asmNeedfrag (syms : Symbols) (l : AsmLine) : Option Instr :=
  if l.shape ["mtu", "original_data", "original_len"] [] 2 then do
    let mtu ← l.operand "mtu" (uintValue 16)
    let origPtr ← l.operand "original_data" (pointerValue syms)
    let origLen ← l.operand "original_len" (uintValue 16)
    some (.needfrag { mtu := mtu, origPtr := origPtr, origLen := origLen })
  else none

/-- `BUILD4 ... [df] [badsum] -> (buf, len)` (R65). -/
def asmBuild4 (syms : Symbols) (l : AsmLine) : Option Instr :=
  if l.shape ["src", "dst", "ttl", "ip_id", "tos", "ip_options", "ip_options_len", "seq", "id", "type", "code", "data",
      "data_len"] ["df", "badsum"] 2 then do
    let src ← l.operand "src" ip4Value
    let dst ← l.operand "dst" ip4Value
    let ttl ← l.operand "ttl" (uintValue 8)
    let ipId ← l.operand "ip_id" (uintValue 16)
    let tos ← l.operand "tos" (uintValue 8)
    let optPtr ← l.operand "ip_options" (pointerValue syms)
    let optLen ← l.operand "ip_options_len" (uintValue 16)
    let seq ← l.operand "seq" (uintValue 16)
    let id ← l.operand "id" (uintValue 16)
    let icmpType ← l.operand "type" (uintValue 8)
    let icmpCode ← l.operand "code" (uintValue 8)
    let dataPtr ← l.operand "data" (pointerValue syms)
    let dataLen ← l.operand "data_len" (uintValue 16)
    some (.build4 { badsum := l.flag "badsum", df := l.flag "df", src := src, dst := dst, ttl := ttl, tos := tos, ipId := ipId,
                    id := id, seq := seq, icmpType := icmpType, icmpCode := icmpCode, optPtr := optPtr, optLen := optLen,
                    dataPtr := dataPtr, dataLen := dataLen })
  else none

/-- `SEND4 ... [df] [badsum] -> status` (R65). -/
def asmSend4 (syms : Symbols) (l : AsmLine) : Option Instr :=
  if l.shape ["link_handle", "socket_fd", "src", "dst", "ttl", "ip_options", "ip_options_len", "seq", "code", "type", "data",
      "data_len", "mtu"] ["df", "badsum"] 1 then do
    let link ← l.operand "link_handle" (uintValue 32)
    let fd ← l.operand "socket_fd" (uintValue 32)
    let src ← l.operand "src" ip4Value
    let dst ← l.operand "dst" ip4Value
    let ttl ← l.operand "ttl" (uintValue 8)
    let optPtr ← l.operand "ip_options" (pointerValue syms)
    let optLen ← l.operand "ip_options_len" (uintValue 16)
    let seq ← l.operand "seq" (uintValue 16)
    let icmpCode ← l.operand "code" (uintValue 8)
    let icmpType ← l.operand "type" (uintValue 8)
    let dataPtr ← l.operand "data" (pointerValue syms)
    let dataLen ← l.operand "data_len" (uintValue 16)
    let mtu ← l.operand "mtu" (uintValue 32)
    some (.send4 { badsum := l.flag "badsum", df := l.flag "df", src := src, dst := dst, ttl := ttl, seq := seq,
                   icmpType := icmpType, icmpCode := icmpCode, optPtr := optPtr, optLen := optLen, dataPtr := dataPtr,
                   dataLen := dataLen, mtu := mtu, link := link, fd := fd })
  else none

/-- The operands the two `BUILD6` forms share (R65). -/
def asmHead6 (l : AsmLine) : Option Build6Head := do
  let src ← l.operand "src" ip6Value
  let dst ← l.operand "dst" ip6Value
  let trafficClass ← l.operand "traffic_class" (uintValue 8)
  let flowLabel ← l.operand "flow_label" (uintValue 20)
  let hopLimit ← l.operand "hop_limit" (uintValue 8)
  let icmpType ← l.operand "type" (uintValue 8)
  let icmpCode ← l.operand "code" (uintValue 8)
  some { badsum := l.flag "badsum", src := src, dst := dst, trafficClass := trafficClass, flowLabel := flowLabel,
         hopLimit := hopLimit, icmpType := icmpType, icmpCode := icmpCode }

/-- `BUILD6.ECHO ... [badsum] -> (buf, len)` (R65). -/
def asmBuild6Echo (syms : Symbols) (l : AsmLine) : Option Instr :=
  if l.shape ["src", "dst", "traffic_class", "flow_label", "hop_limit", "seq", "id", "type", "code", "data", "data_len"]
      ["badsum"] 2 then do
    let head ← asmHead6 l
    let seq ← l.operand "seq" (uintValue 16)
    let id ← l.operand "id" (uintValue 16)
    let dataPtr ← l.operand "data" (pointerValue syms)
    let dataLen ← l.operand "data_len" (uintValue 16)
    some (.build6Echo { head := head, id := id, seq := seq, dataPtr := dataPtr, dataLen := dataLen })
  else none

/-- `BUILD6.ND ... [badsum] -> (buf, len)` (R65). -/
def asmBuild6Nd (l : AsmLine) : Option Instr :=
  if l.shape ["src", "dst", "traffic_class", "flow_label", "hop_limit", "type", "code", "flags", "target", "opt_type", "opt_len",
      "lladdr"] ["badsum"] 2 then do
    let head ← asmHead6 l
    let flags ← l.operand "flags" (uintValue 32)
    let target ← l.operand "target" ip6Value
    let optType ← l.operand "opt_type" (uintValue 8)
    let optLen ← l.operand "opt_len" (uintValue 8)
    let lladdr ← l.operand "lladdr" macValue
    some (.build6Nd { head := head, flags := flags, target := target, optType := optType, optLen := optLen, lladdr := lladdr })
  else none

/-- The operation of a line taken apart, by its mnemonic (R52, R65); there is no other mnemonic and no pseudo-instruction
(R66). -/
def assembleLine (syms : Symbols) (l : AsmLine) : Option Instr :=
  if l.mnemonic = "CSUM".toList then asmCsum syms l
  else if l.mnemonic = "PCSUM6".toList then asmPcsum6 syms l
  else if l.mnemonic = "NEEDFRAG".toList then asmNeedfrag syms l
  else if l.mnemonic = "BUILD4".toList then asmBuild4 syms l
  else if l.mnemonic = "SEND4".toList then asmSend4 syms l
  else if l.mnemonic = "BUILD6.ECHO".toList then asmBuild6Echo syms l
  else if l.mnemonic = "BUILD6.ND".toList then asmBuild6Nd l
  else none

/-- The operation a line of text names (R65). -/
def assemble (syms : Symbols) (line : String) : Option Instr :=
  match parseLine line.toList with
  | none => none
  | some l => assembleLine syms l

/-- The descriptor of a line of text. -/
def assembleWords (syms : Symbols) (line : String) : Option (List Word) :=
  (assemble syms line).map encode

end Sys2Proof.Machine
end

