-- ==== Sys2Proof/Safety.lean ====
section
/-! DEFINITION. What counts as a good command and a good state, in the terms claims use: the contract of R166, the coherence
premise of R133, the block's and the environment's invariants (R10, R14, R18, R30, R38). -/

namespace Sys2Proof.Safety

open Sys2Proof.Machine

/-- Every address of `[a, a+n)` is populated (R30). -/
def Provided (m : Memory) (a n : Nat) : Prop :=
  ∀ x, a ≤ x → x < a + n → (m.get? x).isSome = true

/-- An operand buffer `opbuf` is defined on (R34). -/
def OperandOk (s : State) (ptr : Word) (n : Nat) : Prop :=
  n = 0 ∨ (ptr ≠ 0 ∧ ptr.toNat + n ≤ 2 ^ 32 ∧ Provided s.mem ptr.toNat n)

/-- A byte range CSUM and PCSUM6 are defined on: null and zero-length input included (R79, R166(e)). -/
def RangeOk (s : State) (ptr : Word) (n : Nat) : Prop :=
  ptr = 0 ∨ n = 0 ∨ (ptr.toNat + n ≤ 2 ^ 32 ∧ Provided s.mem ptr.toNat n)

/-- The contract of BUILD4 and SEND4 (R103). -/
def Contract4 (s : State) (optPtr : Word) (optLen : Half) (dataPtr : Word) (dataLen : Half) : Prop :=
  dataLen.toNat ≤ 1500 ∧ optLen.toNat % 4 = 0 ∧ optLen.toNat ≤ 40
    ∧ OperandOk s optPtr optLen.toNat ∧ OperandOk s dataPtr dataLen.toNat

/-- The command is none of the undefined inputs of R166. -/
def InContract (i : Instr) (s : State) : Prop :=
  match i with
  | .csum d => RangeOk s d.ptr d.length.toNat
  | .pcsum6 d => RangeOk s d.payloadPtr d.payloadLen.toNat
  | .needfrag d => OperandOk s d.origPtr d.origLen.toNat
  | .build4 d => Contract4 s d.optPtr d.optLen d.dataPtr d.dataLen
  | .send4 d => Contract4 s d.optPtr d.optLen d.dataPtr d.dataLen
  | .build6Echo d => d.dataLen.toNat ≤ Config.echoDataMax ∧ OperandOk s d.dataPtr d.dataLen.toNat
  | .build6Nd _ => True

/-- The ICMP v6 type goes with the shape (R133): a premise a claim may state, never a check of the block (log entry 27). -/
def KindCoherent (i : Instr) : Prop :=
  match i with
  | .build6Echo d => Config.kindOfType d.head.icmpType = some .echo
  | .build6Nd d => Config.kindOfType d.head.icmpType = some .nd
  | _ => True

/-- The block between and during commands: while `IDLE` it holds nothing (R10, R14, R18, R20); while `BUSY` it holds a captured
descriptor and no response is pending (R10, R14); what it sends has its own live buffer, of the packet's length (R18, R143). -/
structure BlockInv (s : State) : Prop where
  idle_holds_nothing : s.phase = .idle → s.captured = none ∧ s.owned = none ∧ s.sending = none
  busy_holds_command : s.phase = .busy → s.captured.isSome = true ∧ s.response = none
  owned_is_sent : ∀ b, s.owned = some b → s.sending.isSome = true
  sent_is_owned : ∀ c, s.sending = some c →
    ∃ b, s.owned = some b ∧ b ∈ s.live ∧ b.len = c.pkt.length

/-- The allocator's live set: rising and disjoint, every buffer of at least one byte, at a nonzero address, inside the space, all
of its addresses populated (R30, R38). -/
structure LiveInv (s : State) : Prop where
  disjoint : s.live.Pairwise (fun x y => x.addr.toNat + x.len ≤ y.addr.toNat)
  placed : ∀ b ∈ s.live, b.addr ≠ 0 ∧ 1 ≤ b.len ∧ b.addr.toNat + b.len ≤ 2 ^ 32
  populated : ∀ b ∈ s.live, Provided s.mem b.addr.toNat b.len

/-- The invariant of every run. -/
structure Inv (s : State) : Prop where
  mem_wf : s.mem.wf
  live : LiveInv s
  block : BlockInv s

/-- The host makes no move at this step of a running command. -/
def HostWaits (s : State) : Prop :=
  s.meanwhile.head?.join = none

/-- What the host may do while a command runs (R40, R184, R187, R190): nothing to an operand buffer, no release of the block's own
buffer, no command presented, no reset (R181, R192). -/
def MeanwhileOk (mv : HostMove) (s : State) : Prop :=
  match mv with
  | .present _ => False
  | .store a _ => touches a.toNat 1 (heldBuffers s) = false
  | .free a => ∃ b ∈ s.live, b.addr = a ∧ s.owned ≠ some b ∧ touches b.addr.toNat b.len (heldBuffers s) = false
  | .reset => False

/-- The host keeps to its side of R40, R184 and R187: its next move frees no address but that of a live buffer, and while a command
runs it does only what `MeanwhileOk` allows. -/
def HostOk (s : State) : Prop :=
  (∀ a rest, s.host = .free a :: rest → ∃ b ∈ s.live, b.addr = a) ∧
  ∀ mv rest, s.phase = .busy → s.meanwhile = some mv :: rest → MeanwhileOk mv s

/-! ## What a command leaves, as claims say it -/

/-- A response has been delivered: `PHASE` is `IDLE`, no captured descriptor, no buffer owned, no send in progress (R10, R14,
R18). -/
def Delivered (r : Response) (t : State) : Prop :=
  t.phase = .idle ∧ t.captured = none ∧ t.response = some r ∧ t.owned = none ∧ t.sending = none

/-- The command waits for the environment: what the block held it still holds (R148, R191). -/
def StillBusy (s t : State) : Prop :=
  t.phase = s.phase ∧ t.captured = s.captured ∧ t.response = s.response

/-- The environment's state is as it was: `MEM`, the live set, the history (R19, R30). -/
def EnvKept (s t : State) : Prop :=
  t.mem = s.mem ∧ t.live = s.live ∧ t.history = s.history

/-- No oracle was asked and the host has made no move. -/
def InputsKept (s t : State) : Prop :=
  t.host = s.host ∧ t.meanwhile = s.meanwhile ∧ t.allocs = s.allocs ∧ t.txs = s.txs ∧ t.draws = s.draws ∧ t.ticks = s.ticks

/-- Only the allocator was asked, once. -/
def AskedAlloc (s t : State) : Prop :=
  t.host = s.host ∧ t.meanwhile = s.meanwhile ∧ t.allocs = s.allocs.tail ∧ t.txs = s.txs ∧ t.draws = s.draws ∧ t.ticks = s.ticks + 1

/-- A builder succeeded at `a` (R38, R39): the response carries the buffer and its length, the buffer holds exactly `bytes`, every
address outside it reads as before, the buffer is live beside those that were, nothing was sent, only the allocator was asked. -/
structure BuiltAt (a : Word) (bytes : List Byte) (s t : State) : Prop where
  placed : a ≠ 0 ∧ a.toNat + bytes.length ≤ 2 ^ 32
  delivered : Delivered { status := .ok, csum := 0, buf := a, len := BitVec.ofNat 32 bytes.length } t
  holds : t.mem.read a.toNat bytes.length = some bytes
  outside : ∀ x, x < a.toNat ∨ a.toNat + bytes.length ≤ x → t.mem.get? x = s.mem.get? x
  live : ∀ b, b ∈ t.live ↔ b = { addr := a, len := bytes.length } ∨ b ∈ s.live
  history : t.history = s.history
  inputs : AskedAlloc s t

/-- Repeated folding of a wide accumulator, at most `n` times (R74). -/
def foldWide : Nat → Nat → Nat
  | 0, t => t
  | n + 1, t => if t > 0xFFFF then foldWide n (t % 0x10000 + t / 0x10000) else t

/-- The number a byte sequence spells, most significant byte first (R8, R33). -/
def bigEndian (bs : List Byte) : Nat :=
  bs.foldl (fun acc b => 256 * acc + b.toNat) 0

end Sys2Proof.Safety
end

