-- ==== Sys2Proof/Certificates/Slice0/Obligations.lean ====
section
/-! DEFINITION. The statements for the provers, each from the numbered rules of spec/ its docstring names. -/

open Sys2Proof Sys2Proof.Machine Sys2Proof.Safety

/-! ## Descriptors -/

/-- Descriptor words the spec writes out (95_test_vectors.md V1.5, V2.1, V3.1, V4.4, section 7, V6.3, V6.4) decode to the
operations they stand for. -/
def Obligations.SpecVectorsDecode : Prop :=
  decode [0x00000001, 0x00001000, 0x00000008] = .ok (.csum { ptr := 0x1000, length := 8 }) ∧
  decode [0x00000002, 0x20010DB8, 0, 0, 1, 0x20010DB8, 0, 0, 2, 0x0000000C, 0x0000003A, 0x00001000, 0x0000000C] =
    .ok (.pcsum6 { src := 0x20010DB8000000000000000000000001, dst := 0x20010DB8000000000000000000000002, upperLen := 12,
                   nextHeader := 58, payloadPtr := 0x1000, payloadLen := 12 }) ∧
  decode [0x00000010, 0x00000578, 0x00001000, 0x00000004] =
    .ok (.needfrag { mtu := 1400, origPtr := 0x1000, origLen := 4 }) ∧
  decode [0x00000220, 0xC0000201, 0xC0000202, 0x4010BEEF, 0x12340002, 0x00000800, 0x00001100, 0x00000004, 0x00001000,
      0x00000003] =
    .ok (.build4 { badsum := false, df := true, src := 0xC0000201, dst := 0xC0000202, ttl := 64, tos := 0x10, ipId := 0xBEEF,
                   id := 0x1234, seq := 2, icmpType := 8, icmpCode := 0, optPtr := 0x1100, optLen := 4, dataPtr := 0x1000,
                   dataLen := 3 }) ∧
  decode [0x00000021, 0xC0000201, 0xC0000202, 0x40000000, 0x00000001, 0x00000800, 0, 0, 0x00001000, 0x00000004, 0x000005DC,
      0x00000007, 0x00000003] =
    .ok (.send4 { badsum := false, df := false, src := 0xC0000201, dst := 0xC0000202, ttl := 64, seq := 1, icmpType := 8,
                  icmpCode := 0, optPtr := 0, optLen := 0, dataPtr := 0x1000, dataLen := 4, mtu := 1500, link := 7, fd := 3 }) ∧
  decode [0x00000030, 0x20010DB8, 0, 0, 1, 0x20010DB8, 0, 0, 2, 0x0AB12345, 0xFF008100, 0xFFFFFFFF, 0x00001000, 0x00000003] =
    .ok (.build6Echo { head := { badsum := false, src := 0x20010DB8000000000000000000000001,
                                 dst := 0x20010DB8000000000000000000000002, trafficClass := 0xAB, flowLabel := 0x12345,
                                 hopLimit := 255, icmpType := 129, icmpCode := 0 },
                       id := 0xFFFF, seq := 0xFFFF, dataPtr := 0x1000, dataLen := 3 }) ∧
  decode [0x00000430, 0xFE800000, 0, 0, 1, 0xFF020000, 0, 1, 0xFF000002, 0, 0xFF008700, 0, 0, 0, 0, 0xFE800000, 0, 0, 2,
      0x01010200, 0x00AABBCC] =
    .ok (.build6Nd { head := { badsum := false, src := 0xFE800000000000000000000000000001,
                               dst := 0xFF0200000000000000000001FF000002, trafficClass := 0, flowLabel := 0, hopLimit := 255,
                               icmpType := 135, icmpCode := 0 },
                     flags := 0, target := 0xFE800000000000000000000000000002, optType := 1, optLen := 1,
                     lladdr := 0x020000AABBCC })

/-- Decoding an operation's descriptor gives the operation back, every operand at every value (R53 to R60). -/
def Obligations.DecodeOfEncode : Prop :=
  ∀ i : Instr, decode (encode i) = .ok i

/-- A descriptor that decodes is the descriptor of what it decodes to: no two descriptors mean the same operation, so no bit is
ignored (R50 to R59, R62). -/
def Obligations.EncodeOfDecode : Prop :=
  ∀ (ws : List Word) (i : Instr), decode ws = .ok i → encode i = ws

/-- The decoder accepts exactly the well-formed descriptors (R62): a known opcode, the format's word count, every reserved bit of
`W0` and of every other word zero. -/
def Obligations.DecodeAcceptsWellFormed : Prop :=
  ∀ ws : List Word, (∃ i, decode ws = .ok i) ↔ wellFormed ws = true

/-- An ill-formed descriptor is answered with `ST_ILLEGAL` and has no other effect (R62, R164): nothing read, written, allocated
or transmitted, the block ready for the next command. -/
def Obligations.IllFormedAnswered : Prop :=
  ∀ (s : State) (ws : List Word), s.phase = .busy → HostWaits s → s.sending = none → s.captured = some ws →
    wellFormed ws = false →
    ∃ t, step s = .next t ∧ Delivered { status := .illegal, csum := 0, buf := 0, len := 0 } t ∧ EnvKept s t ∧
      InputsKept (popMeanwhile s) t

/-- Every opcode outside the table is reserved and its descriptor illegal, whatever follows (R63); that it is the opcode which is named,
whatever else is wrong, is the model's choice (log entry 24). -/
def Obligations.ReservedOpcodeRejected : Prop :=
  ∀ (w0 : Word) (ws : List Word), w0.toNat % 256 ∉ [0x01, 0x02, 0x10, 0x20, 0x21, 0x30] →
    decode (w0 :: ws) = .error .reservedOpcode

/-- A 128-bit operand in four words denotes the words' bytes in order, a 48-bit one its 6 bytes, the first byte the most
significant (R60). -/
def Obligations.AddressBytesInOrder : Prop :=
  (∀ a b c d : Word, be128 (join128 a b c d) = be32 a ++ be32 b ++ be32 c ++ be32 d) ∧
  (∀ (h : Half) (w : Word), be48 (h ++ w) = be16 h ++ be32 w) ∧
  (∀ w : Word, be32 w = [w.extractLsb' 24 8, w.extractLsb' 16 8, w.extractLsb' 8 8, w.extractLsb' 0 8])

/-- The serialisers write the most significant byte first (R8, R33): the bytes spell the value. -/
def Obligations.NetworkByteOrder : Prop :=
  (∀ v : Half, bigEndian (be16 v) = v.toNat) ∧ (∀ v : Word, bigEndian (be32 v) = v.toNat) ∧
  (∀ v : Mac, bigEndian (be48 v) = v.toNat) ∧ (∀ v : Ip6, bigEndian (be128 v) = v.toNat)

/-- The response words (R64): STATUS in R0 7:0, zero in 15:8, CSUM in 31:16, then BUF and LEN. -/
def Obligations.ResponseWordLayout : Prop :=
  ∀ r : Response, ∃ w0, r.words = [w0, r.buf, r.len] ∧ w0.extractLsb' 0 8 = r.status.code ∧ w0.extractLsb' 8 8 = 0#8 ∧
    w0.extractLsb' 16 16 = r.csum

/-- The STATUS numbers (R165), no two alike. -/
def Obligations.StatusNumbers : Prop :=
  Status.code .ok = 0x00 ∧ Status.code .allocFail = 0x01 ∧ Status.code .txFail = 0x02 ∧ Status.code .mtuExceeded = 0x03 ∧
  Status.code .illegal = 0x7F ∧ ∀ a b : Status, a.code = b.code → a = b

/-- The textual form of R65: lines of 95_test_vectors.md section 8 (P1, P3), with a symbol, a flag and another operand order, name the
descriptors the spec writes beside them; a missing operand, an unknown flag and a value too wide for its field name none. -/
def Obligations.AssembledLines : Prop :=
  assembleWords [] "NEEDFRAG mtu=1400 original_data=0x1000 original_len=4 -> (buf1, len1)" =
    some [0x00000010, 0x00000578, 0x00001000, 0x00000004] ∧
  assembleWords [("frag", 0x2000)] ("BUILD4 src=10.0.0.1 dst=10.0.0.2 ttl=255 ip_id=7 tos=0 ip_options=0 ip_options_len=0 " ++
      "seq=0 id=0 type=3 code=4 data=frag data_len=8 -> (buf2, len2)") =
    some [0x00000020, 0x0A000001, 0x0A000002, 0xFF000007, 0x00000000, 0x00000304, 0x00000000, 0x00000000, 0x00002000,
      0x00000008] ∧
  assembleWords [] ("BUILD4 data_len=4 data=0x1000 code=0 type=8 id=1234 seq=1 ip_options_len=0 ip_options=0 tos=0 ip_id=0 " ++
      "ttl=64 dst=192.0.2.2 src=192.0.2.1 df badsum") =
    some [0x00000320, 0xC0000201, 0xC0000202, 0x40000000, 0x04D20001, 0x00000800, 0x00000000, 0x00000000, 0x00001000,
      0x00000004] ∧
  assembleWords [] ("PCSUM6 src=2001:db8::1 dst=2001:db8::2 upper_len=12 next_header=58 payload=0x5028 payload_len=12 " ++
      "-> csum") =
    some [0x00000002, 0x20010DB8, 0x00000000, 0x00000000, 0x00000001, 0x20010DB8, 0x00000000, 0x00000000, 0x00000002,
      0x0000000C, 0x0000003A, 0x00005028, 0x0000000C] ∧
  assembleWords [] "CSUM bytes=0x4014" = none ∧ assembleWords [] "CSUM bytes=0x4014 length=12 badsum" = none ∧
  assembleWords [] "NEEDFRAG mtu=65536 original_data=0 original_len=0" = none

/-- Operands stand in any order (R65): lines with the same operands in another order name the same operation, or none. -/
def Obligations.OperandOrderFree : Prop :=
  ∀ (syms : Symbols) (l m : AsmLine), l.mnemonic = m.mnemonic → l.operands.Perm m.operands → l.flags = m.flags →
    l.results = m.results → assembleLine syms l = assembleLine syms m

/-! ## The step -/

/-- While `BUSY` with no send in progress and the host only waiting, a step runs the operation the captured descriptor decodes to
(R10, R12, R45); all it adds is that the host's turn, in which it waits, is taken from the input list. -/
def Obligations.StepRunsDecoded : Prop :=
  ∀ (s : State) (ws : List Word) (i : Instr), s.phase = .busy → HostWaits s → s.sending = none → s.captured = some ws →
    decode ws = .ok i → step s = exec i { s with meanwhile := s.meanwhile.tail }

/-- While `IDLE` a presented descriptor is accepted: captured whole, `PHASE` `BUSY`, no response pending, nothing else changed
(R10, R45). -/
def Obligations.PresentedCommandCaptured : Prop :=
  ∀ (s : State) (d : List Word) (rest : List HostMove), s.phase = .idle → s.host = .present d :: rest →
    ∃ t, step s = .next t ∧ t.phase = .busy ∧ t.captured = some d ∧ t.response = none ∧ t.owned = s.owned ∧
      t.sending = s.sending ∧ EnvKept s t ∧ t.host = rest ∧ t.meanwhile = s.meanwhile ∧ t.allocs = s.allocs ∧
      t.txs = s.txs ∧ t.draws = s.draws ∧ t.ticks = s.ticks

/-- While `IDLE`, with nothing from the host, the block does nothing (R177). -/
def Obligations.IdleDoesNothing : Prop :=
  ∀ s : State, s.phase = .idle → s.host = [] → step s = .next s

/-- The state after reset (R21, R180): `PHASE` `IDLE`, no captured descriptor, no response pending, no buffer owned, no
transmission in progress. -/
def Obligations.ResetState : Prop :=
  State.reset.phase = .idle ∧ State.reset.captured = none ∧ State.reset.response = none ∧ State.reset.owned = none ∧
  State.reset.sending = none

/-- A reset between commands puts the block into its reset state and changes nothing outside it (R180, R182). -/
def Obligations.ResetKeepsEnvironment : Prop :=
  ∀ (s : State) (rest : List HostMove), s.phase = .idle → s.host = .reset :: rest →
    ∃ t, step s = .next t ∧ t.phase = .idle ∧ t.captured = none ∧ t.response = none ∧ t.owned = none ∧ t.sending = none ∧
      EnvKept s t ∧ t.host = rest ∧ t.meanwhile = s.meanwhile ∧ t.allocs = s.allocs ∧ t.txs = s.txs ∧ t.draws = s.draws ∧ t.ticks = s.ticks

/-- The host releases a live buffer (R40): it leaves the live set, its addresses become unpopulated, every other address, every other
live buffer and all other state stay, but for the host's move taken from its list. -/
def Obligations.HostFreeReleases : Prop :=
  ∀ (s : State) (b : Buffer) (rest : List HostMove), Inv s → s.phase = .idle → s.host = .free b.addr :: rest → b ∈ s.live →
    ∃ t, step s = .next t ∧ (∀ x, x ∈ t.live ↔ x ∈ s.live ∧ x ≠ b) ∧
      (∀ x, b.addr.toNat ≤ x → x < b.addr.toNat + b.len → t.mem.get? x = none) ∧
      (∀ x, x < b.addr.toNat ∨ b.addr.toNat + b.len ≤ x → t.mem.get? x = s.mem.get? x) ∧
      t.host = rest ∧ t = { s with mem := t.mem, live := t.live, host := t.host }

/-- A byte the host provides is in `MEM` before the next command, no other address changes (R30, R43), and all other state stays, but for
the host's move taken from its list. -/
def Obligations.HostStoreProvides : Prop :=
  ∀ (s : State) (a : Word) (b : Byte) (rest : List HostMove), s.phase = .idle → s.host = .store a b :: rest →
    ∃ t, step s = .next t ∧ t.mem.get? a.toNat = some b ∧ (∀ x, x ≠ a.toNat → t.mem.get? x = s.mem.get? x) ∧
      t.host = rest ∧ t = { s with mem := t.mem, host := t.host }

/-- Every step keeps the invariant: `MEM` in canonical form, the live set disjoint, placed and populated, the block holding nothing
while `IDLE` and a captured descriptor while `BUSY` (R10, R14, R18, R30, R38). -/
def Obligations.StepKeepsInvariant : Prop :=
  ∀ s t : State, Inv s → step s = .next t → Inv t

/-- The invariant holds after reset. -/
def Obligations.ResetHasInvariant : Prop :=
  Inv State.reset

/-- The block has no trap (R160, R170): from a good state, with the host keeping to R40 and the command in contract (R166), a step
answers a next state; it never stops with a fault. -/
def Obligations.GoodStateSteps : Prop :=
  ∀ s : State, Inv s → HostOk s →
    (∀ ws i, s.captured = some ws → decode ws = .ok i → InContract i s) → ∃ t, step s = .next t

/-! ## The host while a command runs -/

/-- While a command runs the host may act on any memory that is no operand buffer of it, the buffer a waiting `SEND4` owns included: a
byte provided there is in `MEM`; a live buffer there that is not the block's own is released; the command goes on as it was, with the
packet it has handed over (R190). -/
def Obligations.HostActsWhileBusy : Prop :=
  ∀ (s : State) (ws : List Word) (i : Instr), s.phase = .busy → s.captured = some ws → decode ws = .ok i →
    (∀ (a : Word) (b : Byte) (rest : List (Option HostMove)), s.meanwhile = some (.store a b) :: rest →
      (∀ r ∈ operandBuffers i, r.1 ≠ 0 → a.toNat < r.1.toNat ∨ r.1.toNat + r.2 ≤ a.toNat) →
      step s = .next { s with mem := s.mem.set a.toNat b, meanwhile := rest }) ∧
    (∀ (c : Buffer) (rest : List (Option HostMove)), s.meanwhile = some (.free c.addr) :: rest → LiveInv s → c ∈ s.live →
      s.owned ≠ some c →
      (∀ r ∈ operandBuffers i, r.1 ≠ 0 → c.addr.toNat + c.len ≤ r.1.toNat ∨ r.1.toNat + r.2 ≤ c.addr.toNat) →
      step s = .next { s with mem := s.mem.drop c.addr.toNat c.len, live := s.live.filter (fun x => x.addr != c.addr),
                              meanwhile := rest })

/-- What the host must not do while a command runs has no result (R181, R184, R187; 93 U13 says to refuse it): presenting a command or a
reset, whatever was captured; writing or freeing a byte of an operand buffer; and freeing the buffer the block owns, which is not the
host's (log entry 21). -/
def Obligations.HostBreachesRefused : Prop :=
  (∀ (s : State) (d : List Word) (rest : List (Option HostMove)), s.phase = .busy → s.meanwhile = some (.present d) :: rest →
    step s = .refused .presentWhileBusy) ∧
  (∀ (s : State) (rest : List (Option HostMove)), s.phase = .busy → s.meanwhile = some .reset :: rest →
    step s = .refused .resetWhileBusy) ∧
  (∀ (s : State) (c : Buffer) (rest : List (Option HostMove)), s.phase = .busy → s.meanwhile = some (.free c.addr) :: rest →
    LiveInv s → c ∈ s.live → s.owned = some c → step s = .refused .freeOfOwnedBuffer) ∧
  (∀ (s : State) (ws : List Word) (i : Instr) (p : Word) (n : Nat), s.phase = .busy → s.captured = some ws → decode ws = .ok i →
    (p, n) ∈ operandBuffers i → p ≠ 0 →
    (∀ a b rest, s.meanwhile = some (.store a b) :: rest → p.toNat ≤ a.toNat → a.toNat < p.toNat + n →
      step s = .refused .touchedWhileBusy) ∧
    (∀ c rest, s.meanwhile = some (.free c.addr) :: rest → LiveInv s → c ∈ s.live → s.owned ≠ some c →
      (∃ x, c.addr.toNat ≤ x ∧ x < c.addr.toNat + c.len ∧ p.toNat ≤ x ∧ x < p.toNat + n) →
      step s = .refused .touchedWhileBusy))

/-- What a reset while `BUSY` would do (R181), as the operation `abandon`, which no step runs: the move is refused, and the operation is
the model's choice of what R181 leaves unspecified (log entry 26). No response, the block in its reset state, the invariant kept. Of
what was populated only the buffer the block owned may change, every buffer but that one stays live, and at most one transmission attempt
has been added. A command outside the contract (R166) is refused here too. -/
def Obligations.ResetAbandonsCommand : Prop :=
  (∀ s : State, Inv s → s.phase = .busy → (∀ ws i, s.captured = some ws → decode ws = .ok i → InContract i s) →
    ∃ t, abandon s = .next t ∧ Inv t ∧ t.phase = .idle ∧ t.captured = none ∧ t.response = none ∧ t.owned = none ∧
      t.sending = none ∧
      (∀ x, (s.mem.get? x).isSome = true →
        (∀ b, s.owned = some b → x < b.addr.toNat ∨ b.addr.toNat + b.len ≤ x) → t.mem.get? x = s.mem.get? x) ∧
      (∀ b ∈ s.live, b ∈ t.live ∨ s.owned = some b) ∧
      (t.history = s.history ∨ ∃ r, t.history = s.history ++ [r])) ∧
  (∀ (s : State) (ws : List Word) (i : Instr), s.sending = none → s.captured = some ws → decode ws = .ok i →
    ¬ InContract i s → ∃ r, abandon s = .refused r)

/-! ## The contract -/

/-- A command runs exactly when it is none of the undefined inputs of R166. -/
def Obligations.RunsExactlyInContract : Prop :=
  ∀ (i : Instr) (s : State), (∃ t, exec i s = .next t) ↔ InContract i s

/-- The undefined inputs of R166, each refused by its own name: (a) an oversized payload, (b) a bad option length, (c) oversized echo
data, (d) an operand buffer `opbuf` is not defined on, (e) a byte range that wraps or is not provided. -/
def Obligations.ContractViolationsByName : Prop :=
  (∀ d s, d.dataLen.toNat > 1500 → exec (.build4 d) s = .refused .payloadOverMax) ∧
  (∀ d s, d.dataLen.toNat > 1500 → exec (.send4 d) s = .refused .payloadOverMax) ∧
  (∀ d s, d.dataLen.toNat ≤ 1500 → d.optLen.toNat % 4 ≠ 0 ∨ d.optLen.toNat > 40 →
    exec (.build4 d) s = .refused .optionLength) ∧
  (∀ d s, d.dataLen.toNat ≤ 1500 → d.optLen.toNat % 4 ≠ 0 ∨ d.optLen.toNat > 40 →
    exec (.send4 d) s = .refused .optionLength) ∧
  (∀ d s, d.dataLen.toNat > Config.echoDataMax → exec (.build6Echo d) s = .refused .echoOverMax) ∧
  (∀ d s r, opbuf s d.origPtr d.origLen.toNat = .error r → exec (.needfrag d) s = .refused r) ∧
  (∀ d s r, d.dataLen.toNat ≤ Config.echoDataMax → opbuf s d.dataPtr d.dataLen.toNat = .error r →
    exec (.build6Echo d) s = .refused r) ∧
  (∀ d s r, d.dataLen.toNat ≤ 1500 → d.optLen.toNat % 4 = 0 → d.optLen.toNat ≤ 40 →
    opbuf s d.optPtr d.optLen.toNat = .error r → exec (.build4 d) s = .refused r) ∧
  (∀ d s r, d.dataLen.toNat ≤ 1500 → d.optLen.toNat % 4 = 0 → d.optLen.toNat ≤ 40 →
    opbuf s d.optPtr d.optLen.toNat = .error r → exec (.send4 d) s = .refused r) ∧
  (∀ d s o r, d.dataLen.toNat ≤ 1500 → d.optLen.toNat % 4 = 0 → d.optLen.toNat ≤ 40 →
    opbuf s d.optPtr d.optLen.toNat = .ok o → opbuf s d.dataPtr d.dataLen.toNat = .error r →
    exec (.build4 d) s = .refused r) ∧
  (∀ d s o r, d.dataLen.toNat ≤ 1500 → d.optLen.toNat % 4 = 0 → d.optLen.toNat ≤ 40 →
    opbuf s d.optPtr d.optLen.toNat = .ok o → opbuf s d.dataPtr d.dataLen.toNat = .error r →
    exec (.send4 d) s = .refused r) ∧
  (∀ d s, d.ptr ≠ 0 → d.length ≠ 0 → d.ptr.toNat + d.length.toNat > 2 ^ 32 →
    exec (.csum d) s = .refused .rangeWraps) ∧
  (∀ d s, d.ptr ≠ 0 → d.length ≠ 0 → d.ptr.toNat + d.length.toNat ≤ 2 ^ 32 →
    ¬ Provided s.mem d.ptr.toNat d.length.toNat → exec (.csum d) s = .refused .rangeNotProvided) ∧
  (∀ d s, d.payloadPtr ≠ 0 → d.payloadLen ≠ 0 → d.payloadPtr.toNat + d.payloadLen.toNat > 2 ^ 32 →
    exec (.pcsum6 d) s = .refused .rangeWraps) ∧
  (∀ d s, d.payloadPtr ≠ 0 → d.payloadLen ≠ 0 → d.payloadPtr.toNat + d.payloadLen.toNat ≤ 2 ^ 32 →
    ¬ Provided s.mem d.payloadPtr.toNat d.payloadLen.toNat → exec (.pcsum6 d) s = .refused .rangeNotProvided)

/-- `opbuf`, case by case in the order of R34: length 0 reads nothing whatever the pointer; a null pointer, a wrapping buffer and an
unprovided one are undefined; otherwise the first `n` bytes at the pointer and no more (R36). -/
def Obligations.OperandBufferCases : Prop :=
  ∀ (s : State) (ptr : Word) (n : Nat),
    (n = 0 → opbuf s ptr n = .ok []) ∧
    (n ≠ 0 → ptr = 0 → opbuf s ptr n = .error .operandNull) ∧
    (n ≠ 0 → ptr ≠ 0 → ptr.toNat + n > 2 ^ 32 → opbuf s ptr n = .error .operandWraps) ∧
    (n ≠ 0 → ptr ≠ 0 → ptr.toNat + n ≤ 2 ^ 32 → ¬ Provided s.mem ptr.toNat n → opbuf s ptr n = .error .operandNotProvided) ∧
    (n ≠ 0 → ptr ≠ 0 → ptr.toNat + n ≤ 2 ^ 32 → Provided s.mem ptr.toNat n →
      ∃ bs, opbuf s ptr n = .ok bs ∧ bs.length = n ∧ ∀ k < n, bs[k]? = s.mem.get? (ptr.toNat + k))

/-! ## Checksums -/

/-- `ocadd16` (R70): end-around carry; the result is 16 bits; zero only from two zeros; commutative and associative. -/
def Obligations.EndAroundCarryAddition : Prop :=
  ∀ a b c : Nat, a ≤ 0xFFFF → b ≤ 0xFFFF → c ≤ 0xFFFF →
    (a + b > 0xFFFF → ocadd16 a b = a + b - 0xFFFF ∧ ocadd16 a b = (a + b) % 0x10000 + 1) ∧
    (a + b ≤ 0xFFFF → ocadd16 a b = a + b) ∧ ocadd16 a b ≤ 0xFFFF ∧ (ocadd16 a b = 0 ↔ a = 0 ∧ b = 0) ∧
    ocadd16 a b = ocadd16 b a ∧ ocadd16 (ocadd16 a b) c = ocadd16 a (ocadd16 b c)

/-- The words of a byte sequence (R71): `ceil(n/2)` of them, the even offset the high byte, a trailing odd byte the high byte of a
last word whose low byte is zero. -/
def Obligations.WordsInNetworkOrder : Prop :=
  ∀ s : List Byte, (words s).length = (s.length + 1) / 2 ∧
    (∀ i hi lo, s[2 * i]? = some hi → s[2 * i + 1]? = some lo → (words s)[i]? = some (256 * hi.toNat + lo.toNat)) ∧
    (∀ b, s.length % 2 = 1 → s[s.length - 1]? = some b → (words s)[s.length / 2]? = some (256 * b.toNat))

/-- The order of the words does not change the one's-complement sum (R72). -/
def Obligations.WordOrderIrrelevant : Prop :=
  ∀ ws vs : List Nat, (∀ w ∈ ws, w ≤ 0xFFFF) → ws.Perm vs → ws.foldl ocadd16 0 = vs.foldl ocadd16 0

/-- `cksum` is the one's complement of the sum, a `u16`; of no bytes it is 0xFFFF (R73). -/
def Obligations.ChecksumIsComplement : Prop :=
  (∀ s : List Byte, ocsum s ≤ 0xFFFF ∧ (cksum s).toNat = 0xFFFF - ocsum s ∧ cksum s = ~~~ BitVec.ofNat 16 (ocsum s)) ∧
  cksum [] = 0xFFFF

/-- The closed form of the sum (R74): from the exact sum `T` of the words; 0xFFFF exactly for all-zero bytes, 0 exactly for a positive
multiple of 0xFFFF; repeated folding of a wide accumulator gives the same value. -/
def Obligations.ChecksumClosedForm : Prop :=
  ∀ s : List Byte,
    ocsum s = (if (words s).sum = 0 then 0 else ((words s).sum - 1) % 0xFFFF + 1) ∧
    (ocsum s = 0 ↔ ∀ b ∈ s, b = 0) ∧ (ocsum s = 0xFFFF ↔ 0 < (words s).sum ∧ 0xFFFF ∣ (words s).sum) ∧
    (cksum s = 0xFFFF ↔ ∀ b ∈ s, b = 0) ∧ (cksum s = 0 ↔ 0 < (words s).sum ∧ 0xFFFF ∣ (words s).sum) ∧
    foldWide (words s).sum (words s).sum = ocsum s

/-- The self-verification law (R75): a checksum written into its own zeroed field at an even offset makes the sum 0xFFFF and the
checksum 0. -/
def Obligations.ChecksumVerifiesItself : Prop :=
  ∀ (s : List Byte) (p : Nat), p % 2 = 0 → p + 2 ≤ s.length → s[p]? = some 0 → s[p + 1]? = some 0 →
    ocsum (s.take p ++ be16 (cksum s) ++ s.drop (p + 2)) = 0xFFFF ∧
    cksum (s.take p ++ be16 (cksum s) ++ s.drop (p + 2)) = 0

/-- `CSUM` (R76): null or zero-length input gives 0xFFFF; a provided range gives the checksum of its bytes; STATUS is `ST_OK`, no memory
is written, no oracle is asked; any other range is refused. -/
def Obligations.CsumResult : Prop :=
  ∀ (d : CsumOp) (s : State),
    (d.ptr = 0 ∨ d.length = 0 → ∃ t, exec (.csum d) s = .next t ∧
      Delivered { status := .ok, csum := 0xFFFF, buf := 0, len := 0 } t ∧ EnvKept s t ∧ InputsKept s t) ∧
    (d.ptr ≠ 0 → d.length ≠ 0 → d.ptr.toNat + d.length.toNat ≤ 2 ^ 32 →
      ∀ bs, s.mem.read d.ptr.toNat d.length.toNat = some bs → ∃ t, exec (.csum d) s = .next t ∧
        Delivered { status := .ok, csum := cksum bs, buf := 0, len := 0 } t ∧ EnvKept s t ∧ InputsKept s t) ∧
    (¬ RangeOk s d.ptr d.length.toNat → ∃ r, exec (.csum d) s = .refused r)

/-- `PCSUM6` (R77, R78): the checksum of the 40-byte pseudo-header followed by the payload; `UPPER_LEN` enters the sum only,
`PAYLOAD_LEN` bounds the bytes read; null or zero-length payload gives 0xFFFF; any other payload is refused. -/
def Obligations.Pcsum6Result : Prop :=
  ∀ (d : Pcsum6Op) (s : State),
    (d.payloadPtr = 0 ∨ d.payloadLen = 0 → ∃ t, exec (.pcsum6 d) s = .next t ∧
      Delivered { status := .ok, csum := 0xFFFF, buf := 0, len := 0 } t ∧ EnvKept s t ∧ InputsKept s t) ∧
    (d.payloadPtr ≠ 0 → d.payloadLen ≠ 0 → d.payloadPtr.toNat + d.payloadLen.toNat ≤ 2 ^ 32 →
      ∀ bs, s.mem.read d.payloadPtr.toNat d.payloadLen.toNat = some bs → ∃ t, exec (.pcsum6 d) s = .next t ∧
        Delivered { status := .ok, buf := 0, len := 0,
                    csum := cksum (be128 d.src ++ be128 d.dst ++ be32 d.upperLen ++ [0, 0, 0] ++ [d.nextHeader] ++ bs) } t ∧
        EnvKept s t ∧ InputsKept s t) ∧
    (¬ RangeOk s d.payloadPtr d.payloadLen.toNat → ∃ r, exec (.pcsum6 d) s = .refused r)

/-- The checksum operations are pure (R80): they cannot fail, change nothing outside the response, and answer alike in two states whose
ranges hold the same bytes. -/
def Obligations.ChecksumOperationsPure : Prop :=
  (∀ i s t, (∃ d, i = .csum d) ∨ (∃ d, i = .pcsum6 d) → exec i s = .next t →
    EnvKept s t ∧ InputsKept s t ∧ ∃ c, t.response = some { status := .ok, csum := c, buf := 0, len := 0 }) ∧
  (∀ d s s' t, (∀ x, d.ptr.toNat ≤ x → x < d.ptr.toNat + d.length.toNat → s.mem.get? x = s'.mem.get? x) →
    exec (.csum d) s = .next t → ∃ t', exec (.csum d) s' = .next t' ∧ t'.response = t.response) ∧
  (∀ d s s' t, (∀ x, d.payloadPtr.toNat ≤ x → x < d.payloadPtr.toNat + d.payloadLen.toNat → s.mem.get? x = s'.mem.get? x) →
    exec (.pcsum6 d) s = .next t → ∃ t', exec (.pcsum6 d) s' = .next t' ∧ t'.response = t.response)

/-! ## Builders -/

/-- `NEEDFRAG` (R90, R91, R94): the body is two zero bytes, the MTU as given in network order, the first `ORIG_LEN` bytes; `LEN` is
`4 + ORIG_LEN`. -/
def Obligations.NeedfragResult : Prop :=
  ∀ (d : NeedfragOp) (s : State) (orig : List Byte) (a : Word),
    opbuf s d.origPtr d.origLen.toNat = .ok orig → allocAnswer (4 + d.origLen.toNat) s = .placed a →
    ∃ t, exec (.needfrag d) s = .next t ∧ BuiltAt a ([0, 0] ++ be16 d.mtu ++ orig) s t ∧
      t.response = some { status := .ok, csum := 0, buf := a, len := BitVec.ofNat 32 (4 + d.origLen.toNat) }

/-- `BUILD4` (R100, R101, R102, R104, R105, R107): the IPv4 header with its options, the ICMP header and the data, every field as the
tables say, each checksum over its own region with its field zero. -/
def Obligations.Build4Result : Prop :=
  ∀ (d : Build4Op) (s : State) (opts data : List Byte) (a : Word),
    d.dataLen.toNat ≤ 1500 → d.optLen.toNat % 4 = 0 → d.optLen.toNat ≤ 40 →
    opbuf s d.optPtr d.optLen.toNat = .ok opts → opbuf s d.dataPtr d.dataLen.toNat = .ok data →
    allocAnswer (20 + d.optLen.toNat + 8 + d.dataLen.toNat) s = .placed a →
    let total := 20 + d.optLen.toNat + 8 + d.dataLen.toNat
    let ip := fun (h : Half) =>
      [0x40 + BitVec.ofNat 8 ((20 + d.optLen.toNat) / 4)] ++ [d.tos] ++ be16 (BitVec.ofNat 16 total) ++ be16 d.ipId
        ++ be16 (if d.df then 0x4000 else 0x0000) ++ [d.ttl] ++ [0x01] ++ be16 h ++ be32 d.src ++ be32 d.dst ++ opts
    let icmp := fun (c : Half) => [d.icmpType] ++ [d.icmpCode] ++ be16 c ++ be16 d.id ++ be16 d.seq ++ data
    let c := cksum (icmp 0)
    ∃ t, exec (.build4 d) s = .next t ∧
      BuiltAt a (ip (cksum (ip 0)) ++ icmp (if d.badsum then Config.badsum c else c)) s t ∧
      t.response = some { status := .ok, csum := 0, buf := a, len := BitVec.ofNat 32 total }

/-- `BUILD6.ECHO` (R120, R121, R124, R125, R127, R132): the IPv6 header, the ICMP header and the echo message, the checksum by the
pseudo-header algorithm over the ICMP region with its field zero. -/
def Obligations.Build6EchoResult : Prop :=
  ∀ (d : Build6EchoOp) (s : State) (data : List Byte) (a : Word),
    d.dataLen.toNat ≤ Config.echoDataMax → opbuf s d.dataPtr d.dataLen.toNat = .ok data →
    allocAnswer (48 + d.dataLen.toNat) s = .placed a →
    let plen := 8 + d.dataLen.toNat
    let ip6 := be32 (6#4 ++ d.head.trafficClass ++ d.head.flowLabel) ++ be16 (BitVec.ofNat 16 plen) ++ [58]
      ++ [d.head.hopLimit] ++ be128 d.head.src ++ be128 d.head.dst
    let icmp := fun (c : Half) => [d.head.icmpType] ++ [d.head.icmpCode] ++ be16 c ++ (be16 d.id ++ be16 d.seq ++ data)
    let c := cksum (be128 d.head.src ++ be128 d.head.dst ++ be32 (BitVec.ofNat 32 plen) ++ [0, 0, 0] ++ [58] ++ icmp 0)
    ∃ t, exec (.build6Echo d) s = .next t ∧
      BuiltAt a (ip6 ++ icmp (if d.head.badsum then Config.badsum c else c)) s t ∧
      t.response = some { status := .ok, csum := 0, buf := a, len := BitVec.ofNat 32 (48 + d.dataLen.toNat) }

/-- `BUILD6.ND` (R120, R122, R124, R126, R127, R132): the IPv6 header, the ICMP header and the neighbor-discovery message, always 72
bytes; no operand puts it outside the contract. -/
def Obligations.Build6NdResult : Prop :=
  ∀ (d : Build6NdOp) (s : State) (a : Word), allocAnswer 72 s = .placed a →
    let ip6 := be32 (6#4 ++ d.head.trafficClass ++ d.head.flowLabel) ++ be16 32 ++ [58]
      ++ [d.head.hopLimit] ++ be128 d.head.src ++ be128 d.head.dst
    let icmp := fun (c : Half) => [d.head.icmpType] ++ [d.head.icmpCode] ++ be16 c
      ++ (be32 d.flags ++ be128 d.target ++ [d.optType] ++ [d.optLen] ++ be48 d.lladdr)
    let c := cksum (be128 d.head.src ++ be128 d.head.dst ++ be32 32 ++ [0, 0, 0] ++ [58] ++ icmp 0)
    ∃ t, exec (.build6Nd d) s = .next t ∧
      BuiltAt a (ip6 ++ icmp (if d.head.badsum then Config.badsum c else c)) s t ∧
      t.response = some { status := .ok, csum := 0, buf := a, len := 72 }

/-- Allocation failure (R161, R109, R93, R130): in contract, when the allocator answers `NULL`, the command answers `ST_ALLOC_FAIL`;
no buffer is live that was not, no byte of `MEM` has changed, nothing was transmitted. -/
def Obligations.AllocationFailure : Prop :=
  ∀ (i : Instr) (s : State) (n : Nat), request i = some n → InContract i s → allocAnswer n s = .null →
    ∃ t, exec i s = .next t ∧ Delivered { status := .allocFail, csum := 0, buf := 0, len := 0 } t ∧ EnvKept s t ∧
      t.host = s.host ∧ t.allocs = s.allocs.tail ∧ t.txs = s.txs

/-- While the allocator has not answered, the command waits and nothing has changed (R191). -/
def Obligations.SilentAllocatorWaits : Prop :=
  ∀ (i : Instr) (s : State) (n : Nat), request i = some n → InContract i s → allocAnswer n s = .silent →
    ∃ t, exec i s = .next t ∧ StillBusy s t ∧ t.owned = s.owned ∧ t.sending = s.sending ∧ EnvKept s t ∧ AskedAlloc s t

/-- Where a buffer is placed (R38): a successful `alloc(n)` is nonzero, does not wrap and is disjoint from every populated address. -/
def Obligations.FreshPlacement : Prop :=
  ∀ (n : Nat) (s : State) (a : Word), allocAnswer n s = .placed a →
    a ≠ 0 ∧ a.toNat + n ≤ 2 ^ 32 ∧ ∀ x, a.toNat ≤ x → x < a.toNat + n → s.mem.get? x = none

/-- The block changes `MEM` only inside buffers it allocates and releases no buffer but its own (R19, R30, R32): every populated address
reads as before, every live buffer stays live. -/
def Obligations.PopulatedMemoryKept : Prop :=
  ∀ (i : Instr) (s t : State), LiveInv s → exec i s = .next t →
    (∀ x, (s.mem.get? x).isSome = true → t.mem.get? x = s.mem.get? x) ∧ ∀ b ∈ s.live, b ∈ t.live

/-- Bad-checksum difference of `BUILD4` (R111): two commands equal but for `BADSUM` give buffers of one length, equal at every
offset but `hlen + 2` and `hlen + 3`, different in one of those. -/
def Obligations.Build4BadsumDiffers : Prop :=
  ∀ (d : Build4Op) (s : State) (a : Word), InContract (.build4 d) s →
    allocAnswer (28 + d.optLen.toNat + d.dataLen.toNat) s = .placed a →
    ∃ t u p q, exec (.build4 { d with badsum := false }) s = .next t ∧ exec (.build4 { d with badsum := true }) s = .next u ∧
      t.mem.read a.toNat (28 + d.optLen.toNat + d.dataLen.toNat) = some p ∧
      u.mem.read a.toNat (28 + d.optLen.toNat + d.dataLen.toNat) = some q ∧
      (∀ k, k ≠ 20 + d.optLen.toNat + 2 → k ≠ 20 + d.optLen.toNat + 3 → p[k]? = q[k]?) ∧
      (p[20 + d.optLen.toNat + 2]? ≠ q[20 + d.optLen.toNat + 2]? ∨ p[20 + d.optLen.toNat + 3]? ≠ q[20 + d.optLen.toNat + 3]?)

/-- Round trip of `BUILD4` (R112): as built with `BADSUM = 0`, the checksum over the ICMP region and over the header is 0, and over
the region with its field zeroed it is the value written there. -/
def Obligations.Build4RoundTrip : Prop :=
  ∀ (d : Build4Op) (s : State) (a : Word), d.badsum = false → InContract (.build4 d) s →
    allocAnswer (28 + d.optLen.toNat + d.dataLen.toNat) s = .placed a →
    ∃ t p, exec (.build4 d) s = .next t ∧ t.mem.read a.toNat (28 + d.optLen.toNat + d.dataLen.toNat) = some p ∧
      cksum (p.drop (20 + d.optLen.toNat)) = 0 ∧ cksum (p.take (20 + d.optLen.toNat)) = 0 ∧
      be16 (cksum ((p.drop (20 + d.optLen.toNat)).take 2 ++ [0, 0] ++ p.drop (20 + d.optLen.toNat + 4))) =
        (p.drop (20 + d.optLen.toNat + 2)).take 2

/-- `BADSUM` of version 6 (R128, R129): every byte but the two of the checksum field is as with `BADSUM = 0`, and the field
differs; no byte of the IPv6 header depends on it. -/
def Obligations.Build6BadsumDiffers : Prop :=
  ∀ (h : Build6Head) (msg : List Byte),
    let p := packet6 { h with badsum := false } msg
    let q := packet6 { h with badsum := true } msg
    p.length = q.length ∧ (∀ k, k ≠ 42 → k ≠ 43 → p[k]? = q[k]?) ∧ (p[42]? ≠ q[42]? ∨ p[43]? ≠ q[43]?)

/-- A version 6 packet built with `BADSUM = 0` verifies by the pseudo-header algorithm over its ICMP region (R75, R127), the region's
length as `upper_len` and 58 as next header. -/
def Obligations.Build6Verifies : Prop :=
  ∀ (h : Build6Head) (msg : List Byte), h.badsum = false →
    pcsum6 h.src h.dst (BitVec.ofNat 32 (4 + msg.length)) 58 ((packet6 h msg).drop 40) = 0

/-- `BADSUM(c) != c` for every `c` (R106). -/
def Obligations.BadsumLaw : Prop :=
  ∀ c : Half, Config.badsum c ≠ c

/-- The echo data limit: at least the default 28, at most 65527, where the payload length still holds 16 bits (R131). -/
def Obligations.EchoLimitRange : Prop :=
  28 ≤ Config.echoDataMax ∧ Config.echoDataMax ≤ 65527

/-! ## SEND4 -/

/-- `SEND4` past the gate with an answer (R140, R141, R142, R145, R146, R162): the packet of the BUILD4 record with the drawn values is
handed over once, the attempt recorded with its answer, the temporary buffer gone, `ST_OK` or `ST_TX_FAIL`. -/
def Obligations.Send4Answered : Prop :=
  ∀ (d : Send4Op) (s : State) (opts data : List Byte) (a : Word) (ok : Bool), s.mem.wf → LiveInv s →
    d.dataLen.toNat ≤ 1500 → d.optLen.toNat % 4 = 0 → d.optLen.toNat ≤ 40 →
    opbuf s d.optPtr d.optLen.toNat = .ok opts → opbuf s d.dataPtr d.dataLen.toNat = .ok data →
    allocAnswer (28 + d.optLen.toNat + d.dataLen.toNat) s = .placed a →
    28 + d.optLen.toNat + d.dataLen.toNat ≤ d.mtu.toNat →
    nextTx (popAlloc (popDraw s)) = .answered ok →
    let w := nextDraw s
    let pkt := packet4 { badsum := d.badsum, df := d.df, src := d.src, dst := d.dst, ttl := d.ttl, tos := w.tos, ipId := w.ipId,
                         id := w.icmpId, seq := d.seq, icmpType := d.icmpType, icmpCode := d.icmpCode, optPtr := d.optPtr,
                         optLen := d.optLen, dataPtr := d.dataPtr, dataLen := d.dataLen } opts data
    ∃ t, exec (.send4 d) s = .next t ∧
      Delivered { status := if ok then .ok else .txFail, csum := 0, buf := 0, len := 0 } t ∧
      t.history = s.history ++ [{ call := { link := d.link, fd := d.fd, pkt := pkt }, answer := ok }] ∧
      t.mem = s.mem ∧ t.live = s.live ∧ t.host = s.host ∧ t.allocs = s.allocs.tail ∧ t.txs = s.txs.tail ∧
      t.draws = s.draws.tail

/-- The MTU gate (R142, R163): a packet longer than `D.MTU` is not handed over; the buffer is freed, `ST_MTU_EXCEEDED` is answered, no
attempt is in the history. -/
def Obligations.Send4MtuExceeded : Prop :=
  ∀ (d : Send4Op) (s : State) (a : Word), s.mem.wf → LiveInv s → InContract (.send4 d) s →
    allocAnswer (28 + d.optLen.toNat + d.dataLen.toNat) s = .placed a →
    d.mtu.toNat < 28 + d.optLen.toNat + d.dataLen.toNat →
    ∃ t, exec (.send4 d) s = .next t ∧ Delivered { status := .mtuExceeded, csum := 0, buf := 0, len := 0 } t ∧ EnvKept s t ∧
      t.host = s.host ∧ t.allocs = s.allocs.tail ∧ t.txs = s.txs ∧ t.draws = s.draws.tail

/-- The send is blocking (R148): while the transmitter has not answered, the command has not responded; the packet of the BUILD4 record
with the drawn values is handed over whole (R140, R141, R147), and the block owns the buffer that holds it. -/
def Obligations.Send4Waits : Prop :=
  ∀ (d : Send4Op) (s : State) (opts data : List Byte) (a : Word),
    d.dataLen.toNat ≤ 1500 → d.optLen.toNat % 4 = 0 → d.optLen.toNat ≤ 40 →
    opbuf s d.optPtr d.optLen.toNat = .ok opts → opbuf s d.dataPtr d.dataLen.toNat = .ok data →
    allocAnswer (28 + d.optLen.toNat + d.dataLen.toNat) s = .placed a →
    28 + d.optLen.toNat + d.dataLen.toNat ≤ d.mtu.toNat → nextTx (popAlloc (popDraw s)) = .silent →
    let w := nextDraw s
    let pkt := packet4 { badsum := d.badsum, df := d.df, src := d.src, dst := d.dst, ttl := d.ttl, tos := w.tos, ipId := w.ipId,
                         id := w.icmpId, seq := d.seq, icmpType := d.icmpType, icmpCode := d.icmpCode, optPtr := d.optPtr,
                         optLen := d.optLen, dataPtr := d.dataPtr, dataLen := d.dataLen } opts data
    ∃ t, exec (.send4 d) s = .next t ∧ StillBusy s t ∧ t.history = s.history ∧
      t.sending = some { link := d.link, fd := d.fd, pkt := pkt } ∧
      t.owned = some { addr := a, len := 28 + d.optLen.toNat + d.dataLen.toNat } ∧
      t.mem.read a.toNat (28 + d.optLen.toNat + d.dataLen.toNat) = some pkt ∧
      ∀ x, x < a.toNat ∨ a.toNat + (28 + d.optLen.toNat + d.dataLen.toNat) ≤ x → t.mem.get? x = s.mem.get? x

/-- A send in progress (R148, R145, R146): a silent transmitter leaves the block waiting; an answer ends the command with the attempt
recorded and the owned buffer released. -/
def Obligations.SendInProgress : Prop :=
  ∀ (s : State) (c : TxCall) (b : Buffer), s.phase = .busy → HostWaits s → s.sending = some c → s.owned = some b →
    (nextTx s = .silent → ∃ t, step s = .next t ∧ StillBusy s t ∧ t.sending = some c ∧ t.owned = some b ∧ EnvKept s t) ∧
    (∀ ok, nextTx s = .answered ok → ∃ t, step s = .next t ∧
      Delivered { status := if ok then .ok else .txFail, csum := 0, buf := 0, len := 0 } t ∧
      t.history = s.history ++ [{ call := c, answer := ok }] ∧
      (∀ x, b.addr.toNat ≤ x → x < b.addr.toNat + b.len → t.mem.get? x = none) ∧
      (∀ x, x < b.addr.toNat ∨ b.addr.toNat + b.len ≤ x → t.mem.get? x = s.mem.get? x) ∧
      ∀ x, x ∈ t.live ↔ x ∈ s.live ∧ x.addr ≠ b.addr)

/-- What STATUS says of the transmission (R145): `ST_OK`, exactly one attempt, answered true; `ST_TX_FAIL`, exactly one, answered
false; `ST_ALLOC_FAIL` and `ST_MTU_EXCEEDED`, none; no other status; the response carries no buffer (R146). -/
def Obligations.Send4StatusTellsAttempt : Prop :=
  ∀ (d : Send4Op) (s t : State) (r : Response), s.response = none → exec (.send4 d) s = .next t → t.response = some r →
    r.csum = 0 ∧ r.buf = 0 ∧ r.len = 0 ∧
    ((r.status = .ok ∧ ∃ c, t.history = s.history ++ [{ call := c, answer := true }]) ∨
     (r.status = .txFail ∧ ∃ c, t.history = s.history ++ [{ call := c, answer := false }]) ∨
     ((r.status = .allocFail ∨ r.status = .mtuExceeded) ∧ t.history = s.history))

/-! ## The whole machine -/

/-- Only `SEND4` transmits, and at most once per command (R145, R173). -/
def Obligations.OnlySend4Transmits : Prop :=
  ∀ (i : Instr) (s t : State), exec i s = .next t →
    (t.history = s.history ∨ ∃ r, t.history = s.history ++ [r]) ∧
    ((∀ d, i ≠ .send4 d) → t.history = s.history ∧ (t.sending = none ∨ t.sending = s.sending))

/-- No command moves the host's part: what the host will do is the host's (R12, R190). -/
def Obligations.HostMovesKept : Prop :=
  ∀ (i : Instr) (s t : State), exec i s = .next t → t.host = s.host ∧ t.meanwhile = s.meanwhile

/-- Response fields that do not apply are zero (R15): for a failure all three, for a checksum operation `BUF` and `LEN`, for a builder
`CSUM`. -/
def Obligations.ResponseFieldsZero : Prop :=
  ∀ (i : Instr) (s t : State) (r : Response), s.response = none → exec i s = .next t → t.response = some r →
    (r.status ≠ .ok → r.csum = 0 ∧ r.buf = 0 ∧ r.len = 0) ∧ (request i = none → r.buf = 0 ∧ r.len = 0) ∧
    (request i ≠ none → r.csum = 0) ∧ t.phase = .idle ∧ t.captured = none

/-- No state across operations (R5): two states alike in `MEM` and in what the environment will answer give the same command the same
outcome: the same response, the same `MEM`, the same new history entries, whatever commands came before. -/
def Obligations.NoStateAcrossCommands : Prop :=
  ∀ (i : Instr) (s s' t : State), s.mem = s'.mem → s.allocs = s'.allocs → s.txs = s'.txs → s.draws = s'.draws →
    s.ticks = s'.ticks → s.response = none → s'.response = none → exec i s = .next t →
    ∃ t' new, exec i s' = .next t' ∧ t'.response = t.response ∧ t'.mem = t.mem ∧
      t.history = s.history ++ new ∧ t'.history = s'.history ++ new
end

