-- ==== Sys2Proof/Laws/Bytes.lean ====
section
/-! SUPPORT. The lengths of every byte sequence the block assembles (R77, R90, R100 to R102, R120 to R124). -/

namespace Sys2Proof.Machine

@[simp] theorem be16_length (v : Half) : (be16 v).length = 2 := rfl
@[simp] theorem be32_length (v : Word) : (be32 v).length = 4 := rfl
@[simp] theorem be48_length (v : Mac) : (be48 v).length = 6 := rfl
@[simp] theorem be128_length (v : Ip6) : (be128 v).length = 16 := rfl

@[simp] theorem ph6_length (src dst : Ip6) (n : Word) (nh : Byte) : (ph6 src dst n nh).length = 40 := rfl

@[simp] theorem needfragBody_length (mtu : Half) (orig : List Byte) :
    (needfragBody mtu orig).length = 4 + orig.length := by
  simp [needfragBody]; omega

@[simp] theorem ip4Header_length (d : Build4Op) (opts : List Byte) (sum : Half) :
    (ip4Header d opts sum).length = 20 + opts.length := by
  simp [ip4Header]; omega

@[simp] theorem icmp4Region_length (d : Build4Op) (data : List Byte) (sum : Half) :
    (icmp4Region d data sum).length = 8 + data.length := by
  simp [icmp4Region]; omega

@[simp] theorem packet4_length (d : Build4Op) (opts data : List Byte) :
    (packet4 d opts data).length = 20 + opts.length + 8 + data.length := by
  simp [packet4]; omega

@[simp] theorem ip6Header_length (h : Build6Head) (plen : Nat) : (ip6Header h plen).length = 40 := rfl

@[simp] theorem icmp6Region_length (h : Build6Head) (msg : List Byte) (sum : Half) :
    (icmp6Region h msg sum).length = 4 + msg.length := by
  simp [icmp6Region]; omega

@[simp] theorem packet6_length (h : Build6Head) (msg : List Byte) : (packet6 h msg).length = 44 + msg.length := by
  simp [packet6]; omega

@[simp] theorem echoMessage_length (d : Build6EchoOp) (data : List Byte) :
    (echoMessage d data).length = 4 + data.length := by
  simp [echoMessage]; omega

@[simp] theorem ndMessage_length (d : Build6NdOp) : (ndMessage d).length = 28 := rfl

end Sys2Proof.Machine
end

