-- ==== Sys2Proof/Laws/Fields.lean ====
section
/-! SUPPORT. Fields of descriptor words: what an extracted field of a packed word is, for each packing the encoder uses (R51 to
R60), and what a must-be-zero check says. -/

namespace Sys2Proof

/-! ## Any widths -/

/-- The low part of a packing. -/
theorem extract_low {m n : Nat} (x : BitVec m) (y : BitVec n) : (x ++ y).extractLsb' 0 n = y := by
  refine BitVec.eq_of_getLsbD_eq fun i hi => ?_
  simp [BitVec.getLsbD_append, hi]

/-- The high part of a packing, and the part above the lowest. -/
theorem extract_high {m n : Nat} (x : BitVec m) (y : BitVec n) : (x ++ y).extractLsb' n m = x := by
  refine BitVec.eq_of_getLsbD_eq fun i hi => ?_
  simp [BitVec.getLsbD_append, hi]

theorem extract_mid {l m n : Nat} (w : BitVec l) (x : BitVec m) (y : BitVec n) : (w ++ x ++ y).extractLsb' n m = x := by
  refine BitVec.eq_of_getLsbD_eq fun i hi => ?_
  simp [BitVec.getLsbD_append, hi]

theorem extract_high_of_three {l m n : Nat} (w : BitVec l) (x : BitVec m) (y : BitVec n) :
    (w ++ x ++ y).extractLsb' (m + n) l = w := by
  refine BitVec.eq_of_getLsbD_eq fun i hi => ?_
  simp only [BitVec.getLsbD_append, BitVec.getLsbD_extractLsb', hi, decide_true, Bool.true_and]
  rw [if_neg (by omega), if_neg (by omega)]
  congr 1; omega

theorem extract_high_of_four {k l m n : Nat} (v : BitVec k) (w : BitVec l) (x : BitVec m) (y : BitVec n) :
    (v ++ w ++ x ++ y).extractLsb' (l + m + n) k = v := by
  refine BitVec.eq_of_getLsbD_eq fun i hi => ?_
  simp only [BitVec.getLsbD_append, BitVec.getLsbD_extractLsb', hi, decide_true, Bool.true_and]
  rw [if_neg (by omega), if_neg (by omega), if_neg (by omega)]
  congr 1; omega

/-- Two adjacent parts of a value, put back together. -/
theorem extract_append_extract {m n : Nat} (x : BitVec (m + n)) :
    (x.extractLsb' n m ++ x.extractLsb' 0 n) = x := by
  refine BitVec.eq_of_getLsbD_eq fun i hi => ?_
  simp only [BitVec.getLsbD_append, BitVec.getLsbD_extractLsb']
  split
  · simp [*]
  · have e : n + (i - n) = i := by omega
    simp only [e, Bool.and_eq_right_iff_imp, decide_eq_true_eq]; omega

/-- A must-be-zero check says that every bit of the range is zero (R62). -/
theorem zeroBits_iff (w : Word) {hi lo : Nat} (hl : lo ≤ hi) :
    zeroBits w hi lo = true ↔ ∀ i, lo ≤ i → i ≤ hi → w.getLsbD i = false := by
  simp only [zeroBits, beq_iff_eq]
  constructor
  · intro h i h1 h2
    have := congrArg (fun v => BitVec.getLsbD v (i - lo)) h
    simp only [BitVec.getLsbD_extractLsb', BitVec.getLsbD_ushiftRight, BitVec.getLsbD_zero, Bool.and_eq_false_imp,
      decide_eq_true_eq, Nat.zero_add] at this
    have e : lo + (i - lo) = i := by omega
    rw [e] at this
    exact this (by omega)
  · intro h
    refine BitVec.eq_of_getLsbD_eq fun i hi' => ?_
    simp only [BitVec.getLsbD_extractLsb', BitVec.getLsbD_ushiftRight, BitVec.getLsbD_zero, Bool.and_eq_false_imp,
      decide_eq_true_eq, Nat.zero_add]
    exact fun _ => h _ (by omega) (by omega)

/-- The high zero part of a packing passes the check. -/
theorem zeroBits_high {m n : Nat} (y : BitVec n) (hm : 1 ≤ m) (h : m + n = 32) :
    zeroBits ((0#m ++ y).cast h) 31 n = true := by
  rw [zeroBits_iff _ (by omega)]
  intro i h1 h2
  simp only [BitVec.getLsbD_cast, BitVec.getLsbD_append, BitVec.getLsbD_zero]
  rw [if_neg (by omega)]

/-! ## The packings of the formats -/

theorem half_half_low (x y : Half) : (x ++ y : Word).extractLsb' 0 16 = y := extract_low x y
theorem half_half_high (x y : Half) : (x ++ y : Word).extractLsb' 16 16 = x := extract_high x y
theorem half_half_zero (y : Half) : zeroBits (0#16 ++ y : Word) 31 16 = true := zeroBits_high y (by omega) rfl
theorem byte_low (y : Byte) : (0#24 ++ y : Word).extractLsb' 0 8 = y := extract_low 0#24 y
theorem byte_zero (y : Byte) : zeroBits (0#24 ++ y : Word) 31 8 = true := zeroBits_high y (by omega) rfl
theorem byte_high (y : Byte) : (y ++ 0#24 : Word).extractLsb' 24 8 = y := extract_high y 0#24

theorem byte_high_zero (y : Byte) : zeroBits (y ++ 0#24 : Word) 23 0 = true := by
  have : (y ++ 0#24 : Word).extractLsb' 0 24 = 0#24 := extract_low y 0#24
  simpa [zeroBits] using this

theorem byte_byte_half_high (x y : Byte) (z : Half) : (x ++ y ++ z : Word).extractLsb' 24 8 = x := extract_high_of_three x y z
theorem byte_byte_half_mid (x y : Byte) (z : Half) : (x ++ y ++ z : Word).extractLsb' 16 8 = y := extract_mid x y z
theorem byte_byte_half_low (x y : Byte) (z : Half) : (x ++ y ++ z : Word).extractLsb' 0 16 = z := extract_low (x ++ y) z
theorem type_code_mid (x y : Byte) : (0#16 ++ x ++ y : Word).extractLsb' 8 8 = x := extract_mid 0#16 x y
theorem type_code_low (x y : Byte) : (0#16 ++ x ++ y : Word).extractLsb' 0 8 = y := extract_low (0#16 ++ x) y

theorem type_code_zero (x y : Byte) : zeroBits (0#16 ++ x ++ y : Word) 31 16 = true := by
  have : (0#16 ++ x ++ y : Word).extractLsb' 16 16 = 0#16 := extract_high_of_three 0#16 x y
  rw [zeroBits_iff _ (by omega)]
  intro i h1 h2
  have := congrArg (fun v => BitVec.getLsbD v (i - 16)) this
  simp only [BitVec.getLsbD_extractLsb', BitVec.getLsbD_zero, Bool.and_eq_false_imp, decide_eq_true_eq] at this
  have e : 16 + (i - 16) = i := by omega
  rw [e] at this
  exact this (by omega)

theorem class_label_mid (x : Byte) (y : BitVec 20) : (0#4 ++ x ++ y : Word).extractLsb' 20 8 = x := extract_mid 0#4 x y
theorem class_label_low (x : Byte) (y : BitVec 20) : (0#4 ++ x ++ y : Word).extractLsb' 0 20 = y := extract_low (0#4 ++ x) y

theorem class_label_zero (x : Byte) (y : BitVec 20) : zeroBits (0#4 ++ x ++ y : Word) 31 28 = true := by
  have : (0#4 ++ x ++ y : Word).extractLsb' 28 4 = 0#4 := extract_high_of_three 0#4 x y
  rw [zeroBits_iff _ (by omega)]
  intro i h1 h2
  have := congrArg (fun v => BitVec.getLsbD v (i - 28)) this
  simp only [BitVec.getLsbD_extractLsb', BitVec.getLsbD_zero, Bool.and_eq_false_imp, decide_eq_true_eq] at this
  have e : 28 + (i - 28) = i := by omega
  rw [e] at this
  exact this (by omega)

theorem hop_type_code_high (x y z : Byte) : (x ++ 0#8 ++ y ++ z : Word).extractLsb' 24 8 = x :=
  extract_high_of_four x 0#8 y z

theorem hop_type_code_mid (x y z : Byte) : (x ++ 0#8 ++ y ++ z : Word).extractLsb' 8 8 = y := extract_mid (x ++ 0#8) y z
theorem hop_type_code_low (x y z : Byte) : (x ++ 0#8 ++ y ++ z : Word).extractLsb' 0 8 = z := extract_low (x ++ 0#8 ++ y) z

theorem hop_type_code_zero (x y z : Byte) : zeroBits (x ++ 0#8 ++ y ++ z : Word) 23 16 = true := by
  have h1 : (x ++ 0#8 ++ y ++ z : Word).extractLsb' 16 16 = (x ++ 0#8 : BitVec 16) := extract_high_of_three (x ++ 0#8) y z
  have h2 : (x ++ 0#8 : BitVec 16).extractLsb' 0 8 = 0#8 := extract_low x 0#8
  rw [← h1] at h2
  rw [zeroBits_iff _ (by omega)]
  intro i h3 h4
  have := congrArg (fun v => BitVec.getLsbD v (i - 16)) h2
  simp only [BitVec.getLsbD_extractLsb', BitVec.getLsbD_zero, Bool.and_eq_false_imp, decide_eq_true_eq, Nat.zero_add] at this
  have e : 16 + (i - 16) = i := by omega
  rw [e] at this
  exact this (by omega) (by omega)

theorem zeroBits_zero (hi lo : Nat) : zeroBits 0#32 hi lo = true := by simp [zeroBits]

/-- A 128-bit operand split into words and joined again (R60). -/
theorem join_split (x : Ip6) :
    join128 (x.extractLsb' 96 32) (x.extractLsb' 64 32) (x.extractLsb' 32 32) (x.extractLsb' 0 32) = x := by
  have h1 : (x.extractLsb' 96 32 ++ x.extractLsb' 64 32 : BitVec 64) = x.extractLsb' 64 64 := by
    refine BitVec.eq_of_getLsbD_eq fun i hi => ?_
    rw [BitVec.getLsbD_append]
    simp only [BitVec.getLsbD_extractLsb', hi, decide_true, Bool.true_and]
    split
    · simp [*]
    · rw [show 96 + (i - 32) = 64 + i by omega, show decide (i - 32 < 32) = true by simpa using by omega, Bool.true_and]
  have h2 : (x.extractLsb' 64 64 ++ x.extractLsb' 32 32 : BitVec 96) = x.extractLsb' 32 96 := by
    refine BitVec.eq_of_getLsbD_eq fun i hi => ?_
    rw [BitVec.getLsbD_append]
    simp only [BitVec.getLsbD_extractLsb', hi, decide_true, Bool.true_and]
    split
    · simp [*]
    · rw [show 64 + (i - 32) = 32 + i by omega, show decide (i - 32 < 64) = true by simpa using by omega, Bool.true_and]
  show (x.extractLsb' 96 32 ++ x.extractLsb' 64 32 ++ x.extractLsb' 32 32 ++ x.extractLsb' 0 32 : BitVec 128) = x
  calc (x.extractLsb' 96 32 ++ x.extractLsb' 64 32 ++ x.extractLsb' 32 32 ++ x.extractLsb' 0 32 : BitVec 128)
      = (x.extractLsb' 64 64 ++ x.extractLsb' 32 32 ++ x.extractLsb' 0 32 : BitVec 128) := by
        exact congrArg (fun v : BitVec 64 => (v ++ x.extractLsb' 32 32 ++ x.extractLsb' 0 32 : BitVec 128)) h1
    _ = (x.extractLsb' 32 96 ++ x.extractLsb' 0 32 : BitVec 128) := by
        exact congrArg (fun v : BitVec 96 => (v ++ x.extractLsb' 0 32 : BitVec 128)) h2
    _ = x := extract_append_extract (m := 96) (n := 32) x

theorem lladdr_split (x : Mac) : (x.extractLsb' 32 16 ++ x.extractLsb' 0 32 : BitVec 48) = x :=
  extract_append_extract (m := 16) (n := 32) x

/-! ## The command word (R51) -/

theorem commandWord_op (op : Byte) (b d k : Bool) : (commandWord op b d k).toNat % 256 = op.toNat := by
  revert op; cases b <;> cases d <;> cases k <;> decide

theorem commandWord_badsum (op : Byte) (b d k : Bool) : (commandWord op b d k).getLsbD 8 = b := by
  revert op; cases b <;> cases d <;> cases k <;> decide

theorem commandWord_df (op : Byte) (b d k : Bool) : (commandWord op b d k).getLsbD 9 = d := by
  revert op; cases b <;> cases d <;> cases k <;> decide

theorem commandWord_kind (op : Byte) (b d k : Bool) : (commandWord op b d k).getLsbD 10 = k := by
  revert op; cases b <;> cases d <;> cases k <;> decide

theorem commandWord_zero_8 (op : Byte) : zeroBits (commandWord op false false false) 31 8 = true := by
  revert op; decide

theorem commandWord_zero_10 (op : Byte) (b d : Bool) : zeroBits (commandWord op b d false) 31 10 = true := by
  revert op; cases b <;> cases d <;> decide

theorem commandWord_zero_9 (op : Byte) (b k : Bool) : zeroBits (commandWord op b false k) 9 9 = true := by
  revert op; cases b <;> cases k <;> decide

theorem commandWord_zero_11 (op : Byte) (b d k : Bool) : zeroBits (commandWord op b d k) 31 11 = true := by
  revert op; cases b <;> cases d <;> cases k <;> decide

end Sys2Proof
end

