-- ==== Sys2Proof/Laws/Memory.lean ====
section
/-! SUPPORT. The laws of `MEM`: read after write, what a write and a release leave alone, the canonical form and that it
determines the memory (R30 to R32, R38, R40). -/

namespace Sys2Proof.Machine

/-! ## Reading one byte -/

theorem Memory.get?_set (m : Memory) (a x : Nat) (b : Byte) :
    (m.set a b).get? x = if x = a then some b else m.get? x := by
  induction m with
  | nil =>
    simp only [Memory.set, Memory.get?]
    by_cases h : x = a
    · simp [h]
    · simp [h, Ne.symm h]
  | cons c m ih =>
    obtain ⟨k, v⟩ := c
    simp only [Memory.set]
    split
    · by_cases h : x = a
      · simp [Memory.get?, h]
      · simp [Memory.get?, h, Ne.symm h]
    · split
      · subst a
        by_cases h : x = k
        · simp [Memory.get?, h]
        · simp [Memory.get?, h, Ne.symm h]
      · by_cases h : x = a
        · subst x
          have : k ≠ a := by omega
          simp only [Memory.get?, if_neg this, ih, if_true]
        · by_cases hk : k = x
          · simp [Memory.get?, hk, h]
          · simp [Memory.get?, hk, ih, h]

theorem Memory.get?_write (m : Memory) (a x : Nat) (bs : List Byte) :
    (m.write a bs).get? x = if a ≤ x ∧ x < a + bs.length then bs[x - a]? else m.get? x := by
  induction bs generalizing m a with
  | nil => simp [Memory.write]
  | cons b bs ih =>
    rw [Memory.write, ih, Memory.get?_set]
    by_cases h : x = a
    · subst x; simp
    · by_cases h2 : a ≤ x
      · have e : x - a = (x - (a + 1)) + 1 := by omega
        rw [e, List.getElem?_cons_succ, List.length_cons]
        by_cases h3 : x < a + 1 + bs.length
        · rw [if_pos (by omega), if_pos (by omega)]
        · rw [if_neg (by omega), if_neg h, if_neg (by omega)]
      · rw [if_neg (by omega), if_neg h, if_neg (by omega)]

theorem Memory.get?_drop (m : Memory) (a n x : Nat) :
    (m.drop a n).get? x = if a ≤ x ∧ x < a + n then none else m.get? x := by
  unfold Memory.drop
  induction m with
  | nil => simp [Memory.get?]
  | cons c m ih =>
    obtain ⟨k, v⟩ := c
    by_cases hk : k < a ∨ a + n ≤ k
    · rw [List.filter_cons_of_pos (by simpa using hk)]
      by_cases hx : k = x
      · subst hx; simp [Memory.get?]; omega
      · simp [Memory.get?, hx, ih]
    · rw [List.filter_cons_of_neg (by simpa using hk), ih]
      by_cases hx : k = x
      · subst hx; rw [if_pos (by omega), if_pos (by omega)]
      · simp [Memory.get?, hx]

theorem Memory.get?_eq_none_iff (m : Memory) (x : Nat) :
    m.get? x = none ↔ ∀ c ∈ m, c.1 ≠ x := by
  induction m with
  | nil => simp [Memory.get?]
  | cons c m ih =>
    obtain ⟨k, v⟩ := c
    by_cases h : k = x
    · simp [Memory.get?, h]
    · simp [Memory.get?, h, ih]

/-! ## Reading a range -/

theorem Memory.read_eq_some_iff (m : Memory) (a n : Nat) (bs : List Byte) :
    m.read a n = some bs ↔ bs.length = n ∧ ∀ i < n, m.get? (a + i) = bs[i]? := by
  induction n generalizing a bs with
  | zero =>
    simp only [Memory.read, Option.some.injEq]
    constructor
    · rintro rfl; simp
    · rintro ⟨h, -⟩; exact (List.length_eq_zero_iff.mp h).symm
  | succ n ih =>
    rw [Memory.read]
    constructor
    · intro h
      split at h
      · cases h
      · rename_i b hb
        obtain ⟨t, ht, rfl⟩ := Option.map_eq_some_iff.mp h
        obtain ⟨hl, hg⟩ := (ih _ _).mp ht
        refine ⟨by simp [hl], fun i hi => ?_⟩
        cases i with
        | zero => simpa using hb
        | succ i =>
          have := hg i (by omega)
          rw [List.getElem?_cons_succ, ← this]
          congr 1; omega
    · rintro ⟨hl, hg⟩
      cases bs with
      | nil => simp at hl
      | cons b t =>
        have h0 : m.get? a = some b := by simpa using hg 0 (by omega)
        have ht : m.read (a + 1) n = some t := by
          rw [ih]
          refine ⟨by simpa using hl, fun i hi => ?_⟩
          have := hg (i + 1) (by omega)
          rw [List.getElem?_cons_succ] at this
          rw [← this]; congr 1; omega
        rw [h0]; simp [ht]

theorem Memory.read_write (m : Memory) (a : Nat) (bs : List Byte) :
    (m.write a bs).read a bs.length = some bs := by
  rw [Memory.read_eq_some_iff]
  refine ⟨rfl, fun i hi => ?_⟩
  rw [Memory.get?_write, if_pos (by omega)]
  congr 1; omega

theorem Memory.read_length {m : Memory} {a n : Nat} {bs : List Byte} (h : m.read a n = some bs) :
    bs.length = n :=
  ((Memory.read_eq_some_iff ..).mp h).1

/-- A range reads exactly when every address of it is populated. -/
theorem Memory.read_isSome_iff (m : Memory) (a n : Nat) :
    (m.read a n).isSome = true ↔ ∀ x, a ≤ x → x < a + n → (m.get? x).isSome = true := by
  induction n generalizing a with
  | zero => simp only [Memory.read, Option.isSome_some, true_iff]; intro x h1 h2; omega
  | succ n ih =>
    rw [Memory.read]
    constructor
    · intro h x h1 h2
      split at h
      · simp at h
      · rename_i b hb
        by_cases hx : x = a
        · rw [hx, hb]; rfl
        · exact (ih (a + 1)).mp (by simpa using h) x (by omega) (by omega)
    · intro h
      have h0 := h a (by omega) (by omega)
      obtain ⟨b, hb⟩ := Option.isSome_iff_exists.mp h0
      rw [hb]
      simpa using (ih (a + 1)).mpr (fun x h1 h2 => h x (by omega) (by omega))

theorem Memory.read_congr {m m' : Memory} {a n : Nat} (h : ∀ x, a ≤ x → x < a + n → m.get? x = m'.get? x) :
    m.read a n = m'.read a n := by
  induction n generalizing a with
  | zero => rfl
  | succ n ih =>
    rw [Memory.read, Memory.read, h a (by omega) (by omega), ih (fun x h1 h2 => h x (by omega) (by omega))]

theorem Memory.clear_iff (m : Memory) (a n : Nat) :
    m.clear a n = true ↔ ∀ x, a ≤ x → x < a + n → m.get? x = none := by
  simp only [Memory.clear, List.all_eq_true, Bool.or_eq_true, decide_eq_true_eq, Memory.get?_eq_none_iff]
  constructor
  · intro h x h1 h2 c hc e; have := h c hc; omega
  · intro h c hc
    by_contra hn
    exact h c.1 (by omega) (by omega) c hc rfl

/-! ## The canonical form -/

theorem Memory.mem_set {m : Memory} {a : Nat} {b : Byte} {c : Host.Cell} (h : c ∈ m.set a b) :
    c = (a, b) ∨ c ∈ m := by
  induction m with
  | nil => simpa [Memory.set] using h
  | cons d m ih =>
    obtain ⟨k, v⟩ := d
    simp only [Memory.set] at h
    split at h
    · simpa using h
    · split at h
      · rcases List.mem_cons.mp h with h | h
        · exact .inl h
        · exact .inr (List.mem_cons_of_mem _ h)
      · rcases List.mem_cons.mp h with h | h
        · exact .inr (h ▸ List.mem_cons_self)
        · exact (ih h).imp_right (List.mem_cons_of_mem _)

theorem Memory.wf_nil : Memory.wf [] := by simp [Memory.wf]

theorem Memory.wf_set {m : Memory} (h : m.wf) {a : Nat} (ha : a < 2 ^ 32) (b : Byte) : (m.set a b).wf := by
  obtain ⟨hs, hb⟩ := h
  refine ⟨?_, fun c hc => ?_⟩
  · clear hb
    induction m with
    | nil => simp [Memory.set]
    | cons d m ih =>
      obtain ⟨k, v⟩ := d
      obtain ⟨h1, h2⟩ := List.pairwise_cons.mp hs
      simp only [Memory.set]
      split
      · refine List.pairwise_cons.mpr ⟨fun c hc => ?_, hs⟩
        rcases List.mem_cons.mp hc with rfl | hc
        · assumption
        · have := h1 c hc; simp only at *; omega
      · split
        · subst a; exact List.pairwise_cons.mpr ⟨fun c hc => h1 c hc, h2⟩
        · refine List.pairwise_cons.mpr ⟨fun c hc => ?_, ih h2⟩
          rcases Memory.mem_set hc with rfl | hc
          · simp only; omega
          · exact h1 c hc
  · rcases Memory.mem_set hc with rfl | hc
    · exact ha
    · exact hb c hc

theorem Memory.wf_write {m : Memory} (h : m.wf) {a : Nat} (bs : List Byte) (ha : a + bs.length ≤ 2 ^ 32) :
    (m.write a bs).wf := by
  induction bs generalizing m a with
  | nil => exact h
  | cons b bs ih =>
    simp only [List.length_cons] at ha
    exact ih (Memory.wf_set h (by omega) b) (by omega)

theorem Memory.wf_drop {m : Memory} (h : m.wf) (a n : Nat) : (m.drop a n).wf :=
  ⟨h.1.filter _, fun c hc => h.2 c (List.mem_filter.mp hc).1⟩

/-- Two memories in canonical form that read alike are equal. -/
theorem Memory.eq_of_get? {m m' : Memory} (h : m.wf) (h' : m'.wf) (e : ∀ x, m.get? x = m'.get? x) : m = m' := by
  induction m generalizing m' with
  | nil =>
    cases m' with
    | nil => rfl
    | cons c m' => obtain ⟨k, v⟩ := c; have := e k; simp [Memory.get?] at this
  | cons c m ih =>
    obtain ⟨k, v⟩ := c
    cases m' with
    | nil => have := e k; simp [Memory.get?] at this
    | cons c' m' =>
      obtain ⟨k', v'⟩ := c'
      obtain ⟨p1, p2⟩ := List.pairwise_cons.mp h.1
      obtain ⟨q1, q2⟩ := List.pairwise_cons.mp h'.1
      have low : ∀ x < k, Memory.get? ((k, v) :: m) x = none := fun x hx =>
        (Memory.get?_eq_none_iff _ _).mpr (fun d hd => by
          rcases List.mem_cons.mp hd with rfl | hd
          · simp only; omega
          · have := p1 d hd; simp only at this; omega)
      have low' : ∀ x < k', Memory.get? ((k', v') :: m') x = none := fun x hx =>
        (Memory.get?_eq_none_iff _ _).mpr (fun d hd => by
          rcases List.mem_cons.mp hd with rfl | hd
          · simp only; omega
          · have := q1 d hd; simp only at this; omega)
      have hk : k = k' := by
        rcases Nat.lt_trichotomy k k' with hl | hl | hl
        · have := e k; rw [low' k hl] at this; simp [Memory.get?] at this
        · exact hl
        · have := e k'; rw [low k' hl] at this; simp [Memory.get?] at this
      subst hk
      have hv : v = v' := by have := e k; simpa [Memory.get?] using this
      subst hv
      congr 1
      refine ih ⟨p2, fun c hc => h.2 c (List.mem_cons_of_mem _ hc)⟩
        ⟨q2, fun c hc => h'.2 c (List.mem_cons_of_mem _ hc)⟩ (fun x => ?_)
      by_cases hx : k = x
      · subst hx
        have n1 : Memory.get? m k = none := (Memory.get?_eq_none_iff _ _).mpr (fun d hd => by
          have := p1 d hd; simp only at this; omega)
        have n2 : Memory.get? m' k = none := (Memory.get?_eq_none_iff _ _).mpr (fun d hd => by
          have := q1 d hd; simp only at this; omega)
        rw [n1, n2]
      · have := e x; simpa [Memory.get?, hx] using this

/-- Writing into a fresh range and releasing it gives the memory back (R38, R40). -/
theorem Memory.drop_write {m : Memory} (h : m.wf) {a : Nat} (bs : List Byte) (ha : a + bs.length ≤ 2 ^ 32)
    (hc : m.clear a bs.length = true) : (m.write a bs).drop a bs.length = m := by
  refine Memory.eq_of_get? (Memory.wf_drop (Memory.wf_write h bs ha) _ _) h (fun x => ?_)
  rw [Memory.get?_drop, Memory.get?_write]
  split
  · exact ((Memory.clear_iff ..).mp hc x (by omega) (by omega)).symm
  · rfl

/-- A later write over the same range hides an earlier one: what a fresh buffer held before is not seen (R39). -/
theorem Memory.write_write {m : Memory} (h : m.wf) {a : Nat} (xs bs : List Byte) (hl : xs.length = bs.length)
    (ha : a + bs.length ≤ 2 ^ 32) : (m.write a xs).write a bs = m.write a bs := by
  refine Memory.eq_of_get? (Memory.wf_write (Memory.wf_write h xs (by omega)) bs ha) (Memory.wf_write h bs ha) (fun x => ?_)
  rw [Memory.get?_write, Memory.get?_write, Memory.get?_write]
  split <;> rename_i hx
  · rfl
  · rw [if_neg (by omega)]

end Sys2Proof.Machine
end

