-- ==== Sys2Proof/Laws/State.lean ====
section
/-! SUPPORT. What each named update of the state leaves in each field: one lemma per update and field, true by unfolding. -/

namespace Sys2Proof.Machine

variable (s : State)

/-! `respond` -/

@[simp] theorem respond_phase (r : Response) : (respond r s).phase = .idle := rfl
@[simp] theorem respond_captured (r : Response) : (respond r s).captured = none := rfl
@[simp] theorem respond_response (r : Response) : (respond r s).response = some r := rfl
@[simp] theorem respond_owned (r : Response) : (respond r s).owned = none := rfl
@[simp] theorem respond_sending (r : Response) : (respond r s).sending = none := rfl
@[simp] theorem respond_mem (r : Response) : (respond r s).mem = s.mem := rfl
@[simp] theorem respond_live (r : Response) : (respond r s).live = s.live := rfl
@[simp] theorem respond_history (r : Response) : (respond r s).history = s.history := rfl
@[simp] theorem respond_host (r : Response) : (respond r s).host = s.host := rfl
@[simp] theorem respond_meanwhile (r : Response) : (respond r s).meanwhile = s.meanwhile := rfl
@[simp] theorem respond_allocs (r : Response) : (respond r s).allocs = s.allocs := rfl
@[simp] theorem respond_txs (r : Response) : (respond r s).txs = s.txs := rfl
@[simp] theorem respond_draws (r : Response) : (respond r s).draws = s.draws := rfl
@[simp] theorem respond_ticks (r : Response) : (respond r s).ticks = s.ticks := rfl

/-! `raise` -/

@[simp] theorem raise_phase (st : Status) : (raise st s).phase = .idle := rfl
@[simp] theorem raise_captured (st : Status) : (raise st s).captured = none := rfl
@[simp] theorem raise_response (st : Status) : (raise st s).response = some { status := st, csum := 0, buf := 0, len := 0 } := rfl
@[simp] theorem raise_owned (st : Status) : (raise st s).owned = none := rfl
@[simp] theorem raise_sending (st : Status) : (raise st s).sending = none := rfl
@[simp] theorem raise_mem (st : Status) : (raise st s).mem = s.mem := rfl
@[simp] theorem raise_live (st : Status) : (raise st s).live = s.live := rfl
@[simp] theorem raise_history (st : Status) : (raise st s).history = s.history := rfl
@[simp] theorem raise_host (st : Status) : (raise st s).host = s.host := rfl
@[simp] theorem raise_meanwhile (st : Status) : (raise st s).meanwhile = s.meanwhile := rfl
@[simp] theorem raise_allocs (st : Status) : (raise st s).allocs = s.allocs := rfl
@[simp] theorem raise_txs (st : Status) : (raise st s).txs = s.txs := rfl
@[simp] theorem raise_draws (st : Status) : (raise st s).draws = s.draws := rfl
@[simp] theorem raise_ticks (st : Status) : (raise st s).ticks = s.ticks := rfl

/-! `respondSum` -/

@[simp] theorem respondSum_phase (c : Half) : (respondSum c s).phase = .idle := rfl
@[simp] theorem respondSum_captured (c : Half) : (respondSum c s).captured = none := rfl
@[simp] theorem respondSum_response (c : Half) : (respondSum c s).response = some { status := .ok, csum := c, buf := 0, len := 0 } := rfl
@[simp] theorem respondSum_owned (c : Half) : (respondSum c s).owned = none := rfl
@[simp] theorem respondSum_sending (c : Half) : (respondSum c s).sending = none := rfl
@[simp] theorem respondSum_mem (c : Half) : (respondSum c s).mem = s.mem := rfl
@[simp] theorem respondSum_live (c : Half) : (respondSum c s).live = s.live := rfl
@[simp] theorem respondSum_history (c : Half) : (respondSum c s).history = s.history := rfl
@[simp] theorem respondSum_host (c : Half) : (respondSum c s).host = s.host := rfl
@[simp] theorem respondSum_meanwhile (c : Half) : (respondSum c s).meanwhile = s.meanwhile := rfl
@[simp] theorem respondSum_allocs (c : Half) : (respondSum c s).allocs = s.allocs := rfl
@[simp] theorem respondSum_txs (c : Half) : (respondSum c s).txs = s.txs := rfl
@[simp] theorem respondSum_draws (c : Half) : (respondSum c s).draws = s.draws := rfl
@[simp] theorem respondSum_ticks (c : Half) : (respondSum c s).ticks = s.ticks := rfl

/-! `popAlloc` -/

@[simp] theorem popAlloc_phase : (popAlloc s).phase = s.phase := rfl
@[simp] theorem popAlloc_captured : (popAlloc s).captured = s.captured := rfl
@[simp] theorem popAlloc_response : (popAlloc s).response = s.response := rfl
@[simp] theorem popAlloc_owned : (popAlloc s).owned = s.owned := rfl
@[simp] theorem popAlloc_sending : (popAlloc s).sending = s.sending := rfl
@[simp] theorem popAlloc_mem : (popAlloc s).mem = s.mem := rfl
@[simp] theorem popAlloc_live : (popAlloc s).live = s.live := rfl
@[simp] theorem popAlloc_history : (popAlloc s).history = s.history := rfl
@[simp] theorem popAlloc_host : (popAlloc s).host = s.host := rfl
@[simp] theorem popAlloc_meanwhile : (popAlloc s).meanwhile = s.meanwhile := rfl
@[simp] theorem popAlloc_allocs : (popAlloc s).allocs = s.allocs.tail := rfl
@[simp] theorem popAlloc_txs : (popAlloc s).txs = s.txs := rfl
@[simp] theorem popAlloc_draws : (popAlloc s).draws = s.draws := rfl
@[simp] theorem popAlloc_ticks : (popAlloc s).ticks = s.ticks + 1 := rfl

/-! `popTx` -/

@[simp] theorem popTx_phase : (popTx s).phase = s.phase := rfl
@[simp] theorem popTx_captured : (popTx s).captured = s.captured := rfl
@[simp] theorem popTx_response : (popTx s).response = s.response := rfl
@[simp] theorem popTx_owned : (popTx s).owned = s.owned := rfl
@[simp] theorem popTx_sending : (popTx s).sending = s.sending := rfl
@[simp] theorem popTx_mem : (popTx s).mem = s.mem := rfl
@[simp] theorem popTx_live : (popTx s).live = s.live := rfl
@[simp] theorem popTx_history : (popTx s).history = s.history := rfl
@[simp] theorem popTx_host : (popTx s).host = s.host := rfl
@[simp] theorem popTx_meanwhile : (popTx s).meanwhile = s.meanwhile := rfl
@[simp] theorem popTx_allocs : (popTx s).allocs = s.allocs := rfl
@[simp] theorem popTx_txs : (popTx s).txs = s.txs.tail := rfl
@[simp] theorem popTx_draws : (popTx s).draws = s.draws := rfl
@[simp] theorem popTx_ticks : (popTx s).ticks = s.ticks + 1 := rfl

/-! `popDraw` -/

@[simp] theorem popDraw_phase : (popDraw s).phase = s.phase := rfl
@[simp] theorem popDraw_captured : (popDraw s).captured = s.captured := rfl
@[simp] theorem popDraw_response : (popDraw s).response = s.response := rfl
@[simp] theorem popDraw_owned : (popDraw s).owned = s.owned := rfl
@[simp] theorem popDraw_sending : (popDraw s).sending = s.sending := rfl
@[simp] theorem popDraw_mem : (popDraw s).mem = s.mem := rfl
@[simp] theorem popDraw_live : (popDraw s).live = s.live := rfl
@[simp] theorem popDraw_history : (popDraw s).history = s.history := rfl
@[simp] theorem popDraw_host : (popDraw s).host = s.host := rfl
@[simp] theorem popDraw_meanwhile : (popDraw s).meanwhile = s.meanwhile := rfl
@[simp] theorem popDraw_allocs : (popDraw s).allocs = s.allocs := rfl
@[simp] theorem popDraw_txs : (popDraw s).txs = s.txs := rfl
@[simp] theorem popDraw_draws : (popDraw s).draws = s.draws.tail := rfl
@[simp] theorem popDraw_ticks : (popDraw s).ticks = s.ticks + 1 := rfl

/-! `popHost` -/

@[simp] theorem popHost_phase : (popHost s).phase = s.phase := rfl
@[simp] theorem popHost_captured : (popHost s).captured = s.captured := rfl
@[simp] theorem popHost_response : (popHost s).response = s.response := rfl
@[simp] theorem popHost_owned : (popHost s).owned = s.owned := rfl
@[simp] theorem popHost_sending : (popHost s).sending = s.sending := rfl
@[simp] theorem popHost_mem : (popHost s).mem = s.mem := rfl
@[simp] theorem popHost_live : (popHost s).live = s.live := rfl
@[simp] theorem popHost_history : (popHost s).history = s.history := rfl
@[simp] theorem popHost_host : (popHost s).host = s.host.tail := rfl
@[simp] theorem popHost_meanwhile : (popHost s).meanwhile = s.meanwhile := rfl
@[simp] theorem popHost_allocs : (popHost s).allocs = s.allocs := rfl
@[simp] theorem popHost_txs : (popHost s).txs = s.txs := rfl
@[simp] theorem popHost_draws : (popHost s).draws = s.draws := rfl
@[simp] theorem popHost_ticks : (popHost s).ticks = s.ticks := rfl

/-! `grant` -/

@[simp] theorem grant_phase (a : Word) (n : Nat) : (grant a n s).phase = s.phase := rfl
@[simp] theorem grant_captured (a : Word) (n : Nat) : (grant a n s).captured = s.captured := rfl
@[simp] theorem grant_response (a : Word) (n : Nat) : (grant a n s).response = s.response := rfl
@[simp] theorem grant_owned (a : Word) (n : Nat) : (grant a n s).owned = some { addr := a, len := n } := rfl
@[simp] theorem grant_sending (a : Word) (n : Nat) : (grant a n s).sending = s.sending := rfl
@[simp] theorem grant_mem (a : Word) (n : Nat) : (grant a n s).mem = s.mem.write a.toNat (freshBytes s.ticks n) := rfl
@[simp] theorem grant_live (a : Word) (n : Nat) : (grant a n s).live = insertBuffer { addr := a, len := n } s.live := rfl
@[simp] theorem grant_history (a : Word) (n : Nat) : (grant a n s).history = s.history := rfl
@[simp] theorem grant_host (a : Word) (n : Nat) : (grant a n s).host = s.host := rfl
@[simp] theorem grant_meanwhile (a : Word) (n : Nat) : (grant a n s).meanwhile = s.meanwhile := rfl
@[simp] theorem grant_allocs (a : Word) (n : Nat) : (grant a n s).allocs = s.allocs := rfl
@[simp] theorem grant_txs (a : Word) (n : Nat) : (grant a n s).txs = s.txs := rfl
@[simp] theorem grant_draws (a : Word) (n : Nat) : (grant a n s).draws = s.draws := rfl
@[simp] theorem grant_ticks (a : Word) (n : Nat) : (grant a n s).ticks = s.ticks := rfl

/-! `memWrite` -/

@[simp] theorem memWrite_phase (a : Word) (v : List Byte) : (memWrite a v s).phase = s.phase := rfl
@[simp] theorem memWrite_captured (a : Word) (v : List Byte) : (memWrite a v s).captured = s.captured := rfl
@[simp] theorem memWrite_response (a : Word) (v : List Byte) : (memWrite a v s).response = s.response := rfl
@[simp] theorem memWrite_owned (a : Word) (v : List Byte) : (memWrite a v s).owned = s.owned := rfl
@[simp] theorem memWrite_sending (a : Word) (v : List Byte) : (memWrite a v s).sending = s.sending := rfl
@[simp] theorem memWrite_mem (a : Word) (v : List Byte) : (memWrite a v s).mem = s.mem.write a.toNat v := rfl
@[simp] theorem memWrite_live (a : Word) (v : List Byte) : (memWrite a v s).live = s.live := rfl
@[simp] theorem memWrite_history (a : Word) (v : List Byte) : (memWrite a v s).history = s.history := rfl
@[simp] theorem memWrite_host (a : Word) (v : List Byte) : (memWrite a v s).host = s.host := rfl
@[simp] theorem memWrite_meanwhile (a : Word) (v : List Byte) : (memWrite a v s).meanwhile = s.meanwhile := rfl
@[simp] theorem memWrite_allocs (a : Word) (v : List Byte) : (memWrite a v s).allocs = s.allocs := rfl
@[simp] theorem memWrite_txs (a : Word) (v : List Byte) : (memWrite a v s).txs = s.txs := rfl
@[simp] theorem memWrite_draws (a : Word) (v : List Byte) : (memWrite a v s).draws = s.draws := rfl
@[simp] theorem memWrite_ticks (a : Word) (v : List Byte) : (memWrite a v s).ticks = s.ticks := rfl

/-! `release` -/

@[simp] theorem release_phase (b : Buffer) : (release b s).phase = s.phase := rfl
@[simp] theorem release_captured (b : Buffer) : (release b s).captured = s.captured := rfl
@[simp] theorem release_response (b : Buffer) : (release b s).response = s.response := rfl
@[simp] theorem release_owned (b : Buffer) : (release b s).owned = s.owned := rfl
@[simp] theorem release_sending (b : Buffer) : (release b s).sending = s.sending := rfl
@[simp] theorem release_mem (b : Buffer) : (release b s).mem = s.mem.drop b.addr.toNat b.len := rfl
@[simp] theorem release_live (b : Buffer) : (release b s).live = s.live.filter (fun x => x.addr != b.addr) := rfl
@[simp] theorem release_history (b : Buffer) : (release b s).history = s.history := rfl
@[simp] theorem release_host (b : Buffer) : (release b s).host = s.host := rfl
@[simp] theorem release_meanwhile (b : Buffer) : (release b s).meanwhile = s.meanwhile := rfl
@[simp] theorem release_allocs (b : Buffer) : (release b s).allocs = s.allocs := rfl
@[simp] theorem release_txs (b : Buffer) : (release b s).txs = s.txs := rfl
@[simp] theorem release_draws (b : Buffer) : (release b s).draws = s.draws := rfl
@[simp] theorem release_ticks (b : Buffer) : (release b s).ticks = s.ticks := rfl

/-! `startTx` -/

@[simp] theorem startTx_phase (c : TxCall) : (startTx c s).phase = s.phase := rfl
@[simp] theorem startTx_captured (c : TxCall) : (startTx c s).captured = s.captured := rfl
@[simp] theorem startTx_response (c : TxCall) : (startTx c s).response = s.response := rfl
@[simp] theorem startTx_owned (c : TxCall) : (startTx c s).owned = s.owned := rfl
@[simp] theorem startTx_sending (c : TxCall) : (startTx c s).sending = some c := rfl
@[simp] theorem startTx_mem (c : TxCall) : (startTx c s).mem = s.mem := rfl
@[simp] theorem startTx_live (c : TxCall) : (startTx c s).live = s.live := rfl
@[simp] theorem startTx_history (c : TxCall) : (startTx c s).history = s.history := rfl
@[simp] theorem startTx_host (c : TxCall) : (startTx c s).host = s.host := rfl
@[simp] theorem startTx_meanwhile (c : TxCall) : (startTx c s).meanwhile = s.meanwhile := rfl
@[simp] theorem startTx_allocs (c : TxCall) : (startTx c s).allocs = s.allocs := rfl
@[simp] theorem startTx_txs (c : TxCall) : (startTx c s).txs = s.txs := rfl
@[simp] theorem startTx_draws (c : TxCall) : (startTx c s).draws = s.draws := rfl
@[simp] theorem startTx_ticks (c : TxCall) : (startTx c s).ticks = s.ticks := rfl

/-! `recordTx` -/

@[simp] theorem recordTx_phase (c : TxCall) (ok : Bool) : (recordTx c ok s).phase = s.phase := rfl
@[simp] theorem recordTx_captured (c : TxCall) (ok : Bool) : (recordTx c ok s).captured = s.captured := rfl
@[simp] theorem recordTx_response (c : TxCall) (ok : Bool) : (recordTx c ok s).response = s.response := rfl
@[simp] theorem recordTx_owned (c : TxCall) (ok : Bool) : (recordTx c ok s).owned = s.owned := rfl
@[simp] theorem recordTx_sending (c : TxCall) (ok : Bool) : (recordTx c ok s).sending = s.sending := rfl
@[simp] theorem recordTx_mem (c : TxCall) (ok : Bool) : (recordTx c ok s).mem = s.mem := rfl
@[simp] theorem recordTx_live (c : TxCall) (ok : Bool) : (recordTx c ok s).live = s.live := rfl
@[simp] theorem recordTx_history (c : TxCall) (ok : Bool) : (recordTx c ok s).history = s.history ++ [{ call := c, answer := ok }] := rfl
@[simp] theorem recordTx_host (c : TxCall) (ok : Bool) : (recordTx c ok s).host = s.host := rfl
@[simp] theorem recordTx_meanwhile (c : TxCall) (ok : Bool) : (recordTx c ok s).meanwhile = s.meanwhile := rfl
@[simp] theorem recordTx_allocs (c : TxCall) (ok : Bool) : (recordTx c ok s).allocs = s.allocs := rfl
@[simp] theorem recordTx_txs (c : TxCall) (ok : Bool) : (recordTx c ok s).txs = s.txs := rfl
@[simp] theorem recordTx_draws (c : TxCall) (ok : Bool) : (recordTx c ok s).draws = s.draws := rfl
@[simp] theorem recordTx_ticks (c : TxCall) (ok : Bool) : (recordTx c ok s).ticks = s.ticks := rfl

/-! `acceptCommand` -/

@[simp] theorem acceptCommand_phase (d : List Word) : (acceptCommand d s).phase = .busy := rfl
@[simp] theorem acceptCommand_captured (d : List Word) : (acceptCommand d s).captured = some d := rfl
@[simp] theorem acceptCommand_response (d : List Word) : (acceptCommand d s).response = none := rfl
@[simp] theorem acceptCommand_owned (d : List Word) : (acceptCommand d s).owned = s.owned := rfl
@[simp] theorem acceptCommand_sending (d : List Word) : (acceptCommand d s).sending = s.sending := rfl
@[simp] theorem acceptCommand_mem (d : List Word) : (acceptCommand d s).mem = s.mem := rfl
@[simp] theorem acceptCommand_live (d : List Word) : (acceptCommand d s).live = s.live := rfl
@[simp] theorem acceptCommand_history (d : List Word) : (acceptCommand d s).history = s.history := rfl
@[simp] theorem acceptCommand_host (d : List Word) : (acceptCommand d s).host = s.host := rfl
@[simp] theorem acceptCommand_meanwhile (d : List Word) : (acceptCommand d s).meanwhile = s.meanwhile := rfl
@[simp] theorem acceptCommand_allocs (d : List Word) : (acceptCommand d s).allocs = s.allocs := rfl
@[simp] theorem acceptCommand_txs (d : List Word) : (acceptCommand d s).txs = s.txs := rfl
@[simp] theorem acceptCommand_draws (d : List Word) : (acceptCommand d s).draws = s.draws := rfl
@[simp] theorem acceptCommand_ticks (d : List Word) : (acceptCommand d s).ticks = s.ticks := rfl

/-! `resetBlock` -/

@[simp] theorem resetBlock_phase : (resetBlock s).phase = .idle := rfl
@[simp] theorem resetBlock_captured : (resetBlock s).captured = none := rfl
@[simp] theorem resetBlock_response : (resetBlock s).response = none := rfl
@[simp] theorem resetBlock_owned : (resetBlock s).owned = none := rfl
@[simp] theorem resetBlock_sending : (resetBlock s).sending = none := rfl
@[simp] theorem resetBlock_mem : (resetBlock s).mem = s.mem := rfl
@[simp] theorem resetBlock_live : (resetBlock s).live = s.live := rfl
@[simp] theorem resetBlock_history : (resetBlock s).history = s.history := rfl
@[simp] theorem resetBlock_host : (resetBlock s).host = s.host := rfl
@[simp] theorem resetBlock_meanwhile : (resetBlock s).meanwhile = s.meanwhile := rfl
@[simp] theorem resetBlock_allocs : (resetBlock s).allocs = s.allocs := rfl
@[simp] theorem resetBlock_txs : (resetBlock s).txs = s.txs := rfl
@[simp] theorem resetBlock_draws : (resetBlock s).draws = s.draws := rfl
@[simp] theorem resetBlock_ticks : (resetBlock s).ticks = s.ticks := rfl

/-! `hostStore` -/

@[simp] theorem hostStore_phase (a : Word) (b : Byte) : (hostStore a b s).phase = s.phase := rfl
@[simp] theorem hostStore_captured (a : Word) (b : Byte) : (hostStore a b s).captured = s.captured := rfl
@[simp] theorem hostStore_response (a : Word) (b : Byte) : (hostStore a b s).response = s.response := rfl
@[simp] theorem hostStore_owned (a : Word) (b : Byte) : (hostStore a b s).owned = s.owned := rfl
@[simp] theorem hostStore_sending (a : Word) (b : Byte) : (hostStore a b s).sending = s.sending := rfl
@[simp] theorem hostStore_mem (a : Word) (b : Byte) : (hostStore a b s).mem = s.mem.set a.toNat b := rfl
@[simp] theorem hostStore_live (a : Word) (b : Byte) : (hostStore a b s).live = s.live := rfl
@[simp] theorem hostStore_history (a : Word) (b : Byte) : (hostStore a b s).history = s.history := rfl
@[simp] theorem hostStore_host (a : Word) (b : Byte) : (hostStore a b s).host = s.host := rfl
@[simp] theorem hostStore_meanwhile (a : Word) (b : Byte) : (hostStore a b s).meanwhile = s.meanwhile := rfl
@[simp] theorem hostStore_allocs (a : Word) (b : Byte) : (hostStore a b s).allocs = s.allocs := rfl
@[simp] theorem hostStore_txs (a : Word) (b : Byte) : (hostStore a b s).txs = s.txs := rfl
@[simp] theorem hostStore_draws (a : Word) (b : Byte) : (hostStore a b s).draws = s.draws := rfl
@[simp] theorem hostStore_ticks (a : Word) (b : Byte) : (hostStore a b s).ticks = s.ticks := rfl

/-! `popMeanwhile` -/

@[simp] theorem popMeanwhile_phase : (popMeanwhile s).phase = s.phase := rfl
@[simp] theorem popMeanwhile_captured : (popMeanwhile s).captured = s.captured := rfl
@[simp] theorem popMeanwhile_response : (popMeanwhile s).response = s.response := rfl
@[simp] theorem popMeanwhile_owned : (popMeanwhile s).owned = s.owned := rfl
@[simp] theorem popMeanwhile_sending : (popMeanwhile s).sending = s.sending := rfl
@[simp] theorem popMeanwhile_mem : (popMeanwhile s).mem = s.mem := rfl
@[simp] theorem popMeanwhile_live : (popMeanwhile s).live = s.live := rfl
@[simp] theorem popMeanwhile_history : (popMeanwhile s).history = s.history := rfl
@[simp] theorem popMeanwhile_host : (popMeanwhile s).host = s.host := rfl
@[simp] theorem popMeanwhile_meanwhile : (popMeanwhile s).meanwhile = s.meanwhile.tail := rfl
@[simp] theorem popMeanwhile_allocs : (popMeanwhile s).allocs = s.allocs := rfl
@[simp] theorem popMeanwhile_txs : (popMeanwhile s).txs = s.txs := rfl
@[simp] theorem popMeanwhile_draws : (popMeanwhile s).draws = s.draws := rfl
@[simp] theorem popMeanwhile_ticks : (popMeanwhile s).ticks = s.ticks := rfl

/-! `silenceTx` -/

@[simp] theorem silenceTx_phase : (silenceTx s).phase = s.phase := rfl
@[simp] theorem silenceTx_captured : (silenceTx s).captured = s.captured := rfl
@[simp] theorem silenceTx_response : (silenceTx s).response = s.response := rfl
@[simp] theorem silenceTx_owned : (silenceTx s).owned = s.owned := rfl
@[simp] theorem silenceTx_sending : (silenceTx s).sending = s.sending := rfl
@[simp] theorem silenceTx_mem : (silenceTx s).mem = s.mem := rfl
@[simp] theorem silenceTx_live : (silenceTx s).live = s.live := rfl
@[simp] theorem silenceTx_history : (silenceTx s).history = s.history := rfl
@[simp] theorem silenceTx_host : (silenceTx s).host = s.host := rfl
@[simp] theorem silenceTx_meanwhile : (silenceTx s).meanwhile = s.meanwhile := rfl
@[simp] theorem silenceTx_allocs : (silenceTx s).allocs = s.allocs := rfl
@[simp] theorem silenceTx_txs : (silenceTx s).txs = TxAnswer.silent :: s.txs := rfl
@[simp] theorem silenceTx_draws : (silenceTx s).draws = s.draws := rfl
@[simp] theorem silenceTx_ticks : (silenceTx s).ticks = s.ticks := rfl

/-! `tick` -/

@[simp] theorem tick_phase : (tick s).phase = s.phase := rfl
@[simp] theorem tick_captured : (tick s).captured = s.captured := rfl
@[simp] theorem tick_response : (tick s).response = s.response := rfl
@[simp] theorem tick_owned : (tick s).owned = s.owned := rfl
@[simp] theorem tick_sending : (tick s).sending = s.sending := rfl
@[simp] theorem tick_mem : (tick s).mem = s.mem := rfl
@[simp] theorem tick_live : (tick s).live = s.live := rfl
@[simp] theorem tick_history : (tick s).history = s.history := rfl
@[simp] theorem tick_host : (tick s).host = s.host := rfl
@[simp] theorem tick_meanwhile : (tick s).meanwhile = s.meanwhile := rfl
@[simp] theorem tick_allocs : (tick s).allocs = s.allocs := rfl
@[simp] theorem tick_txs : (tick s).txs = s.txs := rfl
@[simp] theorem tick_draws : (tick s).draws = s.draws := rfl
@[simp] theorem tick_ticks : (tick s).ticks = s.ticks + 1 := rfl

end Sys2Proof.Machine
end

