-- ==== Sys2Proof/Laws/Ops.lean ====
section
/-! SUPPORT. One lemma per shared operation that says everything it can do: operand buffers, byte ranges, the allocator, the
live set, the builders' common end, the send, a host move, a step. -/

namespace Sys2Proof.Machine

open Sys2Proof.Safety

/-! ## Operands -/

/-- What `opbuf` answers when it answers bytes (R34). -/
theorem opbuf_ok_iff (s : State) (p : Word) (n : Nat) (bs : List Byte) :
    opbuf s p n = .ok bs ↔
      (n = 0 ∧ bs = []) ∨ (n ≠ 0 ∧ p ≠ 0 ∧ p.toNat + n ≤ 2 ^ 32 ∧ s.mem.read p.toNat n = some bs) := by
  unfold opbuf
  by_cases hn : n = 0
  · rw [if_pos hn, Except.ok.injEq, eq_comm]
    exact ⟨fun h => .inl ⟨hn, h⟩, fun h => h.elim (·.2) (fun h => absurd hn h.1)⟩
  by_cases hp : p = 0
  · rw [if_neg hn, if_pos hp]
    exact ⟨fun h => (by cases h), fun h => h.elim (fun h => absurd h.1 hn) (fun h => absurd hp h.2.1)⟩
  by_cases hw : p.toNat + n > 2 ^ 32
  · rw [if_neg hn, if_neg hp, if_pos hw]
    exact ⟨fun h => (by cases h), fun h => h.elim (fun h => absurd h.1 hn) (fun h => absurd hw (Nat.not_lt.mpr h.2.2.1))⟩
  rw [if_neg hn, if_neg hp, if_neg hw]
  have hw' := Nat.not_lt.mp hw
  cases hr : s.mem.read p.toNat n with
  | none => exact ⟨fun h => (by cases h), fun h => h.elim (fun h => absurd h.1 hn) (fun h => (by cases h.2.2.2))⟩
  | some b =>
    simp only [Except.ok.injEq, Option.some.injEq]
    exact ⟨fun h => .inr ⟨hn, hp, hw', h⟩, fun h => h.elim (fun h => absurd h.1 hn) (·.2.2.2)⟩

/-- An address range is provided exactly when it reads. -/
theorem provided_iff (m : Memory) (a n : Nat) : Provided m a n ↔ ∃ bs, m.read a n = some bs := by
  rw [Provided, ← Memory.read_isSome_iff, Option.isSome_iff_exists]

/-- `opbuf` answers bytes exactly on the operand buffers it is defined on. -/
theorem opbuf_isOk_iff (s : State) (p : Word) (n : Nat) :
    (∃ bs, opbuf s p n = .ok bs) ↔ OperandOk s p n := by
  simp only [opbuf_ok_iff, OperandOk, provided_iff]
  constructor
  · rintro ⟨bs, ⟨h, -⟩ | ⟨h, hp, hw, hr⟩⟩
    · exact .inl h
    · exact .inr ⟨hp, hw, bs, hr⟩
  · rintro (h | ⟨hp, hw, bs, hr⟩)
    · exact ⟨[], .inl ⟨h, rfl⟩⟩
    · by_cases h : n = 0
      · exact ⟨[], .inl ⟨h, rfl⟩⟩
      · exact ⟨bs, .inr ⟨h, hp, hw, hr⟩⟩

theorem opbuf_length {s : State} {p : Word} {n : Nat} {bs : List Byte} (h : opbuf s p n = .ok bs) : bs.length = n := by
  rcases (opbuf_ok_iff ..).mp h with ⟨rfl, rfl⟩ | ⟨-, -, -, hr⟩
  · rfl
  · exact Memory.read_length hr

/-- What `byteRange` answers (R76, R78, R79). -/
theorem byteRange_ok_iff (s : State) (p : Word) (n : Nat) (o : Option (List Byte)) :
    byteRange s p n = .ok o ↔
      ((p = 0 ∨ n = 0) ∧ o = none) ∨
      (p ≠ 0 ∧ n ≠ 0 ∧ p.toNat + n ≤ 2 ^ 32 ∧ ∃ bs, s.mem.read p.toNat n = some bs ∧ o = some bs) := by
  unfold byteRange
  by_cases h0 : p = 0 ∨ n = 0
  · rw [if_pos h0, Except.ok.injEq, eq_comm]
    exact ⟨fun h => .inl ⟨h0, h⟩, fun h => h.elim (·.2) (fun h => absurd h0 (by tauto))⟩
  have h1 : p ≠ 0 ∧ n ≠ 0 := not_or.mp h0
  by_cases hw : p.toNat + n > 2 ^ 32
  · rw [if_neg h0, if_pos hw]
    exact ⟨fun h => (by cases h), fun h => h.elim (fun h => absurd h.1 h0) (fun h => absurd hw (Nat.not_lt.mpr h.2.2.1))⟩
  rw [if_neg h0, if_neg hw]
  have hw' := Nat.not_lt.mp hw
  cases hr : s.mem.read p.toNat n with
  | none =>
    exact ⟨fun h => (by cases h), fun h => h.elim (fun h => absurd h.1 h0) (fun ⟨_, _, _, _, h, _⟩ => (by cases h))⟩
  | some b =>
    constructor
    · intro h; cases h; exact .inr ⟨h1.1, h1.2, hw', b, rfl, rfl⟩
    · rintro (h | ⟨-, -, -, c, hc, rfl⟩)
      · exact absurd h.1 h0
      · cases hc; rfl

theorem byteRange_isOk_iff (s : State) (p : Word) (n : Nat) :
    (∃ o, byteRange s p n = .ok o) ↔ RangeOk s p n := by
  simp only [byteRange_ok_iff, RangeOk, provided_iff]
  constructor
  · rintro ⟨o, ⟨h | h, -⟩ | ⟨-, -, hw, bs, hr, -⟩⟩
    · exact .inl h
    · exact .inr (.inl h)
    · exact .inr (.inr ⟨hw, bs, hr⟩)
  · intro h
    by_cases h0 : p = 0 ∨ n = 0
    · exact ⟨none, .inl ⟨h0, rfl⟩⟩
    · obtain ⟨hp, hn⟩ := not_or.mp h0
      rcases h with h | h | ⟨hw, bs, hr⟩
      · exact absurd h hp
      · exact absurd h hn
      · exact ⟨some bs, .inr ⟨hp, hn, hw, bs, hr, rfl⟩⟩

/-- What `operands4` answers when it answers the two operand buffers (R103). -/
theorem operands4_ok_iff (s : State) (op : Word) (ol : Half) (dp : Word) (dl : Half) (opts data : List Byte) :
    operands4 s op ol dp dl = .ok (opts, data) ↔
      dl.toNat ≤ 1500 ∧ ol.toNat % 4 = 0 ∧ ol.toNat ≤ 40 ∧
        opbuf s op ol.toNat = .ok opts ∧ opbuf s dp dl.toNat = .ok data := by
  unfold operands4 Config.icmp4MaxPayload Config.ip4OptMax
  split
  · simp only [reduceCtorEq, false_iff, not_and]; intro hh; omega
  · split
    · simp only [reduceCtorEq, false_iff, not_and]; intro _ h1 h2; omega
    · rename_i h1 h2
      have e1 : dl.toNat ≤ 1500 := by omega
      have e2 : ol.toNat % 4 = 0 := by omega
      have e3 : ol.toNat ≤ 40 := by omega
      split
      · rename_i r hr; simp [hr]
      · rename_i o ho
        split
        · rename_i r hr; simp [hr]
        · rename_i d hd; simp [ho, hd, e1, e2, e3]

theorem operands4_isOk_iff (s : State) (op : Word) (ol : Half) (dp : Word) (dl : Half) :
    (∃ q, operands4 s op ol dp dl = .ok q) ↔ Contract4 s op ol dp dl := by
  simp only [Prod.exists, operands4_ok_iff, Contract4, ← opbuf_isOk_iff]
  constructor
  · rintro ⟨o, d, h1, h2, h3, h4, h5⟩; exact ⟨h1, h2, h3, ⟨o, h4⟩, d, h5⟩
  · rintro ⟨h1, h2, h3, ⟨o, h4⟩, d, h5⟩; exact ⟨o, d, h1, h2, h3, h4, h5⟩

/-- Each way `operands4` is undefined, by its name (R103, R166). -/
theorem operands4_overMax {s : State} {op dp : Word} {ol dl : Half} (h : dl.toNat > 1500) :
    operands4 s op ol dp dl = .error .payloadOverMax := by
  have h' : dl.toNat > Config.icmp4MaxPayload := h
  unfold operands4
  rw [if_pos h']

theorem operands4_optionLength {s : State} {op dp : Word} {ol dl : Half} (h : dl.toNat ≤ 1500)
    (ho : ol.toNat % 4 ≠ 0 ∨ ol.toNat > 40) : operands4 s op ol dp dl = .error .optionLength := by
  have h' : ¬ dl.toNat > Config.icmp4MaxPayload := Nat.not_lt.mpr h
  have ho' : ol.toNat % 4 ≠ 0 ∨ ol.toNat > Config.ip4OptMax := ho
  unfold operands4
  rw [if_neg h', if_pos ho']

theorem operands4_within {s : State} {op dp : Word} {ol dl : Half} (h : dl.toNat ≤ 1500) (h4 : ol.toNat % 4 = 0)
    (ho : ol.toNat ≤ 40) :
    operands4 s op ol dp dl =
      match opbuf s op ol.toNat with
      | .error r => .error r
      | .ok opts =>
        match opbuf s dp dl.toNat with
        | .error r => .error r
        | .ok data => .ok (opts, data) := by
  have h' : ¬ dl.toNat > Config.icmp4MaxPayload := Nat.not_lt.mpr h
  have ho' : ¬ (ol.toNat % 4 ≠ 0 ∨ ol.toNat > Config.ip4OptMax) := not_or.mpr ⟨not_not.mpr h4, Nat.not_lt.mpr ho⟩
  unfold operands4
  exact (if_neg h').trans (if_neg ho')

theorem echoDataMax_eq : Config.echoDataMax = Config.echoRoom.val + 28 := rfl

/-- What `operandsEcho` answers when it answers the data (R131). -/
theorem operandsEcho_ok_iff (s : State) (dp : Word) (dl : Half) (data : List Byte) :
    operandsEcho s dp dl = .ok data ↔ dl.toNat ≤ Config.echoDataMax ∧ opbuf s dp dl.toNat = .ok data := by
  unfold operandsEcho
  split
  · simp only [reduceCtorEq, false_iff, not_and]; intro hh; omega
  · rw [iff_and_self]; intro; omega

/-! ## The allocator and the live set -/

/-- An allocation that succeeds has the placement R38 promises. -/
theorem allocAnswer_placed {n : Nat} {s : State} {a : Word} (h : allocAnswer n s = .placed a) :
    a ≠ 0 ∧ a.toNat + n ≤ 2 ^ 32 ∧ s.mem.clear a.toNat n = true := by
  unfold allocAnswer at h
  split at h
  · split at h
    · rename_i hm
      cases h
      simpa [mayPlace, and_assoc] using hm
    · cases h
  · rename_i hne
    exact absurd h (hne a)

theorem mem_insertBuffer {b x : Buffer} {l : List Buffer} : x ∈ insertBuffer b l ↔ x = b ∨ x ∈ l := by
  induction l with
  | nil => simp [insertBuffer]
  | cons y l ih =>
    simp only [insertBuffer]
    split
    · simp
    · simp only [List.mem_cons, ih]; tauto

/-- A buffer that is disjoint from every live one keeps the live set rising and disjoint. -/
theorem pairwise_insertBuffer {b : Buffer} {l : List Buffer} (hb : 1 ≤ b.len)
    (hl : l.Pairwise (fun x y => x.addr.toNat + x.len ≤ y.addr.toNat)) (h1 : ∀ x ∈ l, 1 ≤ x.len)
    (hd : ∀ x ∈ l, x.addr.toNat + x.len ≤ b.addr.toNat ∨ b.addr.toNat + b.len ≤ x.addr.toNat) :
    (insertBuffer b l).Pairwise (fun x y => x.addr.toNat + x.len ≤ y.addr.toNat) := by
  induction l with
  | nil => simp [insertBuffer]
  | cons y l ih =>
    obtain ⟨p1, p2⟩ := List.pairwise_cons.mp hl
    have hy := hd y List.mem_cons_self
    have hy1 := h1 y List.mem_cons_self
    simp only [insertBuffer]
    split
    · refine List.pairwise_cons.mpr ⟨fun x hx => ?_, hl⟩
      rcases List.mem_cons.mp hx with rfl | hx
      · omega
      · have := p1 x hx; omega
    · refine List.pairwise_cons.mpr ⟨fun x hx => ?_, ih p2 (fun x hx => h1 x (List.mem_cons_of_mem _ hx))
        (fun x hx => hd x (List.mem_cons_of_mem _ hx))⟩
      rcases mem_insertBuffer.mp hx with rfl | hx
      · omega
      · exact p1 x hx

/-- Releasing a buffer just put in gives the live set back. -/
theorem filter_insertBuffer {b : Buffer} {l : List Buffer} (h : ∀ x ∈ l, x.addr ≠ b.addr) :
    (insertBuffer b l).filter (fun x => x.addr != b.addr) = l := by
  induction l with
  | nil => simp [insertBuffer]
  | cons y l ih =>
    have hy := h y List.mem_cons_self
    have hl : ∀ x ∈ l, x.addr ≠ b.addr := fun x hx => h x (List.mem_cons_of_mem _ hx)
    simp only [insertBuffer]
    split
    · rw [List.filter_cons_of_neg (by simp), List.filter_eq_self.mpr]
      intro x hx; simpa using h x hx
    · rw [List.filter_cons_of_pos (by simpa using hy), ih hl]

/-- A fresh range touches no live buffer. -/
theorem fresh_disjoint {s : State} (hL : LiveInv s) {a : Word} {n : Nat} (hn : 1 ≤ n)
    (hc : s.mem.clear a.toNat n = true) (x : Buffer) (hx : x ∈ s.live) :
    x.addr.toNat + x.len ≤ a.toNat ∨ a.toNat + n ≤ x.addr.toNat := by
  by_contra hn'
  have hp := hL.populated x hx
  have hlen := (hL.placed x hx).2.1
  have key : ∃ y, x.addr.toNat ≤ y ∧ y < x.addr.toNat + x.len ∧ a.toNat ≤ y ∧ y < a.toNat + n := by
    by_cases h : x.addr.toNat ≤ a.toNat
    · exact ⟨a.toNat, by omega, by omega, by omega, by omega⟩
    · exact ⟨x.addr.toNat, by omega, by omega, by omega, by omega⟩
  obtain ⟨y, y1, y2, y3, y4⟩ := key
  have h1 := hp y y1 y2
  rw [(Memory.clear_iff ..).mp hc y y3 y4] at h1
  cases h1

theorem fresh_addr_ne {s : State} (hL : LiveInv s) {a : Word} {n : Nat} (hn : 1 ≤ n)
    (hc : s.mem.clear a.toNat n = true) (x : Buffer) (hx : x ∈ s.live) : x.addr ≠ a := by
  rintro rfl
  have := (hL.placed x hx).2.1
  rcases fresh_disjoint hL hn hc x hx with h | h <;> omega

/-- Two different live buffers share no address. -/
theorem live_disjoint {s : State} (hL : LiveInv s) {x y : Buffer} (hx : x ∈ s.live) (hy : y ∈ s.live) (h : x ≠ y) :
    x.addr.toNat + x.len ≤ y.addr.toNat ∨ y.addr.toNat + y.len ≤ x.addr.toNat := by
  have key : ∀ l : List Buffer, l.Pairwise (fun x y => x.addr.toNat + x.len ≤ y.addr.toNat) → x ∈ l → y ∈ l →
      x.addr.toNat + x.len ≤ y.addr.toNat ∨ y.addr.toNat + y.len ≤ x.addr.toNat := by
    intro l hp h1 h2
    induction l with
    | nil => cases h1
    | cons z l ih =>
      obtain ⟨p1, p2⟩ := List.pairwise_cons.mp hp
      rcases List.mem_cons.mp h1 with e1 | m1 <;> rcases List.mem_cons.mp h2 with e2 | m2
      · exact absurd (e1.trans e2.symm) h
      · exact .inl (e1 ▸ p1 _ m2)
      · exact .inr (e2 ▸ p1 _ m1)
      · exact ih p2 m1 m2
  exact key s.live hL.disjoint hx hy

/-- Two live buffers at one address are the same buffer (R38). -/
theorem live_eq_of_addr {s : State} (hL : LiveInv s) {x y : Buffer} (hx : x ∈ s.live) (hy : y ∈ s.live)
    (h : x.addr = y.addr) : x = y := by
  by_contra hne
  have l1 := (hL.placed x hx).2.1
  have l2 := (hL.placed y hy).2.1
  have hd := live_disjoint hL hx hy hne
  rw [h] at hd
  omega

theorem liveAt_mem {s : State} {a : Word} {b : Buffer} (h : liveAt s a = some b) : b ∈ s.live ∧ b.addr = a :=
  ⟨List.mem_of_find?_eq_some h, by simpa using List.find?_some h⟩

/-- The live buffer at a live buffer's address is that buffer. -/
theorem liveAt_of_mem {s : State} (hL : LiveInv s) {b : Buffer} (hb : b ∈ s.live) : liveAt s b.addr = some b := by
  cases h : liveAt s b.addr with
  | none => exact absurd (by simp) (List.find?_eq_none.mp h b hb)
  | some c => rw [live_eq_of_addr hL (liveAt_mem h).1 hb (liveAt_mem h).2]

theorem freshBytes_length (t n : Nat) : (freshBytes t n).length = n := by simp [freshBytes]

/-- A buffer placed and written reads as written, and nothing outside it has changed. -/
theorem memWrite_grant_get? (s : State) (a : Word) (bs : List Byte) (x : Nat) :
    (memWrite a bs (grant a bs.length s)).mem.get? x =
      if a.toNat ≤ x ∧ x < a.toNat + bs.length then bs[x - a.toNat]? else s.mem.get? x := by
  simp only [memWrite_mem, grant_mem, Memory.get?_write, freshBytes_length]
  split
  · rfl
  · rfl

/-- What `buildInto` can do (R38, R39, R109). -/
theorem buildInto_cases (bs : List Byte) (s : State) :
    (allocAnswer bs.length s = .silent ∧ buildInto bs s = popAlloc s) ∨
    (allocAnswer bs.length s = .null ∧ buildInto bs s = raise .allocFail (popAlloc s)) ∨
    (∃ a, allocAnswer bs.length s = .placed a ∧
      buildInto bs s = respond { status := .ok, csum := 0, buf := a, len := BitVec.ofNat 32 bs.length }
        (memWrite a bs (grant a bs.length (popAlloc s)))) := by
  unfold buildInto
  split <;> rename_i h
  · exact .inl ⟨h, rfl⟩
  · exact .inr (.inl ⟨h, rfl⟩)
  · exact .inr (.inr ⟨_, h, rfl⟩)

/-! ## The send -/

/-- What the blocking send can do (R148). -/
theorem awaitTx_cases (c : TxCall) (s : State) :
    (nextTx s = .silent ∧ awaitTx c s = popTx s) ∨
    (nextTx s = .answered true ∧
      awaitTx c s = respond { status := .ok, csum := 0, buf := 0, len := 0 } (releaseOwned (recordTx c true (popTx s)))) ∨
    (nextTx s = .answered false ∧ awaitTx c s = raise .txFail (releaseOwned (recordTx c false (popTx s)))) := by
  unfold awaitTx
  split <;> rename_i h
  · exact .inl ⟨h, rfl⟩
  · rename_i ok
    cases ok
    · exact .inr (.inr ⟨h, rfl⟩)
    · exact .inr (.inl ⟨h, rfl⟩)

/-- The packet handed over is the one that was written (R140 step 3, R147). -/
theorem built_read (s : State) (a : Word) (pkt : List Byte) :
    ((memWrite a pkt (grant a pkt.length s)).mem.read a.toNat pkt.length).getD [] = pkt := by
  rw [memWrite_mem, Memory.read_write]; rfl

/-- What `sendBuilt` can do (R140, R144). -/
theorem sendBuilt_cases (d : Send4Op) (pkt : List Byte) (s : State) :
    (allocAnswer pkt.length s = .silent ∧ sendBuilt d pkt s = popAlloc s) ∨
    (allocAnswer pkt.length s = .null ∧ sendBuilt d pkt s = raise .allocFail (popAlloc (popDraw s))) ∨
    (∃ a, allocAnswer pkt.length s = .placed a ∧ d.mtu.toNat < pkt.length ∧
      sendBuilt d pkt s =
        raise .mtuExceeded (releaseOwned (memWrite a pkt (grant a pkt.length (popAlloc (popDraw s)))))) ∨
    (∃ a, allocAnswer pkt.length s = .placed a ∧ pkt.length ≤ d.mtu.toNat ∧
      sendBuilt d pkt s =
        awaitTx { link := d.link, fd := d.fd, pkt := pkt }
          (startTx { link := d.link, fd := d.fd, pkt := pkt }
            (memWrite a pkt (grant a pkt.length (popAlloc (popDraw s)))))) := by
  unfold sendBuilt
  split <;> rename_i h
  · exact .inl ⟨h, rfl⟩
  · exact .inr (.inl ⟨h, rfl⟩)
  · rename_i a
    unfold gateAndSend
    simp only [built_read]
    split <;> rename_i hm
    · exact .inr (.inr (.inl ⟨a, h, hm, rfl⟩))
    · exact .inr (.inr (.inr ⟨a, h, by omega, rfl⟩))

/-! ## A meaning, a host move, a step -/

/-- What `exec` can do when it answers a next state: a checksum response, one of the builders' ends, one of SEND4's. -/
theorem exec_cases {i : Instr} {s t : State} (h : exec i s = .next t) :
    (∃ c, t = respondSum c s) ∨
    (∃ bs : List Byte, 4 ≤ bs.length ∧ t = buildInto bs s) ∨
    (∃ d pkt, i = .send4 d ∧ 28 ≤ pkt.length ∧ t = sendBuilt d pkt s) := by
  cases i with
  | csum d =>
    simp only [exec, execCsum] at h
    split at h <;> cases h <;> exact .inl ⟨_, rfl⟩
  | pcsum6 d =>
    simp only [exec, execPcsum6] at h
    split at h <;> cases h <;> exact .inl ⟨_, rfl⟩
  | needfrag d =>
    simp only [exec, execNeedfrag] at h
    split at h
    · cases h
    · exact .inr (.inl ⟨_, by rw [needfragBody_length]; omega, (Host.Outcome.next.inj h).symm⟩)
  | build4 d =>
    simp only [exec, execBuild4] at h
    split at h
    · cases h
    · exact .inr (.inl ⟨_, by rw [packet4_length]; omega, (Host.Outcome.next.inj h).symm⟩)
  | send4 d =>
    simp only [exec, execSend4] at h
    split at h
    · cases h
    · exact .inr (.inr ⟨_, _, rfl, by rw [packet4_length]; omega, (Host.Outcome.next.inj h).symm⟩)
  | build6Echo d =>
    simp only [exec, execBuild6Echo] at h
    split at h
    · cases h
    · exact .inr (.inl ⟨_, by rw [packet6_length]; omega, (Host.Outcome.next.inj h).symm⟩)
  | build6Nd d =>
    have e : buildInto (packet6 d.head (ndMessage d)) s = t := Host.Outcome.next.inj h
    exact .inr (.inl ⟨_, by rw [packet6_length]; exact Nat.le_add_right_of_le (by decide), e.symm⟩)

/-- A builder whose allocation is answered with an address leaves exactly its bytes there (R38, R39). -/
theorem buildInto_builtAt {bs : List Byte} {s : State} {a : Word} (h : allocAnswer bs.length s = .placed a) :
    BuiltAt a bs s (buildInto bs s) := by
  rcases buildInto_cases bs s with ⟨h1, -⟩ | ⟨h1, -⟩ | ⟨b, h1, e⟩
  · rw [h] at h1; cases h1
  · rw [h] at h1; cases h1
  · rw [h] at h1
    cases h1
    obtain ⟨p1, p2, -⟩ := allocAnswer_placed h
    rw [e]
    refine ⟨⟨p1, p2⟩, by simp [Delivered], by simp [Memory.read_write], fun x hx => ?_, fun b => by simp [mem_insertBuffer],
      by simp, by simp [AskedAlloc]⟩
    rw [respond_mem, memWrite_grant_get?, if_neg (by omega)]
    rfl

/-- Releasing the owned buffer. -/
theorem releaseOwned_of_owned {s : State} {b : Buffer} (h : s.owned = some b) : releaseOwned s = release b s := by
  unfold releaseOwned; rw [h]

@[simp] theorem releaseOwned_history (s : State) : (releaseOwned s).history = s.history := by
  unfold releaseOwned; split <;> rfl

@[simp] theorem releaseOwned_host (s : State) : (releaseOwned s).host = s.host := by
  unfold releaseOwned; split <;> rfl

@[simp] theorem releaseOwned_meanwhile (s : State) : (releaseOwned s).meanwhile = s.meanwhile := by
  unfold releaseOwned; split <;> rfl

/-- A buffer placed, written and released leaves `MEM` as it was (R38, R40, R146). -/
theorem drop_memWrite_grant {s : State} (hw : s.mem.wf) {a : Word} {bs : List Byte} (ha : a.toNat + bs.length ≤ 2 ^ 32)
    (hc : s.mem.clear a.toNat bs.length = true) :
    (memWrite a bs (grant a bs.length s)).mem.drop a.toNat bs.length = s.mem := by
  rw [memWrite_mem, grant_mem, Memory.write_write hw _ _ (freshBytes_length _ _) ha, Memory.drop_write hw _ ha hc]

/-- Losing the contents of the owned buffer changes no byte outside it (R181). -/
theorem loseContents_get? (s : State) (x : Nat)
    (h : ∀ b, s.owned = some b → x < b.addr.toNat ∨ b.addr.toNat + b.len ≤ x) :
    (loseContents s).mem.get? x = s.mem.get? x := by
  unfold loseContents
  split
  · rfl
  · rename_i b hb
    have := h b hb
    rw [memWrite_mem, Memory.get?_write, freshBytes_length, if_neg (by omega)]

@[simp] theorem loseContents_live (s : State) : (loseContents s).live = s.live := by
  unfold loseContents; split <;> rfl

@[simp] theorem loseContents_history (s : State) : (loseContents s).history = s.history := by
  unfold loseContents; split <;> rfl

/-- What an abandoned command can have done at the allocator (R181). -/
theorem leaveBuffer_cases (s : State) :
    leaveBuffer s = s ∨ leaveBuffer s = popAlloc s ∨
    ∃ i n a, runningCommand s = some i ∧ request i = some n ∧ allocAnswer n s = .placed a ∧
      leaveBuffer s = grant a n (popAlloc s) := by
  unfold leaveBuffer
  split
  · exact .inl rfl
  · rename_i n hn
    obtain ⟨i, hi, hr⟩ := Option.bind_eq_some_iff.mp hn
    split
    · rename_i a ha; exact .inr (.inr ⟨i, n, a, hi, hr, ha, rfl⟩)
    · exact .inr (.inl rfl)

theorem request_pos {i : Instr} {n : Nat} (h : request i = some n) : 4 ≤ n := by
  cases i <;> simp [request] at h <;> omega

/-- A builder or SEND4 in contract asks the allocator for the length of what it builds (R38, R91, R102, R125, R126). -/
theorem exec_of_request {i : Instr} {s : State} {n : Nat} (h : request i = some n) (hc : InContract i s) :
    (∃ bs : List Byte, bs.length = n ∧ exec i s = .next (buildInto bs s)) ∨
    (∃ d, ∃ pkt : List Byte, i = .send4 d ∧ pkt.length = n ∧ exec i s = .next (sendBuilt d pkt s)) := by
  cases i with
  | csum d => cases h
  | pcsum6 d => cases h
  | needfrag d =>
    obtain ⟨o, ho⟩ := (opbuf_isOk_iff ..).mpr hc
    have hl := opbuf_length ho
    simp only [request, Option.some.injEq] at h
    exact .inl ⟨needfragBody d.mtu o, by simp [hl, h], by simp only [exec, execNeedfrag, ho]⟩
  | build4 d =>
    obtain ⟨⟨o, q⟩, ho⟩ := (operands4_isOk_iff ..).mpr hc
    obtain ⟨-, -, -, h4, h5⟩ := (operands4_ok_iff ..).mp ho
    have l4 := opbuf_length h4
    have l5 := opbuf_length h5
    simp only [request, Option.some.injEq] at h
    exact .inl ⟨packet4 d o q, by simp [l4, l5]; omega, by simp only [exec, execBuild4, ho]⟩
  | send4 d =>
    obtain ⟨⟨o, q⟩, ho⟩ := (operands4_isOk_iff ..).mpr hc
    obtain ⟨-, -, -, h4, h5⟩ := (operands4_ok_iff ..).mp ho
    have l4 := opbuf_length h4
    have l5 := opbuf_length h5
    simp only [request, Option.some.injEq] at h
    exact .inr ⟨d, packet4 (build4Of d (nextDraw s)) o q, rfl, by simp [l4, l5]; omega, by simp only [exec, execSend4, ho]⟩
  | build6Echo d =>
    obtain ⟨o, ho⟩ := (opbuf_isOk_iff ..).mpr hc.2
    have hl := opbuf_length ho
    simp only [request, Option.some.injEq] at h
    exact .inl ⟨packet6 d.head (echoMessage d o), by simp [hl]; omega,
      by simp only [exec, execBuild6Echo, (operandsEcho_ok_iff ..).mpr ⟨hc.1, ho⟩]⟩
  | build6Nd d =>
    simp only [request, Option.some.injEq] at h
    exact .inl ⟨packet6 d.head (ndMessage d), by simp; omega, rfl⟩

/-- What the block's own step can do when it answers a next state. -/
theorem blockStep_cases {s t : State} (h : blockStep s = .next t) :
    (∃ c, s.sending = some c ∧ t = awaitTx c s) ∨
    (s.sending = none ∧ ∃ ws e, s.captured = some ws ∧ decode ws = .error e ∧ t = raise .illegal s) ∨
    (s.sending = none ∧ ∃ ws i, s.captured = some ws ∧ decode ws = .ok i ∧ exec i s = .next t) := by
  unfold blockStep at h
  split at h
  · rename_i c hc; cases h; exact .inl ⟨c, hc, rfl⟩
  · rename_i hc
    split at h
    · cases h
    · rename_i ws hw
      split at h
      · rename_i e he; cases h; exact .inr (.inl ⟨hc, ws, e, hw, he, rfl⟩)
      · rename_i i hi; exact .inr (.inr ⟨hc, ws, i, hw, hi, h⟩)

/-- What an abandoned command that had handed its packet over can have done (R181): nothing more, or one attempt recorded. -/
theorem leaveAttempt_cases (s : State) :
    leaveAttempt s = s ∨
    (∃ c, s.sending = some c ∧ leaveAttempt s = recordTx c (lateAnswer s) (popTx s)) ∨
    (s.sending = none ∧ ∃ t c, blockStep (silenceTx s) = .next t ∧ t.sending = some c ∧
      leaveAttempt s = recordTx c (lateAnswer t) (popTx t)) := by
  unfold leaveAttempt
  split
  · rename_i c hc; exact .inr (.inl ⟨c, hc, rfl⟩)
  · rename_i hs
    split
    · rename_i t ht
      split
      · rename_i c hc; exact .inr (.inr ⟨hs, t, c, ht, hc, rfl⟩)
      · exact .inl rfl
    · exact .inl rfl

/-- What a command can have done when a reset abandoned it (R181). -/
theorem leftBehind_cases (p : Progress) (s t : State) :
    leftBehind p s t = s ∨ (s.sending = none ∧ leftBehind p s t = leaveBuffer s) ∨ leftBehind p s t = leaveAttempt s ∨
      leftBehind p s t = t := by
  cases p with
  | untouched => exact .inl rfl
  | allocated =>
    cases hs : s.sending with
    | none => exact .inr (.inl ⟨rfl, by simp [leftBehind, hs]⟩)
    | some c => exact .inl (by simp [leftBehind, hs])
  | sent => exact .inr (.inr (.inl rfl))
  | ran => exact .inr (.inr (.inr rfl))

/-- What a reset during a command can leave (R181): what the command had done, its buffer's contents lost, the block reset; a command that
cannot run is not abandoned either (R166). -/
theorem abandon_cases {s t : State} (h : abandon s = .next t) :
    ∃ u, blockStep (tick s) = .next u ∧
      t = resetBlock (loseContents (leftBehind (Config.freeProgress s.ticks) (tick s) u)) := by
  unfold abandon at h
  split at h
  · rename_i u hu; cases h; exact ⟨u, hu, rfl⟩
  · cases h
  · cases h

/-- What a host move during a command can leave (R190). -/
theorem busyMove_cases {mv : HostMove} {s t : State} (h : busyMove mv s = .next t) :
    (∃ a b, mv = .store a b ∧ touches a.toNat 1 (heldBuffers s) = false ∧ t = hostStore a b s) ∨
    (∃ a b, mv = .free a ∧ liveAt s a = some b ∧ s.owned ≠ some b ∧
      touches b.addr.toNat b.len (heldBuffers s) = false ∧ t = release b s) := by
  cases mv with
  | present d => cases h
  | store a b =>
    simp only [busyMove] at h
    split at h
    · cases h
    · rename_i ht; cases h; exact .inl ⟨a, b, rfl, by simpa using ht, rfl⟩
  | free a =>
    simp only [busyMove] at h
    split at h
    · cases h
    · rename_i b hb
      split at h
      · cases h
      · rename_i ho
        split at h
        · cases h
        · rename_i ht; cases h; exact .inr ⟨a, b, rfl, hb, ho, by simpa using ht, rfl⟩
  | reset => cases h

/-- What one step can do when it answers a next state. -/
theorem step_cases {s t : State} (h : step s = .next t) :
    (s.phase = .idle ∧ s.host = [] ∧ t = s) ∨
    (s.phase = .idle ∧ ∃ d rest, s.host = .present d :: rest ∧ t = acceptCommand d (popHost s)) ∨
    (s.phase = .idle ∧ ∃ a b rest, s.host = .store a b :: rest ∧ t = hostStore a b (popHost s)) ∨
    (s.phase = .idle ∧ ∃ a b rest, s.host = .free a :: rest ∧ liveAt s a = some b ∧ t = release b (popHost s)) ∨
    (s.phase = .idle ∧ ∃ rest, s.host = .reset :: rest ∧ t = resetBlock (popHost s)) ∨
    (s.phase = .busy ∧ ∃ mv rest, s.meanwhile = some mv :: rest ∧ busyMove mv (popMeanwhile s) = .next t) ∨
    (s.phase = .busy ∧ s.meanwhile.head?.join = none ∧ blockStep (popMeanwhile s) = .next t) := by
  unfold step at h
  split at h
  · rename_i hp
    unfold idleStep at h
    split at h
    · rename_i hh; cases h; exact .inl ⟨hp, hh, rfl⟩
    · rename_i mv rest hh
      cases mv with
      | present d => cases h; exact .inr (.inl ⟨hp, _, _, hh, rfl⟩)
      | store a b => cases h; exact .inr (.inr (.inl ⟨hp, _, _, _, hh, rfl⟩))
      | free a =>
        simp only [hostMove] at h
        split at h
        · rename_i b hb; cases h; exact .inr (.inr (.inr (.inl ⟨hp, _, _, _, hh, hb, rfl⟩)))
        · cases h
      | reset => cases h; exact .inr (.inr (.inr (.inr (.inl ⟨hp, _, hh, rfl⟩))))
  · rename_i hp
    unfold busyStep at h
    split at h
    · rename_i mv rest hm
      exact .inr (.inr (.inr (.inr (.inr (.inl ⟨hp, mv, rest, hm, h⟩)))))
    · rename_i hm
      refine .inr (.inr (.inr (.inr (.inr (.inr ⟨hp, ?_, h⟩)))))
      cases hl : s.meanwhile with
      | nil => rfl
      | cons o rest =>
        cases o with
        | none => rfl
        | some mv => exact absurd hl (hm mv rest)

/-- While the host waits, a `BUSY` step is the block's own. -/
theorem step_eq_blockStep {s : State} (hp : s.phase = .busy) (hm : s.meanwhile.head?.join = none) :
    step s = blockStep (popMeanwhile s) := by
  unfold step busyStep
  rw [hp]
  split
  · rename_i h; cases h
  · split
    · rename_i mv rest h; rw [h] at hm; cases hm
    · rfl

/-- A range shares an address with a held buffer exactly when some byte lies in both. -/
theorem touches_eq_false_iff (a n : Nat) (bufs : List (Word × Nat)) :
    touches a n bufs = false ↔
      ∀ r ∈ bufs, r.1 ≠ 0 → ∀ x, a ≤ x → x < a + n → r.1.toNat ≤ x → x < r.1.toNat + r.2 → False := by
  simp only [touches, List.any_eq_false, Bool.and_eq_true, bne_iff_ne, ne_eq, decide_eq_true_eq, not_and, Nat.not_lt]
  constructor
  · intro h r hr h0 x h1 h2 h3 h4
    have := h r hr h0
    omega
  · intro h r hr h0
    by_contra hc
    exact h r hr h0 (max a r.1.toNat) (by omega) (by omega) (by omega) (by omega)

end Sys2Proof.Machine
end

