-- ==== Sys2Proof/Laws/PerInstr.lean ====
section
/-! SUPPORT. Statements made per operation, one lemma per constructor: the descriptor of an operation has as many words as its `W0`
says (30_encoding.md R50, R61). -/

namespace Sys2Proof.Laws.DescriptorLength

/-- The descriptor has the length its first word selects (R61). -/
def Statement (i : Instr) : Prop :=
  (encode i).length = descriptorWords ((encode i).headD 0)

theorem csum (d : CsumOp) : Statement (.csum d) := by
  change _ = descriptorWords (commandWord 0x01 false false false)
  unfold descriptorWords formatOf
  rw [commandWord_op, commandWord_kind]
  rfl

theorem pcsum6 (d : Pcsum6Op) : Statement (.pcsum6 d) := by
  change _ = descriptorWords (commandWord 0x02 false false false)
  unfold descriptorWords formatOf
  rw [commandWord_op, commandWord_kind]
  rfl

theorem needfrag (d : NeedfragOp) : Statement (.needfrag d) := by
  change _ = descriptorWords (commandWord 0x10 false false false)
  unfold descriptorWords formatOf
  rw [commandWord_op, commandWord_kind]
  rfl

theorem build4 (d : Build4Op) : Statement (.build4 d) := by
  change _ = descriptorWords (commandWord 0x20 d.badsum d.df false)
  unfold descriptorWords formatOf
  rw [commandWord_op, commandWord_kind]
  rfl

theorem send4 (d : Send4Op) : Statement (.send4 d) := by
  change _ = descriptorWords (commandWord 0x21 d.badsum d.df false)
  unfold descriptorWords formatOf
  rw [commandWord_op, commandWord_kind]
  rfl

theorem build6Echo (d : Build6EchoOp) : Statement (.build6Echo d) := by
  change _ = descriptorWords (commandWord 0x30 d.head.badsum false false)
  unfold descriptorWords formatOf
  rw [commandWord_op, commandWord_kind]
  rfl

theorem build6Nd (d : Build6NdOp) : Statement (.build6Nd d) := by
  change _ = descriptorWords (commandWord 0x30 d.head.badsum false true)
  unfold descriptorWords formatOf
  rw [commandWord_op, commandWord_kind]
  rfl

end Sys2Proof.Laws.DescriptorLength
end

