-- ==== Sys2Proof/Tests/Slice0.lean ====
section
/-! SUPPORT. Tests of single steps against 95_test_vectors.md, ill-formed descriptors for each check of R62, and for every statement
with hypotheses a state and operands that meet them. -/

namespace Sys2Proof.Tests

open Sys2Proof.Machine Sys2Proof.Safety

/-! ## Reading an outcome -/

/-- The response a next state holds. -/
def responseOf : Host.Outcome State Fault Refusal → Option Response
  | .next t => t.response
  | _ => none

/-- The bytes a next state holds. -/
def bytesOf (a n : Nat) : Host.Outcome State Fault Refusal → Option (List Byte)
  | .next t => t.mem.read a n
  | _ => none

/-- The transmission history of a next state. -/
def historyOf : Host.Outcome State Fault Refusal → Option (List TxRecord)
  | .next t => some t.history
  | _ => none

/-- The refusal, if the outcome is one. -/
def refusalOf : Host.Outcome State Fault Refusal → Option Refusal
  | .refused r => some r
  | _ => none

def isNext : Host.Outcome State Fault Refusal → Bool
  | .next _ => true
  | _ => false

/-! ## Small states -/

/-- Bytes provided at 0x1000, the environment's answers listed. -/
def given (bytes : List Byte) (allocs : List AllocAnswer) (txs : List TxAnswer) : State :=
  { State.reset with mem := Memory.write [] 0x1000 bytes, allocs := allocs, txs := txs,
                     draws := [{ ipId := 0xBEEF, tos := 0x10, icmpId := 0x1234 }] }

/-- A command has been accepted in `s`. -/
def running (ws : List Word) (s : State) : State := acceptCommand ws s

def ping : List Byte := [0x70, 0x69, 0x6E, 0x67]

/-- 2001:db8::1 and 2001:db8::2. -/
def src6 : Ip6 := 0x20010DB8000000000000000000000001
def dst6 : Ip6 := 0x20010DB8000000000000000000000002

/-! ## Ill-formed descriptors (95_test_vectors.md section 9) -/

def refuses (ws : List Word) : Bool := !wellFormed ws && !(decode ws).toBool

/-- V9.1, V9.2: a reserved opcode, one beside each opcode of the table. -/
theorem test_reserved_opcodes_refused :
    [0x00000000, 0x00000003, 0x00000011, 0x00000022, 0x00000031, 0x000000FF].all
      (fun w0 => refuses [w0, 0x00001000, 0x00000008] && refuses [w0]) = true := by decide

/-- V9.3 to V9.7: a bit of `W0` that the opcode reserves. -/
theorem test_reserved_bits_of_W0_refused :
    (refuses [0x00000101, 0x00001000, 0x00000008] && refuses [0x00000210, 0x00000578, 0x00001000, 0x00000004]
      && refuses (0x00000420 :: List.replicate 9 0) && refuses (0x00000230 :: List.replicate 13 0)
      && refuses [0x00000810, 0x00000578, 0x00001000, 0x00000004] && refuses (0x00000102 :: List.replicate 12 0)
      && refuses (0x00000421 :: List.replicate 12 0) && refuses (0x00000630 :: List.replicate 20 0)) = true := by decide

/-- V9.8, V9.11 to V9.13: a reserved bit of a later word. -/
theorem test_reserved_bits_of_later_words_refused :
    (refuses [0x00000010, 0x00010578, 0x00001000, 0x00000004]
      && refuses [0x00000021, 0xC0000201, 0xC0000202, 0x40000001, 1, 0x800, 0, 0, 0x1000, 4, 0x5DC, 7, 3]
      && refuses [0x00000430, 0xFE800000, 0, 0, 1, 0xFF020000, 0, 1, 0xFF000002, 0, 0xFF008700, 0x04D20001, 0, 0, 0,
        0xFE800000, 0, 0, 2, 0x01010200, 0x00AABBCC]
      && refuses [0x00000030, 0x20010DB8, 0, 0, 1, 0x20010DB8, 0, 0, 2, 0x10000000, 0x40008000, 0x04D20001, 0x1000, 4]
      && refuses [0x00000002, 0, 0, 0, 0, 0, 0, 0, 0, 12, 0x0000013A, 0x1000, 12]
      && refuses [0x00000020, 0, 0, 0, 0, 0x00010800, 0, 0, 0, 0]) = true := by decide

/-- V9.9, V9.10, and no word at all: a wrong word count. -/
theorem test_wrong_word_count_refused :
    (refuses [0x00000001, 0x00001000, 0x00000008, 0x00000000] && refuses (0x00000430 :: List.replicate 13 0)
      && refuses [] && refuses [0x00000001, 0x00001000]) = true := by decide

/-- The response of 95_test_vectors.md section 9. -/
theorem test_illegal_response :
    (responseOf (step (running [0x00000000] (given ping [] [])))).map Response.words = some [0x0000007F, 0, 0] := by decide

/-! ## Decoding, a word written out for each operation -/

theorem test_decode_csum : decode [0x00000001, 0x00001000, 0x00000008] = .ok (.csum { ptr := 0x1000, length := 8 }) := by decide

theorem test_decode_pcsum6 :
    decode [0x00000002, 0x20010DB8, 0, 0, 1, 0x20010DB8, 0, 0, 2, 0x0000000C, 0x0000003A, 0x00001000, 0x0000000D] =
      .ok (.pcsum6 { src := src6, dst := dst6, upperLen := 12, nextHeader := 58, payloadPtr := 0x1000, payloadLen := 13 }) := by
  decide

theorem test_decode_needfrag :
    decode [0x00000010, 0x00000578, 0x00001000, 0x00000004] = .ok (.needfrag { mtu := 1400, origPtr := 0x1000, origLen := 4 }) := by
  decide

/-- `BADSUM` alone and every field of W3 to W5 different. -/
theorem test_decode_build4 :
    decode [0x00000120, 0xC0000201, 0xC0000202, 0x4010BEEF, 0x12340002, 0x00000803, 0x1100, 4, 0x1000, 3] =
      .ok (.build4 { badsum := true, df := false, src := 0xC0000201, dst := 0xC0000202, ttl := 64, tos := 0x10, ipId := 0xBEEF,
                     id := 0x1234, seq := 2, icmpType := 8, icmpCode := 3, optPtr := 0x1100, optLen := 4, dataPtr := 0x1000,
                     dataLen := 3 }) := by decide

theorem test_decode_send4 :
    decode [0x00000221, 0xC0000201, 0xC0000202, 0x40000000, 0x00000001, 0x00000803, 0x1100, 4, 0x1000, 3, 0x5DC, 7, 3] =
      .ok (.send4 { badsum := false, df := true, src := 0xC0000201, dst := 0xC0000202, ttl := 64, seq := 1, icmpType := 8,
                    icmpCode := 3, optPtr := 0x1100, optLen := 4, dataPtr := 0x1000, dataLen := 3, mtu := 1500, link := 7,
                    fd := 3 }) := by decide

theorem test_decode_build6Echo :
    decode [0x00000130, 0x20010DB8, 0, 0, 1, 0x20010DB8, 0, 0, 2, 0x0AB12345, 0xFF008103, 0x12345678, 0x1000, 3] =
      .ok (.build6Echo { head := { badsum := true, src := src6, dst := dst6, trafficClass := 0xAB, flowLabel := 0x12345,
                                   hopLimit := 255, icmpType := 129, icmpCode := 3 },
                         id := 0x1234, seq := 0x5678, dataPtr := 0x1000, dataLen := 3 }) := by decide

theorem test_decode_build6Nd :
    decode [0x00000430, 0x20010DB8, 0, 0, 1, 0x20010DB8, 0, 0, 2, 0, 0xFF008700, 0, 0, 0, 0x60000000, 0xFE800000, 0, 0, 2,
        0x01020203, 0x00AABBCC] =
      .ok (.build6Nd { head := { badsum := false, src := src6, dst := dst6, trafficClass := 0, flowLabel := 0, hopLimit := 255,
                                 icmpType := 135, icmpCode := 0 },
                       flags := 0x60000000, target := 0xFE800000000000000000000000000002, optType := 1, optLen := 2,
                       lladdr := 0x020300AABBCC }) := by decide

/-- Each row of spec/opcode_table.json, its operand words zero, decodes and runs as the first operation after reset. -/
theorem test_table_rows_run :
    [0x00000001, 0x00000002, 0x00000010, 0x00000020, 0x00000021, 0x00000030, 0x00000430].all
      (fun w => (decodeTableWord 32 w).isSome && isNext (step (State.reset.withFetchWord 32 w))) = true := by decide

/-! ## One step of each operation (95_test_vectors.md sections 2 to 7) -/

/-- V1.5. -/
theorem test_csum_vector :
    (responseOf (exec (.csum { ptr := 0x1000, length := 8 })
      (given [0x00, 0x01, 0xF2, 0x03, 0xF4, 0xF5, 0xF6, 0xF7] [] []))).map Response.words = some [0x220D0000, 0, 0] := by decide

/-- V1.10, V1.2: an odd length, and a null pointer with a nonzero length. -/
theorem test_csum_odd_and_null :
    (responseOf (exec (.csum { ptr := 0x1000, length := 3 }) (given [0x41, 0x42, 0x43] [] []))).map (·.csum) = some 0x7BBD ∧
    (responseOf (exec (.csum { ptr := 0, length := 5 }) (given [] [] []))).map (·.csum) = some 0xFFFF := by decide

/-- V2.1. -/
theorem test_pcsum6_vector :
    (responseOf (exec (.pcsum6 { src := src6, dst := dst6, upperLen := 12, nextHeader := 58, payloadPtr := 0x1000,
                                 payloadLen := 12 })
      (given [0x80, 0x00, 0x00, 0x00, 0x04, 0xD2, 0x00, 0x01, 0x70, 0x69, 0x6E, 0x67] [] []))).map Response.words =
      some [0x40A00000, 0, 0] := by decide

/-- V2.5, V2.3: `UPPER_LEN` and `NEXT_HEADER` as given; a zero-length payload. -/
theorem test_pcsum6_as_given_and_empty :
    (responseOf (exec (.pcsum6 { src := src6, dst := dst6, upperLen := 8, nextHeader := 17, payloadPtr := 0x1000, payloadLen := 4 })
      (given [0xDE, 0xAD, 0xBE, 0xEF] [] []))).map (·.csum) = some 0x06D4 ∧
    (responseOf (exec (.pcsum6 { src := src6, dst := dst6, upperLen := 12, nextHeader := 58, payloadPtr := 0x1000, payloadLen := 0 })
      (given [] [] []))).map (·.csum) = some 0xFFFF := by decide

/-- V3.2: truncation to the first four bytes. -/
theorem test_needfrag_vector :
    bytesOf 0x2000 8 (exec (.needfrag { mtu := 1400, origPtr := 0x1000, origLen := 4 })
      (given [0x41, 0x42, 0x43, 0x44, 0x45, 0x46, 0x47, 0x48] [.placed 0x2000] [])) =
      some [0x00, 0x00, 0x05, 0x78, 0x41, 0x42, 0x43, 0x44] := by decide

/-- V3.1, V3.6: the response words, and those of an allocation failure. -/
theorem test_needfrag_responses :
    (responseOf (exec (.needfrag { mtu := 1400, origPtr := 0x1000, origLen := 4 })
      (given [0x41, 0x42, 0x43, 0x44] [.placed 0x2000] []))).map Response.words = some [0, 0x2000, 8] ∧
    (responseOf (exec (.needfrag { mtu := 1400, origPtr := 0x1000, origLen := 4 })
      (given [0x41, 0x42, 0x43, 0x44] [.null] []))).map Response.words = some [1, 0, 0] := by decide

/-- The operands of V4.1 and of section 7. -/
def echo4 : Build4Op :=
  { badsum := false, df := false, src := 0xC0000201, dst := 0xC0000202, ttl := 64, tos := 0, ipId := 0, id := 1234, seq := 1,
    icmpType := 8, icmpCode := 0, optPtr := 0, optLen := 0, dataPtr := 0x1000, dataLen := 4 }

/-- V4.1. -/
theorem test_build4_vector :
    bytesOf 0x4000 32 (exec (.build4 echo4) (given ping [.placed 0x4000] [])) =
      some [0x45, 0x00, 0x00, 0x20, 0x00, 0x00, 0x00, 0x00, 0x40, 0x01, 0xF6, 0xD9, 0xC0, 0x00, 0x02, 0x01, 0xC0, 0x00, 0x02, 0x02,
        0x08, 0x00, 0x14, 0x5C, 0x04, 0xD2, 0x00, 0x01, 0x70, 0x69, 0x6E, 0x67] := by decide

/-- V4.4: options, `DF`, an odd data length. -/
theorem test_build4_options :
    bytesOf 0x4000 35 (exec (.build4 { echo4 with df := true, tos := 0x10, ipId := 0xBEEF, id := 0x1234, seq := 2, optPtr := 0x1003,
                                                  optLen := 4, dataLen := 3 })
      (given [0x61, 0x62, 0x63, 0x94, 0x04, 0x00, 0x00] [.placed 0x4000] [])) =
      some [0x46, 0x10, 0x00, 0x23, 0xBE, 0xEF, 0x40, 0x00, 0x40, 0x01, 0x62, 0xD2, 0xC0, 0x00, 0x02, 0x01, 0xC0, 0x00, 0x02, 0x02,
        0x94, 0x04, 0x00, 0x00, 0x08, 0x00, 0x21, 0x67, 0x12, 0x34, 0x00, 0x02, 0x61, 0x62, 0x63] := by decide

/-- The head of V6.1. -/
def head6Ping : Build6Head :=
  { badsum := false, src := src6, dst := dst6, trafficClass := 0, flowLabel := 0, hopLimit := 64, icmpType := 128, icmpCode := 0 }

/-- V6.1. -/
theorem test_build6Echo_vector :
    bytesOf 0x5000 52 (exec (.build6Echo { head := head6Ping, id := 1234, seq := 1, dataPtr := 0x1000, dataLen := 4 })
      (given ping [.placed 0x5000] [])) =
      some [0x60, 0x00, 0x00, 0x00, 0x00, 0x0C, 0x3A, 0x40, 0x20, 0x01, 0x0D, 0xB8, 0x00, 0x00, 0x00, 0x00, 0x00, 0x00, 0x00, 0x00,
        0x00, 0x00, 0x00, 0x01, 0x20, 0x01, 0x0D, 0xB8, 0x00, 0x00, 0x00, 0x00, 0x00, 0x00, 0x00, 0x00, 0x00, 0x00, 0x00, 0x02,
        0x80, 0x00, 0x40, 0xA0, 0x04, 0xD2, 0x00, 0x01, 0x70, 0x69, 0x6E, 0x67] := by decide +kernel

/-- V6.3: the first eight bytes and the ICMP region, with traffic class, flow label, odd data. -/
theorem test_build6Echo_fields :
    bytesOf 0x5000 8 (exec (.build6Echo { head := { head6Ping with trafficClass := 0xAB, flowLabel := 0x12345, hopLimit := 255,
                                                                   icmpType := 129 },
                                          id := 0xFFFF, seq := 0xFFFF, dataPtr := 0x1000, dataLen := 3 })
      (given [0x78, 0x79, 0x7A] [.placed 0x5000] [])) = some [0x6A, 0xB1, 0x23, 0x45, 0x00, 0x0B, 0x3A, 0xFF] ∧
    bytesOf 0x5028 11 (exec (.build6Echo { head := { head6Ping with trafficClass := 0xAB, flowLabel := 0x12345, hopLimit := 255,
                                                                    icmpType := 129 },
                                           id := 0xFFFF, seq := 0xFFFF, dataPtr := 0x1000, dataLen := 3 })
      (given [0x78, 0x79, 0x7A] [.placed 0x5000] [])) =
      some [0x81, 0x00, 0x30, 0xCB, 0xFF, 0xFF, 0xFF, 0xFF, 0x78, 0x79, 0x7A] := by decide

/-- The neighbor solicitation of V6.4. -/
def solicit : Build6NdOp :=
  { head := { badsum := false, src := 0xFE800000000000000000000000000001, dst := 0xFF0200000000000000000001FF000002,
              trafficClass := 0, flowLabel := 0, hopLimit := 255, icmpType := 135, icmpCode := 0 },
    flags := 0, target := 0xFE800000000000000000000000000002, optType := 1, optLen := 1, lladdr := 0x020000AABBCC }

/-- V6.4, the header's first eight bytes and the ICMP region. -/
theorem test_build6Nd_vector :
    bytesOf 0x6000 8 (exec (.build6Nd solicit) (given [] [.placed 0x6000] [])) =
      some [0x60, 0x00, 0x00, 0x00, 0x00, 0x20, 0x3A, 0xFF] ∧
    bytesOf 0x6028 32 (exec (.build6Nd solicit) (given [] [.placed 0x6000] [])) =
      some [0x87, 0x00, 0xBE, 0x21, 0x00, 0x00, 0x00, 0x00, 0xFE, 0x80, 0x00, 0x00, 0x00, 0x00, 0x00, 0x00, 0x00, 0x00, 0x00, 0x00,
        0x00, 0x00, 0x00, 0x02, 0x01, 0x01, 0x02, 0x00, 0x00, 0xAA, 0xBB, 0xCC] := by decide +kernel

/-- V6.5: the advertisement's checksum, flags and option. -/
theorem test_build6Nd_advertisement :
    bytesOf 0x6028 8 (exec (.build6Nd { solicit with
        head := { solicit.head with src := 0xFE800000000000000000000000000002, dst := 0xFE800000000000000000000000000001,
                                    icmpType := 136 },
        flags := 0x60000000, optType := 2 }) (given [] [.placed 0x6000] [])) =
      some [0x88, 0x00, 0x5B, 0xA5, 0x60, 0x00, 0x00, 0x00] := by decide +kernel

/-- The operands of 95_test_vectors.md section 7. -/
def send (mtu : Word) : Send4Op :=
  { badsum := false, df := false, src := 0xC0000201, dst := 0xC0000202, ttl := 64, seq := 1, icmpType := 8, icmpCode := 0,
    optPtr := 0, optLen := 0, dataPtr := 0x1000, dataLen := 4, mtu := mtu, link := 7, fd := 3 }

/-- V5.2 and V5.8: the draws reach the packet; the answer is in the history and in the status. -/
theorem test_send4_transmits :
    historyOf (exec (.send4 (send 1500)) (given ping [.placed 0x4000] [.answered true])) =
      some [{ call := { link := 7, fd := 3,
                        pkt := [0x45, 0x10, 0x00, 0x20, 0xBE, 0xEF, 0x00, 0x00, 0x40, 0x01, 0x37, 0xDA, 0xC0, 0x00, 0x02, 0x01,
                          0xC0, 0x00, 0x02, 0x02, 0x08, 0x00, 0x06, 0xFA, 0x12, 0x34, 0x00, 0x01, 0x70, 0x69, 0x6E, 0x67] },
              answer := true }] ∧
    (responseOf (exec (.send4 (send 1500)) (given ping [.placed 0x4000] [.answered false]))).map Response.words =
      some [2, 0, 0] := by decide

/-- V5.3, V5.4, V5.7: the gate at 32 and 31 bytes, and an allocation failure before it. -/
theorem test_send4_gate :
    (responseOf (exec (.send4 (send 32)) (given ping [.placed 0x4000] [.answered true]))).map (·.status) = some .ok ∧
    (responseOf (exec (.send4 (send 31)) (given ping [.placed 0x4000] [.answered true]))).map (·.status) = some .mtuExceeded ∧
    historyOf (exec (.send4 (send 31)) (given ping [.placed 0x4000] [.answered true])) = some [] ∧
    (responseOf (exec (.send4 (send 31)) (given ping [.null] [.answered true]))).map (·.status) = some .allocFail := by decide

/-! ## Reset, memory -/

theorem test_reset_memory_wf : State.reset.mem.wf := Memory.wf_nil

/-- A write keeps addresses rising, a release removes exactly its own. -/
theorem test_memory_canonical :
    Memory.write [] 5 [0x01, 0x02] = [(5, 0x01), (6, 0x02)] ∧ Memory.set [(5, 0x01), (7, 0x02)] 6 0x03 =
      [(5, 0x01), (6, 0x03), (7, 0x02)] ∧ Memory.drop [(5, 0x01), (6, 0x03), (7, 0x02)] 6 1 = [(5, 0x01), (7, 0x02)] := by decide

/-- An address the allocator may not give is a failure: null, wrapping, populated (R38). -/
theorem test_offered_address_refused :
    [0x00000000, 0xFFFFFFFD, 0x00000FFD].all
      (fun a => decide (allocAnswer 4 (given ping [.placed a] []) = .null)) = true := by decide

/-! ## Witnesses: for each statement with hypotheses, a state and operands that meet them -/

/-- A provided range reads. -/
theorem provided_of_read {m : Memory} {a n : Nat} {bs : List Byte} (h : m.read a n = some bs) : Provided m a n :=
  (provided_iff m a n).mpr ⟨bs, h⟩

/-- A state between commands in which the host holds one live buffer, four bytes at 0x1000. -/
def holding : State :=
  { given ping [] [] with live := [{ addr := 0x1000, len := 4 }] }

theorem holding_live (s : State) (hm : s.mem = holding.mem) (hl : s.live = holding.live) : LiveInv s := by
  refine ⟨?_, ?_, ?_⟩
  · rw [hl]; exact List.pairwise_singleton _ _
  · rw [hl]; decide
  · rw [hl, hm]
    intro b hb
    rw [List.mem_singleton.mp hb]
    exact provided_of_read (bs := ping) (by decide)

theorem holding_mem_wf : holding.mem.wf := by decide

theorem holding_inv (s : State) (hm : s.mem = holding.mem) (hl : s.live = holding.live) (hp : s.phase = .idle)
    (hc : s.captured = none) (ho : s.owned = none) (hs : s.sending = none) : Inv s :=
  ⟨hm ▸ holding_mem_wf, holding_live s hm hl,
    ⟨fun _ => ⟨hc, ho, hs⟩, fun h => absurd (hp.symm.trans h) (by decide), fun b h => absurd (ho.symm.trans h) (by simp),
      fun c h => absurd (hs.symm.trans h) (by simp)⟩⟩

/-- The packet of V5.2 would stand here; any bytes the buffer holds do. -/
def call : TxCall := { link := 7, fd := 3, pkt := ping }

/-- A send in progress whose packet is the live buffer at 0x1000. -/
def waiting (txs : List TxAnswer) (meanwhile : List (Option HostMove)) : State :=
  { holding with phase := .busy, captured := some (encode (.send4 { send 1500 with dataPtr := 0, dataLen := 0 })), sending := some call,
                 owned := some { addr := 0x1000, len := 4 }, txs := txs, meanwhile := meanwhile }

theorem waiting_inv (txs : List TxAnswer) (m : List (Option HostMove)) : Inv (waiting txs m) := by
  refine ⟨holding_mem_wf, holding_live _ rfl rfl, ⟨fun h => (by cases h), fun _ => ⟨rfl, rfl⟩, fun b _ => rfl, fun c h => ?_⟩⟩
  cases h
  exact ⟨_, rfl, List.mem_singleton.mpr rfl, rfl⟩

/-- A CSUM over the four bytes at 0x1000 has been accepted. -/
def summing (m : List (Option HostMove)) : State :=
  { running [0x00000001, 0x00001000, 0x00000004] (given ping [] []) with meanwhile := m }

theorem test_witness_ill_formed :
    let s := running [0x00000101, 0x00001000, 0x00000008] (given ping [] [])
    s.phase = .busy ∧ HostWaits s ∧ s.sending = none ∧ s.captured = some [0x00000101, 0x00001000, 0x00000008] ∧
      wellFormed [0x00000101, 0x00001000, 0x00000008] = false := ⟨rfl, rfl, rfl, rfl, by decide⟩

theorem test_witness_encode_of_decode : ∃ ws i, decode ws = .ok i := ⟨_, _, test_decode_csum⟩

theorem test_witness_reserved_opcode : (0x00000003 : Word).toNat % 256 ∉ [0x01, 0x02, 0x10, 0x20, 0x21, 0x30] := by decide

theorem test_witness_operand_order :
    let l : AsmLine := { mnemonic := "CSUM".toList, operands := [("bytes".toList, "0".toList), ("length".toList, "8".toList)],
                         flags := [], results := none }
    let m := { l with operands := l.operands.reverse }
    l.mnemonic = m.mnemonic ∧ l.operands.Perm m.operands ∧ l.flags = m.flags ∧ l.results = m.results ∧
      (assembleLine [] l).isSome = true := by decide +kernel

/-- The host's list of turns may be empty, or say that it waits at this step. -/
theorem test_witness_step_runs_decoded :
    [([] : List (Option HostMove)), [none, some .reset]].all (fun m =>
      decide ((summing m).phase = .busy) && decide ((summing m).meanwhile.head?.join = none) && (summing m).sending.isNone &&
        (decode ((summing m).captured.getD [])).toBool) = true := by decide

theorem test_witness_host_moves :
    let s := fun mv : HostMove => { holding with host := [mv] }
    (s (.present [0x00000001, 0x00001000, 0x00000004])).phase = .idle ∧
      (s (.present [0x00000001, 0x00001000, 0x00000004])).host = .present [0x00000001, 0x00001000, 0x00000004] :: [] ∧
      (s .reset).host = .reset :: [] ∧ (s (.store 0xFFFFFFFF 0x01)).host = .store 0xFFFFFFFF 0x01 :: [] := by decide

theorem test_witness_idle : State.reset.phase = .idle ∧ State.reset.host = [] := ⟨rfl, rfl⟩

theorem test_witness_host_free :
    let s := { holding with host := [.free 0x1000] }
    Inv s ∧ s.phase = .idle ∧ s.host = .free ({ addr := 0x1000, len := 4 } : Buffer).addr :: [] ∧
      ({ addr := 0x1000, len := 4 } : Buffer) ∈ s.live :=
  ⟨holding_inv _ rfl rfl rfl rfl rfl rfl, rfl, rfl, List.mem_singleton.mpr rfl⟩

/-- From a state that holds a live buffer, a step that changes something. -/
theorem test_witness_step_keeps_invariant :
    ∃ s t, Inv s ∧ step s = .next t ∧ t.live ≠ s.live :=
  ⟨{ holding with host := [.free 0x1000] }, _, holding_inv _ rfl rfl rfl rfl rfl rfl, rfl, by decide⟩

/-- An accepted command in contract while the host stores beside its operand. -/
theorem test_witness_good_state :
    let s := { summing [some (.store 0x1004 0x01)] with live := holding.live }
    Inv s ∧ HostOk s ∧ ∀ ws i, s.captured = some ws → decode ws = .ok i → InContract i s := by
  refine ⟨⟨holding_mem_wf, holding_live _ rfl rfl, ⟨fun h => (by cases h), fun _ => ⟨rfl, rfl⟩, fun b h => (by cases h),
    fun c h => (by cases h)⟩⟩, ⟨fun a rest h => (by cases h), fun mv rest _ h => ?_⟩, fun ws i h hd => ?_⟩
  · cases h; exact (by decide : touches 0x1004 1 [(0x1000, 4)] = false)
  · cases h; cases hd
    exact .inr (.inr ⟨by decide, provided_of_read (bs := ping) (by decide)⟩)

/-- The host's store and release beside the running command's operands, at the last free addresses; a store into the buffer a waiting
SEND4 owns. -/
theorem test_witness_host_acts_while_busy :
    let i : Instr := .csum { ptr := 0x1000, length := 4 }
    let s := summing [some (.store 0x1004 0x01)]
    let u := { summing [some (.free 0x1004)] with mem := Memory.write [] 0x1000 (ping ++ ping), live := [{ addr := 0x1004, len := 4 }] }
    let w := waiting [.silent] [some (.store 0x1000 0x01)]
    (s.phase = .busy ∧ s.captured = some (encode i) ∧ decode (encode i) = .ok i ∧ s.meanwhile = some (.store 0x1004 0x01) :: [] ∧
      ∀ r ∈ operandBuffers i, r.1 ≠ 0 → (0x1004 : Word).toNat < r.1.toNat ∨ r.1.toNat + r.2 ≤ (0x1004 : Word).toNat) ∧
    (u.phase = .busy ∧ u.captured = some (encode i) ∧ u.meanwhile = some (.free 0x1004) :: [] ∧ LiveInv u ∧
      ({ addr := 0x1004, len := 4 } : Buffer) ∈ u.live ∧ u.owned ≠ some { addr := 0x1004, len := 4 } ∧
      (∀ r ∈ operandBuffers i, r.1 ≠ 0 → 0x1004 + 4 ≤ r.1.toNat ∨ r.1.toNat + r.2 ≤ 0x1004)) ∧
    (w.owned = some { addr := 0x1000, len := 4 } ∧ w.sending = some call ∧
      bytesOf 0x1000 4 (step w) = some [0x01, 0x69, 0x6E, 0x67]) := by
  refine ⟨⟨rfl, by decide, by decide, rfl, by decide⟩, ⟨rfl, by decide, rfl,
    ⟨List.pairwise_singleton _ _, by decide, fun b hb => ?_⟩, by decide, by decide, by decide⟩, rfl, rfl, by decide⟩
  rw [List.mem_singleton.mp hb]
  exact provided_of_read (bs := ping) (by decide)

/-- A breach of each kind: a command presented, the operand's last byte written, the operand freed. -/
theorem test_witness_host_breaches :
    let i : Instr := .csum { ptr := 0x1000, length := 4 }
    let s := fun mv : HostMove => { summing [some mv] with live := holding.live }
    decode (encode i) = .ok i ∧ ((0x1000 : Word), 4) ∈ operandBuffers i ∧ (0x1000 : Word) ≠ 0 ∧
      (∀ mv, (s mv).phase = .busy ∧ (s mv).captured = some (encode i) ∧ (s mv).meanwhile = some mv :: [] ∧ LiveInv (s mv)) ∧
      ((0x1000 : Word).toNat ≤ (0x1003 : Word).toNat ∧ (0x1003 : Word).toNat < (0x1000 : Word).toNat + 4) ∧
      ({ addr := 0x1000, len := 4 } : Buffer) ∈ (s (.free 0x1000)).live ∧
      (s (.free 0x1000)).owned ≠ some { addr := 0x1000, len := 4 } ∧
      ∃ x, (0x1000 : Word).toNat ≤ x ∧ x < (0x1000 : Word).toNat + 4 := by
  refine ⟨by decide, by decide, by decide, fun mv => ⟨rfl, ?_, rfl, holding_live _ rfl rfl⟩, by decide, by decide, by decide, 0x1000,
    by decide, by decide⟩
  exact congrArg some (by decide : [0x00000001, 0x00001000, 0x00000004] = encode (.csum { ptr := 0x1000, length := 4 }))

/-- A command presented while BUILD6.ND runs, which has no operand buffer, and while an ill-formed descriptor is captured. -/
theorem test_present_while_busy :
    [running (encode (.build6Nd { head := { badsum := false, src := src6, dst := dst6, trafficClass := 0, flowLabel := 0, hopLimit := 255,
                                            icmpType := 135, icmpCode := 0 },
                                  flags := 0, target := dst6, optType := 1, optLen := 1, lladdr := 0x020000AABBCC })) State.reset,
      running [0x00000003] State.reset].all
      (fun s => decide (s.phase = .busy) &&
        decide (refusalOf (step { s with meanwhile := [some (.present [0x00000001])] }) = some .presentWhileBusy)) = true := by decide

/-- The host frees the buffer a waiting SEND4 owns. -/
theorem test_witness_free_of_owned :
    let s := waiting [.silent] [some (.free 0x1000)]
    s.phase = .busy ∧ LiveInv s ∧ ({ addr := 0x1000, len := 4 } : Buffer) ∈ s.live ∧ s.owned = some { addr := 0x1000, len := 4 } ∧
      refusalOf (step s) = some .freeOfOwnedBuffer :=
  ⟨rfl, holding_live _ rfl rfl, List.mem_singleton.mpr rfl, rfl, by decide⟩

/-- A reset while SEND4 waits for the transmitter: refused as a move, and the premises of what R181 says of it. -/
theorem test_witness_reset_abandons :
    let s := waiting [.silent] [some .reset]
    Inv s ∧ s.phase = .busy ∧ s.meanwhile = some .reset :: [] ∧ refusalOf (step s) = some .resetWhileBusy ∧
      ∀ ws i, s.captured = some ws → decode ws = .ok i → InContract i s := by
  refine ⟨waiting_inv _ _, rfl, rfl, rfl, fun ws i h hd => ?_⟩
  cases h
  have e : decode (encode (.send4 { send 1500 with dataPtr := 0, dataLen := 0 })) =
      .ok (.send4 { send 1500 with dataPtr := 0, dataLen := 0 }) := by decide
  cases e.symm.trans hd
  exact ⟨by decide, by decide, by decide, .inl rfl, .inl rfl⟩

/-- A NEEDFRAG that reaches one byte too far is no better with a reset. -/
theorem test_witness_reset_out_of_contract :
    let i : Instr := .needfrag { mtu := 1400, origPtr := 0x1000, origLen := 5 }
    let s := running (encode i) (given ping [.placed 0x4000] [])
    s.sending = none ∧ s.captured = some (encode i) ∧ decode (encode i) = .ok i ∧ ¬ InContract i s ∧
      refusalOf (abandon s) = some .operandNotProvided := by
  refine ⟨rfl, rfl, by decide, ?_, by decide⟩
  rintro (h | ⟨-, -, h⟩)
  · exact absurd h (by decide)
  · exact absurd (h 0x1004 (by decide) (by decide)) (by decide)

/-- A flag written twice is one flag (log entry 31); a part of an address with too many digits, and an arrow without blanks, name no
command. -/
theorem test_text_choices :
    let ping := fun (src flags : String) => assemble [] ("BUILD4 src=" ++ src ++ " dst=192.0.2.2 ttl=64 ip_id=0 tos=0 ip_options=0 " ++
      "ip_options_len=0 seq=1 id=2 type=8 code=0 data=0 data_len=0 " ++ flags)
    ping "192.0.2.1" "df df" = ping "192.0.2.1" "df" ∧ (ping "192.0.002.001" "").isSome = true ∧ ping "192.0.0002.1" "" = none ∧
      ping "192.0.2.1" "df ->buf" = none := by decide +kernel

/-- What R181 allows a SEND4 in contract to leave: nothing; a live buffer; a live buffer and one attempt; one attempt, its buffer freed. -/
theorem test_left_behind :
    let s := running (encode (.send4 (send 32))) (given ping [.placed 0x4000] [.answered true])
    let left := fun p => match blockStep s with
      | .next t => some ((leftBehind p s t).live, (leftBehind p s t).history.map (·.answer))
      | _ => none
    left .untouched = some ([], []) ∧ left .allocated = some ([{ addr := 0x4000, len := 32 }], []) ∧
      left .sent = some ([{ addr := 0x4000, len := 32 }], [true]) ∧ left .ran = some ([], [true]) := by decide +kernel

/-- One command outside the contract for each clause of R166, at the first value outside. -/
theorem test_witness_contract_violations :
    let s := given ping [] []
    refusalOf (exec (.build4 { echo4 with dataLen := 1501 }) s) = some .payloadOverMax ∧
      refusalOf (exec (.send4 { send 1500 with dataLen := 1501 }) s) = some .payloadOverMax ∧
      refusalOf (exec (.build4 { echo4 with optPtr := 0x1000, optLen := 3 }) s) = some .optionLength ∧
      refusalOf (exec (.send4 { send 1500 with optPtr := 0x1000, optLen := 44 }) s) = some .optionLength ∧
      refusalOf (exec (.needfrag { mtu := 1400, origPtr := 0, origLen := 1 }) s) = some .operandNull ∧
      refusalOf (exec (.needfrag { mtu := 1400, origPtr := 0xFFFFFFFF, origLen := 2 }) s) = some .operandWraps ∧
      refusalOf (exec (.needfrag { mtu := 1400, origPtr := 0x1000, origLen := 5 }) s) = some .operandNotProvided ∧
      refusalOf (exec (.build4 { echo4 with optPtr := 0x1004, optLen := 4 }) s) = some .operandNotProvided ∧
      refusalOf (exec (.send4 { send 1500 with optPtr := 0x1004, optLen := 4 }) s) = some .operandNotProvided ∧
      refusalOf (exec (.build4 { echo4 with dataLen := 5 }) s) = some .operandNotProvided ∧
      refusalOf (exec (.send4 { send 1500 with dataLen := 5 }) s) = some .operandNotProvided := by decide +kernel

/-- The clauses of R166(c), (d) for BUILD6.ECHO and of R166(e). -/
theorem test_witness_contract_violations_ranges :
    let s := given ping [] []
    (0xFFFF : Half).toNat > Config.echoDataMax ∧ (28 : Half).toNat ≤ Config.echoDataMax ∧
      opbuf s 0x1000 (28 : Half).toNat = .error .operandNotProvided ∧
      refusalOf (exec (.csum { ptr := 0xFFFFFFFF, length := 2 }) s) = some .rangeWraps ∧
      refusalOf (exec (.csum { ptr := 0x1000, length := 5 }) s) = some .rangeNotProvided ∧
      refusalOf (exec (.pcsum6 { src := 0, dst := 0, upperLen := 0, nextHeader := 0, payloadPtr := 0xFFFFFFFF, payloadLen := 2 }) s) =
        some .rangeWraps ∧
      refusalOf (exec (.pcsum6 { src := 0, dst := 0, upperLen := 0, nextHeader := 0, payloadPtr := 0x0FFF, payloadLen := 4 }) s) =
        some .rangeNotProvided := by
  have h : Config.echoDataMax = Config.echoRoom.val + 28 := rfl
  have hr := Config.echoRoom.isLt
  refine ⟨?_, ?_, by decide, by decide, by decide, by decide, by decide⟩
  · rw [h]; change 65535 > _; omega
  · rw [h]; change 28 ≤ _; omega

/-- Each case of `opbuf`, at the values where the cases meet: the last address of the space is reached without wrapping. -/
theorem test_witness_operand_buffer_cases :
    let s := given ping [] []
    let top := { s with mem := [(0xFFFFFFFF, 0x55)] }
    opbuf s 0 0 = .ok [] ∧ opbuf s 0 1 = .error .operandNull ∧ opbuf top 0xFFFFFFFF 2 = .error .operandWraps ∧
      opbuf s 0x1000 5 = .error .operandNotProvided ∧ opbuf top 0xFFFFFFFF 1 = .ok [0x55] := by decide

/-- Both sides of the carry of `ocadd16`, at their boundary. -/
theorem test_witness_end_around_carry :
    ocadd16 0xFFFF 0xFFFF = 0xFFFF ∧ ocadd16 0xFFFF 0x0001 = 0x0001 ∧ ocadd16 0xFFFE 0x0001 = 0xFFFF ∧ ocadd16 0 0 = 0 := by decide

/-- An odd number of bytes: two words, the last byte the high byte of the second. -/
theorem test_witness_words :
    ([0x41, 0x42, 0x43] : List Byte)[2 * 0]? = some 0x41 ∧ ([0x41, 0x42, 0x43] : List Byte)[2 * 0 + 1]? = some 0x42 ∧
      ([0x41, 0x42, 0x43] : List Byte).length % 2 = 1 ∧ words [0x41, 0x42, 0x43] = [0x4142, 0x4300] := by decide

theorem test_witness_word_order :
    (∀ w ∈ [0xFFFF, 0x0001, 0x8000], w ≤ 0xFFFF) ∧ [0xFFFF, 0x0001, 0x8000].Perm [0x8000, 0xFFFF, 0x0001] := by decide

/-- V1.5 with a checksum field appended at an even offset (V1.13). -/
theorem test_witness_self_verification :
    let s : List Byte := [0x00, 0x01, 0xF2, 0x03, 0xF4, 0xF5, 0xF6, 0xF7, 0x00, 0x00]
    8 % 2 = 0 ∧ 8 + 2 ≤ s.length ∧ s[8]? = some 0 ∧ s[8 + 1]? = some 0 ∧ cksum s = 0x220D := by decide

/-- The clauses of the two checksum results: null, zero length, a range up to the last provided byte, one past it. -/
theorem test_witness_checksum_results :
    let s := given ping [] []
    (0x1000 : Word) ≠ 0 ∧ (4 : Word) ≠ 0 ∧ (0x1000 : Word).toNat + (4 : Word).toNat ≤ 2 ^ 32 ∧
      s.mem.read (0x1000 : Word).toNat (4 : Word).toNat = some ping ∧ ¬ RangeOk s 0x1000 (5 : Word).toNat := by
  refine ⟨by decide, by decide, by decide, by decide, ?_⟩
  rintro (h | h | ⟨-, h⟩)
  · exact absurd h (by decide)
  · exact absurd h (by decide)
  · exact absurd (h 0x1004 (by decide) (by decide)) (by decide)

/-- Two different states whose ranges hold the same bytes; the checksum operations complete in both. -/
theorem test_witness_checksum_pure :
    let s := given ping [] []
    let s' := { given (ping ++ ping) [.null] [] with ticks := 7 }
    (∀ x, (0x1000 : Word).toNat ≤ x → x < (0x1000 : Word).toNat + (4 : Word).toNat → s.mem.get? x = s'.mem.get? x) ∧
      isNext (exec (.csum { ptr := 0x1000, length := 4 }) s) = true ∧
      isNext (exec (.pcsum6 { src := src6, dst := dst6, upperLen := 4, nextHeader := 58, payloadPtr := 0x1000, payloadLen := 4 }) s) =
        true := by
  refine ⟨fun x h1 h2 => ?_, by decide, by decide⟩
  have h1 : 0x1000 ≤ x := h1
  have h2 : x < 0x1000 + 4 := h2
  rcases (by omega : x = 0x1000 ∨ x = 0x1001 ∨ x = 0x1002 ∨ x = 0x1003) with rfl | rfl | rfl | rfl <;> decide

/-- The premises of the four builders' results: operands read, the allocator answers with an address it may give. -/
theorem test_witness_builders :
    let s := given ping [.placed 0x2000] []
    opbuf s 0x1000 (4 : Half).toNat = .ok ping ∧ allocAnswer (4 + (4 : Half).toNat) s = .placed 0x2000 ∧
      opbuf s 0 (0 : Half).toNat = .ok [] ∧ allocAnswer (20 + (0 : Half).toNat + 8 + (4 : Half).toNat) s = .placed 0x2000 ∧
      (4 : Half).toNat ≤ Config.echoDataMax ∧ allocAnswer (48 + (4 : Half).toNat) s = .placed 0x2000 ∧
      allocAnswer 72 s = .placed 0x2000 := by
  refine ⟨by decide, by decide, by decide, by decide, ?_, by decide, by decide⟩
  have h : Config.echoDataMax = Config.echoRoom.val + 28 := rfl
  rw [h]; change 4 ≤ _; omega

/-- The largest BUILD4 in contract (V4.6) meets the lengths' premises. -/
theorem test_witness_build4_largest :
    let s := { State.reset with mem := Memory.write [] 0x1000 (List.replicate 44 0), allocs := [.placed 0x4000] }
    (40 : Half).toNat % 4 = 0 ∧ (40 : Half).toNat ≤ 40 ∧ (1500 : Half).toNat ≤ 1500 ∧
      opbuf s 0x1000 (40 : Half).toNat = .ok (List.replicate 40 0) ∧
      allocAnswer (20 + (40 : Half).toNat + 8 + (1500 : Half).toNat) s = .placed 0x4000 := by decide +kernel

theorem echo4_inContract {s : State} (hm : s.mem = Memory.write [] 0x1000 ping) : InContract (.build4 echo4) s := by
  refine ⟨by decide, by decide, by decide, .inl rfl, .inr ⟨by decide, by decide, ?_⟩⟩
  rw [hm]
  exact provided_of_read (bs := ping) (by decide)

theorem send_inContract {s : State} (hm : s.mem = Memory.write [] 0x1000 ping) (mtu : Word) : InContract (.send4 (send mtu)) s :=
  echo4_inContract hm

/-- For an allocation failure, a silent allocator and a fresh placement: a BUILD4 in contract and each answer. -/
theorem test_witness_allocator_answers :
    request (.build4 echo4) = some 32 ∧ (∀ r, InContract (.build4 echo4) (given ping r [])) ∧
      allocAnswer 32 (given ping [.null] []) = .null ∧ allocAnswer 32 (given ping [.silent] []) = .silent ∧
      allocAnswer 32 (given ping [.placed 0x4000] []) = .placed 0x4000 := by
  refine ⟨by decide, fun r => echo4_inContract rfl, by decide, by decide, by decide⟩

/-- A live buffer, and a command that completes beside it. -/
theorem test_witness_populated_kept :
    let s := { given ping [.placed 0x4000] [] with live := holding.live }
    LiveInv s ∧ isNext (exec (.build4 echo4) s) = true := ⟨holding_live _ rfl rfl, by decide⟩

/-- The premises of the BADSUM difference and of the round trip. -/
theorem test_witness_build4_badsum :
    let s := given ping [.placed 0x4000] []
    echo4.badsum = false ∧ InContract (.build4 echo4) s ∧
      allocAnswer (28 + echo4.optLen.toNat + echo4.dataLen.toNat) s = .placed 0x4000 := ⟨rfl, echo4_inContract rfl, by decide⟩

theorem test_witness_build6_verifies : head6Ping.badsum = false := rfl

/-- SEND4 past the gate, at the largest length it lets through, for both answers. -/
theorem test_witness_send4_answered :
    let s := fun ok => given ping [.placed 0x4000] [.answered ok]
    (∀ ok, (s ok).mem.wf ∧ LiveInv (s ok) ∧ opbuf (s ok) 0x1000 (4 : Half).toNat = .ok ping ∧
      allocAnswer (28 + (0 : Half).toNat + (4 : Half).toNat) (s ok) = .placed 0x4000 ∧
      nextTx (popAlloc (popDraw (s ok))) = .answered ok) ∧ 28 + (0 : Half).toNat + (4 : Half).toNat ≤ (32 : Word).toNat := by
  refine ⟨fun ok => ⟨(by decide : Memory.wf (Memory.write [] 0x1000 ping)), ⟨List.Pairwise.nil, fun b hb => (by cases hb),
    fun b hb => (by cases hb)⟩, (by cases ok <;> decide), (by cases ok <;> decide), rfl⟩, by decide⟩

/-- SEND4 stopped by the gate, one byte too long; and waiting for the transmitter, at the largest length the gate lets through. -/
theorem test_witness_send4_gate_and_wait :
    let s := given ping [.placed 0x4000] [.silent]
    s.mem.wf ∧ LiveInv s ∧ InContract (.send4 (send 31)) s ∧ InContract (.send4 (send 32)) s ∧
      allocAnswer (28 + (send 31).optLen.toNat + (send 31).dataLen.toNat) s = .placed 0x4000 ∧
      (31 : Word).toNat < 28 + (send 31).optLen.toNat + (send 31).dataLen.toNat ∧
      28 + (send 32).optLen.toNat + (send 32).dataLen.toNat ≤ (32 : Word).toNat ∧ nextTx (popAlloc (popDraw s)) = .silent ∧
      opbuf s (send 32).optPtr (send 32).optLen.toNat = .ok [] ∧ opbuf s (send 32).dataPtr (send 32).dataLen.toNat = .ok ping :=
  ⟨by decide, ⟨List.Pairwise.nil, fun b hb => (by cases hb), fun b hb => (by cases hb)⟩, send_inContract rfl 31, send_inContract rfl 32,
    by decide, by decide, by decide, by decide, by decide, by decide⟩

/-- A send in progress under each answer of the transmitter. -/
theorem test_witness_send_in_progress :
    ∀ r : TxAnswer, (waiting [r] []).phase = .busy ∧ HostWaits (waiting [r] []) ∧ (waiting [r] []).sending = some call ∧
      (waiting [r] []).owned = some { addr := 0x1000, len := 4 } ∧ nextTx (waiting [r] []) = r :=
  fun _ => ⟨rfl, rfl, rfl, rfl, rfl⟩

/-- SEND4 answers in a state without a pending response, with each status. -/
theorem test_witness_send4_statuses :
    (given ping [.placed 0x4000] [.answered true]).response = none ∧
      (responseOf (exec (.send4 (send 32)) (given ping [.placed 0x4000] [.answered false]))).map (·.status) = some .txFail ∧
      (responseOf (exec (.send4 (send 32)) (given ping [.placed 0x4000] [.answered true]))).map (·.status) = some .ok := by
  decide +kernel

/-- An operation of each kind that completes with a response where none was pending: the premises of the statements about every
operation. -/
theorem test_witness_whole_machine :
    let s := given ping [.placed 0x4000] [.answered true]
    s.response = none ∧ isNext (exec (.csum { ptr := 0x1000, length := 4 }) s) = true ∧ isNext (exec (.build4 echo4) s) = true ∧
      isNext (exec (.send4 (send 32)) s) = true := by decide +kernel

/-- Two states with different histories and live sets, alike in what a command depends on. -/
theorem test_witness_no_state_across_commands :
    let s := given ping [.placed 0x4000] [.answered true]
    let s' := { s with history := [{ call := call, answer := false }], live := holding.live }
    s.mem = s'.mem ∧ s.allocs = s'.allocs ∧ s.txs = s'.txs ∧ s.draws = s'.draws ∧ s.ticks = s'.ticks ∧ s.response = none ∧
      s'.response = none ∧ s.history ≠ s'.history ∧ isNext (exec (.send4 (send 32)) s) = true := by decide +kernel

end Sys2Proof.Tests
end

section
/-! The layout of the response words (30_encoding.md R64). -/

namespace Sys2Proof.Machine

/-- Settles O9: R0 packs CSUM, a zero byte and STATUS, and each field of a packing of three is read back by the law of its place. -/
theorem responseWordLayout : Obligations.ResponseWordLayout := by
  unfold Obligations.ResponseWordLayout
  intro r
  refine ⟨r.csum ++ 0#8 ++ r.status.code, rfl, ?status, ?zero, ?csum⟩
  case status => exact extract_low (r.csum ++ 0#8) r.status.code
  case zero => exact extract_mid r.csum 0#8 r.status.code
  case csum => exact extract_high_of_three r.csum 0#8 r.status.code

end Sys2Proof.Machine
end

section
/-! One's-complement arithmetic (40_checksum.md R70 to R73): the end-around-carry sum, the words of a byte sequence, the checksum. -/

namespace Sys2Proof.Machine

/-! ## `ocadd16` -/

theorem ocadd16_of_carry {a b : Nat} (h : a + b > 0xFFFF) : ocadd16 a b = a + b - 0xFFFF := if_pos h

theorem ocadd16_of_no_carry {a b : Nat} (h : a + b ≤ 0xFFFF) : ocadd16 a b = a + b := if_neg (Nat.not_lt.mpr h)

/-- What an end-around-carry addition can answer: the sum as it is, or the sum with its carry brought back. -/
theorem ocadd16_cases (a b : Nat) :
    (a + b ≤ 0xFFFF ∧ ocadd16 a b = a + b) ∨ (0xFFFF < a + b ∧ ocadd16 a b = a + b - 0xFFFF) := by
  rcases Nat.lt_or_ge 0xFFFF (a + b) with h | h
  · exact .inr ⟨h, ocadd16_of_carry h⟩
  · exact .inl ⟨h, ocadd16_of_no_carry h⟩

theorem ocadd16_le {a b : Nat} (ha : a ≤ 0xFFFF) (hb : b ≤ 0xFFFF) : ocadd16 a b ≤ 0xFFFF := by
  rcases ocadd16_cases a b with ⟨_, e⟩ | ⟨_, e⟩ <;> omega

theorem ocadd16_eq_zero_iff (a b : Nat) : ocadd16 a b = 0 ↔ a = 0 ∧ b = 0 := by
  rcases ocadd16_cases a b with ⟨_, e⟩ | ⟨_, e⟩ <;> omega

/-- The wrapped 16-bit sum plus the carry bit (R70). -/
theorem ocadd16_eq_mod_add_one {a b : Nat} (ha : a ≤ 0xFFFF) (hb : b ≤ 0xFFFF) (h : a + b > 0xFFFF) :
    ocadd16 a b = (a + b) % 0x10000 + 1 := by
  rw [ocadd16_of_carry h]
  omega

theorem ocadd16_comm (a b : Nat) : ocadd16 a b = ocadd16 b a := by simp only [ocadd16, Nat.add_comm]

/-- Both ways of bracketing bring back as many carries as `a + b + c` has; the range of the outer operands is what forbids a
carry one way and none the other. -/
theorem ocadd16_assoc {a b c : Nat} (ha : a ≤ 0xFFFF) (hc : c ≤ 0xFFFF) :
    ocadd16 (ocadd16 a b) c = ocadd16 a (ocadd16 b c) := by
  have hab := ocadd16_cases a b
  have hbc := ocadd16_cases b c
  have hleft := ocadd16_cases (ocadd16 a b) c
  have hright := ocadd16_cases a (ocadd16 b c)
  omega

/-- Settles O29: the two cases of the carry decide every clause. -/
theorem endAroundCarryAddition : Obligations.EndAroundCarryAddition := by
  intro a b c ha hb hc
  exact ⟨fun h => ⟨ocadd16_of_carry h, ocadd16_eq_mod_add_one ha hb h⟩, ocadd16_of_no_carry, ocadd16_le ha hb,
    ocadd16_eq_zero_iff a b, ocadd16_comm a b, ocadd16_assoc ha hc⟩

/-! ## The words of a byte sequence -/

theorem words_length (s : List Byte) : (words s).length = (s.length + 1) / 2 := by
  induction s using words.induct with
  | case1 => rfl
  | case2 b => simp [words]
  | case3 hi lo rest ih =>
    rw [words, List.length_cons, ih, List.length_cons, List.length_cons]
    omega

theorem words_getElem?_pair {s : List Byte} {i : Nat} {hi lo : Byte} (h : s[2 * i]? = some hi) (l : s[2 * i + 1]? = some lo) :
    (words s)[i]? = some (256 * hi.toNat + lo.toNat) := by
  induction s using words.induct generalizing i with
  | case1 => cases h
  | case2 b => cases l
  | case3 x y rest ih =>
    cases i with
    | zero => cases h; cases l; rfl
    | succ i => exact ih h l

theorem words_getElem?_odd {s : List Byte} {b : Byte} (ho : s.length % 2 = 1) (h : s[s.length - 1]? = some b) :
    (words s)[s.length / 2]? = some (256 * b.toNat) := by
  induction s using words.induct with
  | case1 => cases ho
  | case2 x => cases h; simp [words]
  | case3 x y rest ih =>
    have ho' : rest.length % 2 = 1 := (Nat.add_mod_right rest.length 2).symm.trans ho
    have hlast : rest[rest.length - 1]? = some b := by
      obtain ⟨n, hn⟩ : ∃ n, rest.length = n + 1 := ⟨rest.length - 1, by omega⟩
      simpa [hn] using h
    have hhalf : (x :: y :: rest).length / 2 = rest.length / 2 + 1 := Nat.add_div_right _ two_pos
    rw [hhalf]
    exact ih ho' hlast

/-- Settles O30, by recursion two bytes at a time, as `words` recurses. -/
theorem wordsInNetworkOrder : Obligations.WordsInNetworkOrder :=
  fun s => ⟨words_length s, fun _ _ _ => words_getElem?_pair, fun _ => words_getElem?_odd⟩

theorem words_le {s : List Byte} : ∀ w ∈ words s, w ≤ 0xFFFF := by
  induction s using words.induct with
  | case1 => exact fun _ hw => absurd hw List.not_mem_nil
  | case2 b =>
    intro w hw
    rw [List.mem_singleton.mp hw]
    omega
  | case3 hi lo rest ih =>
    refine List.forall_mem_cons.mpr ⟨?_, ih⟩
    omega

/-! ## The checksum -/

theorem foldl_ocadd16_le {ws : List Nat} {acc : Nat} (hacc : acc ≤ 0xFFFF) (hws : ∀ w ∈ ws, w ≤ 0xFFFF) :
    ws.foldl ocadd16 acc ≤ 0xFFFF := by
  induction ws generalizing acc with
  | nil => exact hacc
  | cons w ws ih =>
    obtain ⟨hw, hws⟩ := List.forall_mem_cons.mp hws
    exact ih (ocadd16_le hacc hw) hws

theorem ocsum_le (s : List Byte) : ocsum s ≤ 0xFFFF := foldl_ocadd16_le (Nat.zero_le _) words_le

theorem cksum_toNat (s : List Byte) : (cksum s).toNat = 0xFFFF - ocsum s :=
  Nat.mod_eq_of_lt (by omega)

theorem cksum_eq_not (s : List Byte) : cksum s = ~~~ BitVec.ofNat 16 (ocsum s) := by
  have hsum : (BitVec.ofNat 16 (ocsum s)).toNat = ocsum s := Nat.mod_eq_of_lt (Nat.lt_succ_of_le (ocsum_le s))
  apply BitVec.eq_of_toNat_eq
  rw [cksum_toNat, BitVec.toNat_not, hsum]

/-- Settles O32: a sum of 16-bit words is one, so its complement is 0xFFFF minus it. -/
theorem checksumIsComplement : Obligations.ChecksumIsComplement :=
  ⟨fun s => ⟨ocsum_le s, cksum_toNat s, cksum_eq_not s⟩, rfl⟩

end Sys2Proof.Machine
end

section
/-! CSUM and PCSUM6 (40_checksum.md R76 to R79): one shape of operation over a byte range, once for both. -/

namespace Sys2Proof.Machine

open Sys2Proof.Safety

/-! ## The byte range, case by case -/

theorem byteRange_of_empty (s : State) {p n : Word} (h : p = 0 ∨ n = 0) : byteRange s p n.toNat = .ok none :=
  (byteRange_ok_iff ..).mpr (.inl ⟨h.imp_right (congrArg BitVec.toNat), rfl⟩)

theorem byteRange_of_read {s : State} {p n : Word} {bs : List Byte} (hp : p ≠ 0) (hn : n ≠ 0) (hw : p.toNat + n.toNat ≤ 2 ^ 32)
    (hr : s.mem.read p.toNat n.toNat = some bs) : byteRange s p n.toNat = .ok (some bs) :=
  (byteRange_ok_iff ..).mpr (.inr ⟨hp, fun h => hn (BitVec.eq_of_toNat_eq h), hw, bs, hr, rfl⟩)

theorem byteRange_of_not_rangeOk {s : State} {p : Word} {n : Nat} (h : ¬ RangeOk s p n) : ∃ r, byteRange s p n = .error r := by
  cases hb : byteRange s p n with
  | error r => exact ⟨r, rfl⟩
  | ok o => exact absurd ((byteRange_isOk_iff ..).mp ⟨o, hb⟩) h

/-! ## The two operations -/

/-- What a checksum operation does with its byte range, `f` the checksum of the bytes (R76, R78, R79). -/
def sumOutcome (f : List Byte → Half) (s : State) : Except Refusal (Option (List Byte)) → Host.Outcome State Fault Refusal
  | .error r => .refused r
  | .ok none => .next (respondSum 0xFFFF s)
  | .ok (some bs) => .next (respondSum (f bs) s)

theorem exec_csum_eq (d : CsumOp) (s : State) :
    exec (.csum d) s = sumOutcome cksum s (byteRange s d.ptr d.length.toNat) := by
  simp only [exec, execCsum]
  rcases byteRange s d.ptr d.length.toNat with r | _ | bs <;> rfl

theorem exec_pcsum6_eq (d : Pcsum6Op) (s : State) :
    exec (.pcsum6 d) s =
      sumOutcome (pcsum6 d.src d.dst d.upperLen d.nextHeader) s (byteRange s d.payloadPtr d.payloadLen.toNat) := by
  simp only [exec, execPcsum6]
  rcases byteRange s d.payloadPtr d.payloadLen.toNat with r | _ | bs <;> rfl

/-- A checksum response completes its command and leaves everything else as it was. -/
theorem respondSum_completes (c : Half) (s : State) :
    Delivered { status := .ok, csum := c, buf := 0, len := 0 } (respondSum c s) ∧ EnvKept s (respondSum c s) ∧
      InputsKept s (respondSum c s) := by
  simp [Delivered, EnvKept, InputsKept]

section SumOutcome

variable (f : List Byte → Half) {s : State} {p n : Word}

theorem sumOutcome_of_empty (h : p = 0 ∨ n = 0) :
    ∃ t, sumOutcome f s (byteRange s p n.toNat) = .next t ∧
      Delivered { status := .ok, csum := 0xFFFF, buf := 0, len := 0 } t ∧ EnvKept s t ∧ InputsKept s t := by
  rw [byteRange_of_empty s h]
  exact ⟨_, rfl, respondSum_completes 0xFFFF s⟩

theorem sumOutcome_of_read (hp : p ≠ 0) (hn : n ≠ 0) (hw : p.toNat + n.toNat ≤ 2 ^ 32) {bs : List Byte}
    (hr : s.mem.read p.toNat n.toNat = some bs) :
    ∃ t, sumOutcome f s (byteRange s p n.toNat) = .next t ∧
      Delivered { status := .ok, csum := f bs, buf := 0, len := 0 } t ∧ EnvKept s t ∧ InputsKept s t := by
  rw [byteRange_of_read hp hn hw hr]
  exact ⟨_, rfl, respondSum_completes (f bs) s⟩

theorem sumOutcome_of_not_rangeOk (h : ¬ RangeOk s p n.toNat) :
    ∃ r, sumOutcome f s (byteRange s p n.toNat) = .refused r := by
  obtain ⟨r, hr⟩ := byteRange_of_not_rangeOk h
  rw [hr]
  exact ⟨r, rfl⟩

end SumOutcome

/-- Settles O35: `CSUM` is the operation over a byte range whose checksum is `cksum`. -/
theorem csumResult : Obligations.CsumResult := by
  intro d s
  rw [exec_csum_eq]
  exact ⟨sumOutcome_of_empty cksum, fun hp hn hw _ => sumOutcome_of_read cksum hp hn hw, sumOutcome_of_not_rangeOk cksum⟩

/-- Settles O36: `PCSUM6` is the operation over a byte range whose checksum puts the pseudo-header before the bytes. -/
theorem pcsum6Result : Obligations.Pcsum6Result := by
  intro d s
  rw [exec_pcsum6_eq]
  exact ⟨sumOutcome_of_empty _, fun hp hn hw _ => sumOutcome_of_read _ hp hn hw, sumOutcome_of_not_rangeOk _⟩

end Sys2Proof.Machine
end

section
/-! NEEDFRAG (41_icmp4_message_builders.md R90 to R94), by the rule all packet and message builders share. -/

namespace Sys2Proof.Machine

open Sys2Proof.Safety

/-- A builder whose length `n` the allocator grants at `a` completes with its bytes there, and answers that address and length
(R38, R39, R91). -/
theorem buildInto_answers {bs : List Byte} {s : State} {n : Nat} {a : Word} (hn : bs.length = n)
    (ha : allocAnswer n s = .placed a) :
    BuiltAt a bs s (buildInto bs s) ∧
      (buildInto bs s).response = some { status := .ok, csum := 0, buf := a, len := BitVec.ofNat 32 n } := by
  subst hn
  have hb := buildInto_builtAt ha
  obtain ⟨-, -, hr, -, -⟩ := hb.delivered
  exact ⟨hb, hr⟩

theorem exec_needfrag_of_ok {d : NeedfragOp} {s : State} {orig : List Byte}
    (ho : opbuf s d.origPtr d.origLen.toNat = .ok orig) :
    exec (.needfrag d) s = .next (buildInto (needfragBody d.mtu orig) s) := by
  simp only [exec, execNeedfrag, ho]

/-- Settles O38: NEEDFRAG builds the body of its operand's bytes, which is four bytes longer than they are. -/
theorem needfragResult : Obligations.NeedfragResult := by
  intro d s orig a ho ha
  have hlen : (needfragBody d.mtu orig).length = 4 + d.origLen.toNat := by
    rw [needfragBody_length, opbuf_length ho]
  exact ⟨_, exec_needfrag_of_ok ho, buildInto_answers hlen ha⟩

end Sys2Proof.Machine
end

section
/-! A 16-bit field inside a byte sequence (00_scope.md section 7, R8), and the value a checksum field gets under `BADSUM` (R106). -/

namespace Sys2Proof.Machine

theorem be16_injective : Function.Injective be16 := by
  intro x y h
  simp only [be16, List.cons.injEq, and_true] at h
  obtain ⟨hhi, hlo⟩ := h
  calc x = x.extractLsb' 8 8 ++ x.extractLsb' 0 8 := (extract_append_extract (m := 8) (n := 8) x).symm
    _ = y.extractLsb' 8 8 ++ y.extractLsb' 0 8 := by rw [hhi, hlo]
    _ = y := extract_append_extract (m := 8) (n := 8) y

/-- The value of a 16-bit field shows in its own two bytes alone. -/
theorem getElem?_outside_be16 (before after : List Byte) (x y : Half) {k : Nat} (hhi : k ≠ before.length)
    (hlo : k ≠ before.length + 1) : (before ++ be16 x ++ after)[k]? = (before ++ be16 y ++ after)[k]? := by
  rcases Nat.lt_or_gt_of_ne hhi with hk | hk
  · simp only [List.append_assoc, List.getElem?_append_left hk]
  · have hx : (before ++ be16 x).length ≤ k := by simp; omega
    have hy : (before ++ be16 y).length ≤ k := by simp; omega
    rw [List.getElem?_append_right hx, List.getElem?_append_right hy]
    simp

/-- Two values of a 16-bit field differ in at least one of its two bytes. -/
theorem getElem?_be16_ne (before after : List Byte) {x y : Half} (h : x ≠ y) :
    (before ++ be16 x ++ after)[before.length]? ≠ (before ++ be16 y ++ after)[before.length]? ∨
      (before ++ be16 x ++ after)[before.length + 1]? ≠ (before ++ be16 y ++ after)[before.length + 1]? := by
  by_contra hsame
  obtain ⟨hhi, hlo⟩ := not_or.mp hsame
  refine h (be16_injective ?_)
  simpa [be16] using And.intro (not_not.mp hhi) (not_not.mp hlo)

/-- `BADSUM` differs from the checksum it spoils (R106): where the open function would not, the complement stands in. -/
theorem badsum_ne (c : Half) : Config.badsum c ≠ c := by
  unfold Config.badsum
  split
  case isTrue =>
    intro h
    bv_omega
  case isFalse h => exact h

theorem sumField_false_ne_true (c : Half) : sumField false c ≠ sumField true c := (badsum_ne c).symm

end Sys2Proof.Machine
end

section
/-! BUILD4 (42_icmp4_packet_builder.md R100 to R111). -/

namespace Sys2Proof.Machine

open Sys2Proof.Safety

theorem exec_build4_of_ok {d : Build4Op} {s : State} {opts data : List Byte}
    (ho : operands4 s d.optPtr d.optLen d.dataPtr d.dataLen = .ok (opts, data)) :
    exec (.build4 d) s = .next (buildInto (packet4 d opts data) s) := by
  simp only [exec, execBuild4, ho]

/-! ## The bytes -/

/-- The version nibble and the header length in words fill disjoint nibbles, so joining them is adding them (R101, R102). -/
theorem versionByte_eq_add {n : Nat} (h : n < 16) : (0x40 ||| BitVec.ofNat 8 n : Byte) = 0x40 + BitVec.ofNat 8 n := by
  revert n
  decide

/-- Settles O39: with at most 40 bytes of options the header length fits its nibble, and the packet is the written-out one. -/
theorem build4Result : Obligations.Build4Result := by
  intro d s opts data a hdata hmod hopt ho hd ha total ip icmp c
  have hlen : (packet4 d opts data).length = total := by
    rw [packet4_length, opbuf_length ho, opbuf_length hd]
  have hip : ip4Header d opts = ip := by
    funext sum
    have hwords : hlen4 d.optLen / 4 < 16 := by unfold hlen4; omega
    unfold ip4Header
    rw [versionByte_eq_add hwords]
    rfl
  have hpacket : packet4 d opts data = ip (cksum (ip 0)) ++ icmp (if d.badsum then Config.badsum c else c) := by
    rw [← hip]
    rfl
  rw [← hpacket]
  exact ⟨_, exec_build4_of_ok ((operands4_ok_iff ..).mpr ⟨hdata, hmod, hopt, ho, hd⟩), buildInto_answers hlen ha⟩

/-! ## The bad-checksum difference (R111) -/

/-- What precedes the ICMP checksum field in a packet: the IPv4 header with its options, the ICMP type and code (R100). -/
def beforeIcmpSum (d : Build4Op) (opts : List Byte) : List Byte :=
  ip4Header d opts (ip4Sum d opts) ++ [d.icmpType, d.icmpCode]

theorem beforeIcmpSum_length (d : Build4Op) (opts : List Byte) : (beforeIcmpSum d opts).length = 20 + opts.length + 2 := by
  simp [beforeIcmpSum]

/-- The ICMP checksum field is the only place of a packet where `BADSUM` has a say (R106, R107). -/
theorem packet4_of_badsum (d : Build4Op) (b : Bool) (opts data : List Byte) :
    packet4 { d with badsum := b } opts data =
      beforeIcmpSum d opts ++ be16 (sumField b (icmp4Sum d data)) ++ (be16 d.id ++ be16 d.seq ++ data) := by
  have hregions : packet4 { d with badsum := b } opts data =
      ip4Header d opts (ip4Sum d opts) ++ icmp4Region d data (sumField b (icmp4Sum d data)) := rfl
  rw [hregions]
  simp [icmp4Region, beforeIcmpSum]

/-- Settles O46: the two packets share all that stands around the ICMP checksum field, and the field tells `BADSUM(c)` from `c`. -/
theorem build4BadsumDiffers : Obligations.Build4BadsumDiffers := by
  intro d s a hc ha
  obtain ⟨⟨opts, data⟩, hops⟩ := (operands4_isOk_iff ..).mpr hc
  obtain ⟨-, -, -, ho, hd⟩ := (operands4_ok_iff ..).mp hops
  have holds (b : Bool) :
      (buildInto (packet4 { d with badsum := b } opts data) s).mem.read a.toNat (28 + d.optLen.toNat + d.dataLen.toNat) =
        some (packet4 { d with badsum := b } opts data) := by
    have hlen : (packet4 { d with badsum := b } opts data).length = 28 + d.optLen.toNat + d.dataLen.toNat := by
      rw [packet4_length, opbuf_length ho, opbuf_length hd]
      omega
    rw [← hlen] at ha ⊢
    exact (buildInto_builtAt ha).holds
  have hbefore : 20 + d.optLen.toNat + 2 = (beforeIcmpSum d opts).length := by
    rw [beforeIcmpSum_length, opbuf_length ho]
  have hnext : 20 + d.optLen.toNat + 3 = (beforeIcmpSum d opts).length + 1 := congrArg (· + 1) hbefore
  refine ⟨_, _, _, _, exec_build4_of_ok hops, exec_build4_of_ok hops, holds false, holds true, ?_⟩
  rw [packet4_of_badsum, packet4_of_badsum, hbefore, hnext]
  exact ⟨fun k hhi hlo => getElem?_outside_be16 _ _ _ _ hhi hlo,
    getElem?_be16_ne _ _ (sumField_false_ne_true (icmp4Sum d data))⟩

end Sys2Proof.Machine
end

section
/-! BUILD6.ECHO and BUILD6.ND (43_icmp6_packet_builder.md R120 to R132). -/

namespace Sys2Proof.Machine

open Sys2Proof.Safety

theorem exec_build6Echo_of_ok {d : Build6EchoOp} {s : State} {data : List Byte}
    (ho : operandsEcho s d.dataPtr d.dataLen = .ok data) :
    exec (.build6Echo d) s = .next (buildInto (packet6 d.head (echoMessage d data)) s) := by
  simp only [exec, execBuild6Echo, ho]

theorem exec_build6Nd_eq (d : Build6NdOp) (s : State) :
    exec (.build6Nd d) s = .next (buildInto (packet6 d.head (ndMessage d)) s) := rfl

/-- One length, that of the ICMP region, stands in the IPv6 header and, at 32 bits, in the pseudo-header (R124, R127). -/
theorem packet6_of_region_length (h : Build6Head) {msg : List Byte} {plen : Nat} (hl : 4 + msg.length = plen) :
    packet6 h msg =
      ip6Header h plen ++
        icmp6Region h msg (sumField h.badsum (pcsum6 h.src h.dst (BitVec.ofNat 32 plen) 58 (icmp6Region h msg 0))) := by
  subst hl
  rfl

/-- Settles O40: the echo message is four bytes longer than its data, so the ICMP region is eight bytes longer, and the packet of that
region length is the written-out one. -/
theorem build6EchoResult : Obligations.Build6EchoResult := by
  intro d s data a hmax ho ha plen ip6 icmp c
  have hregion : 4 + (echoMessage d data).length = plen := by
    rw [echoMessage_length, opbuf_length ho, ← Nat.add_assoc]
  have hpacket : packet6 d.head (echoMessage d data) = ip6 ++ icmp (if d.head.badsum then Config.badsum c else c) :=
    packet6_of_region_length d.head hregion
  have hlen : (packet6 d.head (echoMessage d data)).length = 48 + d.dataLen.toNat := by
    rw [packet6_length, echoMessage_length, opbuf_length ho, ← Nat.add_assoc]
  rw [← hpacket]
  exact ⟨_, exec_build6Echo_of_ok ((operandsEcho_ok_iff ..).mpr ⟨hmax, ho⟩), buildInto_answers hlen ha⟩

/-- Settles O41: the neighbor-discovery message is always 28 bytes, so the ICMP region is 32 bytes and the packet 72. -/
theorem build6NdResult : Obligations.Build6NdResult := by
  intro d s a ha ip6 icmp c
  have hregion : 4 + (ndMessage d).length = 32 := by rw [ndMessage_length]
  have hpacket : packet6 d.head (ndMessage d) = ip6 ++ icmp (if d.head.badsum then Config.badsum c else c) :=
    packet6_of_region_length d.head hregion
  have hlen : (packet6 d.head (ndMessage d)).length = 72 := by rw [packet6_length, ndMessage_length]
  rw [← hpacket]
  exact ⟨_, exec_build6Nd_eq d s, buildInto_answers hlen ha⟩

end Sys2Proof.Machine
end

section
/-! Ill-formed descriptors (60_exceptions.md R164): what the decoder accepts is well-formed by the mask table of R62, so an ill-formed
descriptor is not decoded, and a step that does not decode answers `ST_ILLEGAL` alone. -/

namespace Sys2Proof

/-! ## A must-be-zero range and its mask -/

theorem and_eq_zero_of_bits {w m : Word} (h : ∀ i < 32, m.getLsbD i = true → w.getLsbD i = false) : w &&& m = 0#32 := by
  refine BitVec.eq_of_getLsbD_eq fun i hi => ?_
  rw [BitVec.getLsbD_and, BitVec.getLsbD_zero, Bool.and_eq_false_iff]
  cases hm : m.getLsbD i with
  | false => exact .inr rfl
  | true => exact .inl (h i hi hm)

/-- A zero range meets every mask whose bits lie in the range. -/
theorem and_eq_zero_of_zeroBits {w m : Word} {hi lo : Nat} (h : zeroBits w hi lo = true) (hl : lo ≤ hi)
    (hm : ∀ i < 32, m.getLsbD i = true → lo ≤ i ∧ i ≤ hi) : w &&& m = 0#32 :=
  and_eq_zero_of_bits fun i hi' hi1 =>
    have ⟨h1, h2⟩ := hm i hi' hi1
    (zeroBits_iff w hl).mp h i h1 h2

theorem and_eq_zero_31_8 {w : Word} (h : zeroBits w 31 8 = true) : w &&& 0xFFFFFF00#32 = 0#32 :=
  and_eq_zero_of_zeroBits h (by decide) (by decide)

theorem and_eq_zero_31_10 {w : Word} (h : zeroBits w 31 10 = true) : w &&& 0xFFFFFC00#32 = 0#32 :=
  and_eq_zero_of_zeroBits h (by decide) (by decide)

theorem and_eq_zero_31_16 {w : Word} (h : zeroBits w 31 16 = true) : w &&& 0xFFFF0000#32 = 0#32 :=
  and_eq_zero_of_zeroBits h (by decide) (by decide)

theorem and_eq_zero_31_0 {w : Word} (h : zeroBits w 31 0 = true) : w &&& 0xFFFFFFFF#32 = 0#32 :=
  and_eq_zero_of_zeroBits h (by decide) (by decide)

/-- `W0` of formats B6E and B6N has two must-be-zero ranges, bit 9 and bits 31 to 11, around `KIND` (R58, R59). -/
theorem and_eq_zero_of_zeroBits_kind {w : Word} (h9 : zeroBits w 9 9 = true) (h11 : zeroBits w 31 11 = true) :
    w &&& 0xFFFFFA00#32 = 0#32 := by
  refine and_eq_zero_of_bits fun i hi hm => ?_
  have hrange : ∀ i < 32, (0xFFFFFA00#32).getLsbD i = true → i = 9 ∨ 11 ≤ i := by decide
  rcases hrange i hi hm with rfl | hi'
  · exact (zeroBits_iff w le_rfl).mp h9 9 le_rfl le_rfl
  · exact (zeroBits_iff w (by decide)).mp h11 i hi' (Nat.le_of_lt_succ hi)

/-! ## Each format's checks and its row of masks -/

/-- The words of a descriptor are as many as the format's masks and meet none of them (R61, R62). -/
def ReservedClear (f : Format) (ws : List Word) : Prop :=
  List.Forall₂ (fun w m => w &&& m = 0#32) ws f.reserved

theorem wellFormed_of_reservedClear {f : Format} {w0 : Word} {ws : List Word} (hf : Format.ofW0 w0 = some f)
    (h : ReservedClear f (w0 :: ws)) : wellFormed (w0 :: ws) = true := by
  obtain ⟨hlen, hzip⟩ := List.forall₂_iff_zip.mp h
  simp only [wellFormed, hf, Bool.and_eq_true, beq_iff_eq]
  refine ⟨hlen, ?_⟩
  rw [List.all_eq_true]
  intro x hx
  rw [← List.map_uncurry_zip_eq_zipWith] at hx
  obtain ⟨⟨w, m⟩, hwm, rfl⟩ := List.mem_map.mp hx
  exact beq_iff_eq.mpr (hzip hwm)

theorem formatOf_eq_ofW0 (w0 : Word) : formatOf w0 = Format.ofW0 w0 := by
  have hop : w0.toNat % 256 = (w0.extractLsb' 0 8).toNat := by simp
  unfold formatOf Format.ofW0
  rw [hop]
  generalize w0.extractLsb' 0 8 = op
  generalize w0.getLsbD 10 = kind
  revert op kind
  decide

theorem ifClear_ok {clear : Bool} {i j : Instr} (h : ifClear clear i = .ok j) : clear = true := by
  cases clear
  · cases h
  · rfl

theorem head6Clear_masks {w0 w9 w10 : Word} (h : head6Clear w0 w9 w10 = true) :
    w0 &&& 0xFFFFFA00#32 = 0#32 ∧ w9 &&& 0xF0000000#32 = 0#32 ∧ w10 &&& 0x00FF0000#32 = 0#32 := by
  simp only [head6Clear, Bool.and_eq_true] at h
  obtain ⟨⟨⟨h9, h11⟩, hw9⟩, hw10⟩ := h
  exact ⟨and_eq_zero_of_zeroBits_kind h9 h11, and_eq_zero_of_zeroBits hw9 (by decide) (by decide),
    and_eq_zero_of_zeroBits hw10 (by decide) (by decide)⟩

theorem decodeC_reservedClear {w0 : Word} {ws : List Word} {i : Instr} (h : decodeC w0 ws = .ok i) :
    ReservedClear .c (w0 :: ws) := by
  unfold decodeC at h
  split at h
  · simp [ReservedClear, Format.reserved, and_eq_zero_31_8 (ifClear_ok h)]
  · cases h

theorem decodeP_reservedClear {w0 : Word} {ws : List Word} {i : Instr} (h : decodeP w0 ws = .ok i) :
    ReservedClear .p (w0 :: ws) := by
  unfold decodeP at h
  split at h
  · have hclear := ifClear_ok h
    simp only [Bool.and_eq_true] at hclear
    obtain ⟨h0, h10⟩ := hclear
    simp [ReservedClear, Format.reserved, and_eq_zero_31_8 h0, and_eq_zero_31_8 h10]
  · cases h

theorem decodeN_reservedClear {w0 : Word} {ws : List Word} {i : Instr} (h : decodeN w0 ws = .ok i) :
    ReservedClear .n (w0 :: ws) := by
  unfold decodeN at h
  split at h
  · have hclear := ifClear_ok h
    simp only [Bool.and_eq_true] at hclear
    obtain ⟨⟨h0, h1⟩, h3⟩ := hclear
    simp [ReservedClear, Format.reserved, and_eq_zero_31_8 h0, and_eq_zero_31_16 h1, and_eq_zero_31_16 h3]
  · cases h

theorem decodeB4_reservedClear {w0 : Word} {ws : List Word} {i : Instr} (h : decodeB4 w0 ws = .ok i) :
    ReservedClear .b4 (w0 :: ws) := by
  unfold decodeB4 at h
  split at h
  · have hclear := ifClear_ok h
    simp only [Bool.and_eq_true] at hclear
    obtain ⟨⟨⟨h0, h5⟩, h7⟩, h9⟩ := hclear
    simp [ReservedClear, Format.reserved, and_eq_zero_31_10 h0, and_eq_zero_31_16 h5, and_eq_zero_31_16 h7,
      and_eq_zero_31_16 h9]
  · cases h

theorem decodeS4_reservedClear {w0 : Word} {ws : List Word} {i : Instr} (h : decodeS4 w0 ws = .ok i) :
    ReservedClear .s4 (w0 :: ws) := by
  unfold decodeS4 at h
  split at h
  case h_1 w1 w2 w3 w4 w5 w6 w7 w8 w9 w10 w11 w12 =>
    have hclear := ifClear_ok h
    simp only [Bool.and_eq_true] at hclear
    obtain ⟨⟨⟨⟨⟨h0, h3⟩, h4⟩, h5⟩, h7⟩, h9⟩ := hclear
    have hw3 : w3 &&& 0x00FFFFFF#32 = 0#32 := and_eq_zero_of_zeroBits h3 (by decide) (by decide)
    simp [ReservedClear, Format.reserved, and_eq_zero_31_10 h0, hw3, and_eq_zero_31_16 h4, and_eq_zero_31_16 h5,
      and_eq_zero_31_16 h7, and_eq_zero_31_16 h9]
  case h_2 => cases h

theorem decodeB6e_reservedClear {w0 : Word} {ws : List Word} {i : Instr} (h : decodeB6e w0 ws = .ok i) :
    ReservedClear .b6e (w0 :: ws) := by
  unfold decodeB6e at h
  split at h
  · have hclear := ifClear_ok h
    rw [Bool.and_eq_true] at hclear
    obtain ⟨hhead, h13⟩ := hclear
    simp [ReservedClear, Format.reserved, head6Clear_masks hhead, and_eq_zero_31_16 h13]
  · cases h

theorem decodeB6n_reservedClear {w0 : Word} {ws : List Word} {i : Instr} (h : decodeB6n w0 ws = .ok i) :
    ReservedClear .b6n (w0 :: ws) := by
  unfold decodeB6n at h
  split at h
  · have hclear := ifClear_ok h
    simp only [Bool.and_eq_true] at hclear
    obtain ⟨⟨⟨hhead, h11⟩, h12⟩, h13⟩ := hclear
    simp [ReservedClear, Format.reserved, head6Clear_masks hhead, and_eq_zero_31_0 h11, and_eq_zero_31_0 h12,
      and_eq_zero_31_0 h13]
  · cases h

/-- The decoder accepts only descriptors that are well-formed (R62). -/
theorem wellFormed_of_decode_ok {ws : List Word} {i : Instr} (h : decode ws = .ok i) : wellFormed ws = true := by
  cases ws with
  | nil => cases h
  | cons w0 ws =>
    simp only [decode, formatOf_eq_ofW0] at h
    split at h
    · cases h
    · exact wellFormed_of_reservedClear ‹_› (decodeC_reservedClear h)
    · exact wellFormed_of_reservedClear ‹_› (decodeP_reservedClear h)
    · exact wellFormed_of_reservedClear ‹_› (decodeN_reservedClear h)
    · exact wellFormed_of_reservedClear ‹_› (decodeB4_reservedClear h)
    · exact wellFormed_of_reservedClear ‹_› (decodeS4_reservedClear h)
    · exact wellFormed_of_reservedClear ‹_› (decodeB6e_reservedClear h)
    · exact wellFormed_of_reservedClear ‹_› (decodeB6n_reservedClear h)

theorem decode_error_of_illFormed {ws : List Word} (h : wellFormed ws = false) : ∃ e, decode ws = .error e := by
  cases hd : decode ws with
  | error e => exact ⟨e, rfl⟩
  | ok i => exact absurd (wellFormed_of_decode_ok hd) (Bool.eq_false_iff.mp h)

namespace Machine

open Sys2Proof.Safety

theorem blockStep_of_decode_error {s : State} {ws : List Word} {e : Illegal} (hs : s.sending = none)
    (hc : s.captured = some ws) (he : decode ws = .error e) : blockStep s = .next (raise .illegal s) := by
  simp only [blockStep, hs, hc, he]

/-! Raising an exception is its response and no more (R160). -/

theorem raise_delivered (st : Status) (s : State) : Delivered { status := st, csum := 0, buf := 0, len := 0 } (raise st s) :=
  ⟨rfl, rfl, rfl, rfl, rfl⟩

theorem raise_envKept (st : Status) (s : State) : EnvKept s (raise st s) := ⟨rfl, rfl, rfl⟩

theorem raise_inputsKept (st : Status) (s : State) : InputsKept s (raise st s) := ⟨rfl, rfl, rfl, rfl, rfl, rfl⟩

/-- Settles O5: the block's step finds no operation in an ill-formed descriptor, and raises `ST_ILLEGAL` in the state it found. -/
theorem illFormedAnswered : Obligations.IllFormedAnswered := by
  intro s ws hbusy hwaits hsending hcaptured hill
  obtain ⟨e, he⟩ := decode_error_of_illFormed hill
  rw [step_eq_blockStep hbusy hwaits]
  exact ⟨_, blockStep_of_decode_error hsending hcaptured he, raise_delivered .illegal _, raise_envKept .illegal (popMeanwhile s),
    raise_inputsKept .illegal (popMeanwhile s)⟩

end Machine

end Sys2Proof
end

section
/-! What a builder or SEND4 does when the allocator answers `NULL` (60_exceptions.md R161). -/

namespace Sys2Proof.Machine

open Sys2Proof.Safety

theorem buildInto_of_null {bs : List Byte} {s : State} (h : allocAnswer bs.length s = .null) :
    buildInto bs s = raise .allocFail (popAlloc s) := by
  simp only [buildInto, h]

theorem sendBuilt_of_null {d : Send4Op} {pkt : List Byte} {s : State} (h : allocAnswer pkt.length s = .null) :
    sendBuilt d pkt s = raise .allocFail (popAlloc (popDraw s)) := by
  simp only [sendBuilt, h]

/-- Settles O42: builder or SEND4, the command asks for its packet's length, and on `NULL` raises `ST_ALLOC_FAIL` with only the
allocator, and for SEND4 the draws, asked. -/
theorem allocationFailure : Obligations.AllocationFailure := by
  intro i s n hreq hc hnull
  rcases exec_of_request hreq hc with ⟨bs, rfl, hexec⟩ | ⟨d, pkt, -, rfl, hexec⟩
  · rw [hexec, buildInto_of_null hnull]
    exact ⟨_, rfl, raise_delivered .allocFail _, raise_envKept .allocFail (popAlloc s), rfl, rfl, rfl⟩
  · rw [hexec, sendBuilt_of_null hnull]
    exact ⟨_, rfl, raise_delivered .allocFail _, raise_envKept .allocFail (popAlloc (popDraw s)), rfl, rfl, rfl⟩

end Sys2Proof.Machine
end

section
/-! SEND4 once its packet is built (44_transmission.md R140 to R146; 60_exceptions.md R162, R163): the gate, the attempt, and the
temporary buffer, whose release gives back the environment the command found. -/

namespace Sys2Proof.Machine

open Sys2Proof.Safety

theorem exec_send4_of_ok {d : Send4Op} {s : State} {opts data : List Byte}
    (ho : operands4 s d.optPtr d.optLen d.dataPtr d.dataLen = .ok (opts, data)) :
    exec (.send4 d) s = .next (sendBuilt d (packet4 (build4Of d (nextDraw s)) opts data) s) := by
  simp only [exec, execSend4, ho]

/-- The packet of the drawn BUILD4 record has the length SEND4 asks the allocator for (R102, R140 step 1). -/
theorem packet4_build4Of_length {d : Send4Op} {s : State} {opts data : List Byte} (w : Draw)
    (ho : opbuf s d.optPtr d.optLen.toNat = .ok opts) (hd : opbuf s d.dataPtr d.dataLen.toNat = .ok data) :
    (packet4 (build4Of d w) opts data).length = 28 + d.optLen.toNat + d.dataLen.toNat := by
  rw [packet4_length, opbuf_length ho, opbuf_length hd]
  omega

/-- SEND4 has its packet in a temporary buffer at `a`: the state the gate and the attempt start from (R140 step 2). -/
def packetPlaced (a : Word) (pkt : List Byte) (s : State) : State :=
  memWrite a pkt (grant a pkt.length (popAlloc (popDraw s)))

theorem sendBuilt_overMtu {d : Send4Op} {pkt : List Byte} {s : State} {a : Word} (ha : allocAnswer pkt.length s = .placed a)
    (hmtu : d.mtu.toNat < pkt.length) :
    sendBuilt d pkt s = raise .mtuExceeded (releaseOwned (packetPlaced a pkt s)) := by
  simp only [sendBuilt, ha, gateAndSend, if_pos hmtu]
  rfl

theorem sendBuilt_withinMtu {d : Send4Op} {pkt : List Byte} {s : State} {a : Word} (ha : allocAnswer pkt.length s = .placed a)
    (hmtu : pkt.length ≤ d.mtu.toNat) :
    sendBuilt d pkt s =
      awaitTx { link := d.link, fd := d.fd, pkt := pkt }
        (startTx { link := d.link, fd := d.fd, pkt := pkt } (packetPlaced a pkt s)) := by
  simp only [sendBuilt, ha, gateAndSend, if_neg (Nat.not_lt.mpr hmtu), built_read]
  rfl

/-- The transmitter's answer depends on its inputs alone (R173). -/
theorem nextTx_congr {s t : State} (htxs : s.txs = t.txs) (hticks : s.ticks = t.ticks) : nextTx s = nextTx t := by
  simp only [nextTx, htxs, hticks]

/-- An answered attempt ends its command, and only the status depends on the answer (R145, R162). -/
theorem awaitTx_answered {c : TxCall} {s : State} {ok : Bool} (h : nextTx s = .answered ok) :
    awaitTx c s = raise (if ok then .ok else .txFail) (releaseOwned (recordTx c ok (popTx s))) := by
  cases ok <;> simp only [awaitTx, h] <;> rfl

section TemporaryBuffer

variable {d : Send4Op} {s : State} {a : Word} {pkt : List Byte}

/-- Freeing the temporary buffer gives `MEM` back (R38, R40, R146). -/
theorem drop_packetPlaced (hw : s.mem.wf) (ha : allocAnswer pkt.length s = .placed a) :
    (packetPlaced a pkt s).mem.drop a.toNat pkt.length = s.mem := by
  obtain ⟨-, hfit, hclear⟩ := allocAnswer_placed ha
  exact drop_memWrite_grant (s := popAlloc (popDraw s)) hw hfit hclear

/-- Freeing the temporary buffer gives the live set back (R38, R40, R146). -/
theorem filter_packetPlaced (hL : LiveInv s) (hpos : 1 ≤ pkt.length) (ha : allocAnswer pkt.length s = .placed a) :
    (packetPlaced a pkt s).live.filter (fun b => b.addr != a) = s.live := by
  obtain ⟨-, -, hclear⟩ := allocAnswer_placed ha
  exact filter_insertBuffer (b := { addr := a, len := pkt.length }) (fresh_addr_ne hL hpos hclear)

/-- Past the limit the buffer is freed before anything is handed over (R142, R163). -/
theorem sendBuilt_overMtu_completes (hw : s.mem.wf) (hL : LiveInv s) (hpos : 1 ≤ pkt.length)
    (ha : allocAnswer pkt.length s = .placed a) (hmtu : d.mtu.toNat < pkt.length) :
    Delivered { status := .mtuExceeded, csum := 0, buf := 0, len := 0 } (sendBuilt d pkt s) ∧ EnvKept s (sendBuilt d pkt s) ∧
      (sendBuilt d pkt s).host = s.host ∧ (sendBuilt d pkt s).allocs = s.allocs.tail ∧ (sendBuilt d pkt s).txs = s.txs ∧
      (sendBuilt d pkt s).draws = s.draws.tail := by
  rw [sendBuilt_overMtu ha hmtu, releaseOwned_of_owned (s := packetPlaced a pkt s) rfl]
  exact ⟨raise_delivered .mtuExceeded _, ⟨drop_packetPlaced hw ha, filter_packetPlaced hL hpos ha, rfl⟩, rfl, rfl, rfl, rfl⟩

/-- Within the limit the packet is handed over whole, and the answer ends the command (R140 step 3, R145, R146, R162). -/
theorem sendBuilt_answered_completes (hw : s.mem.wf) (hL : LiveInv s) (hpos : 1 ≤ pkt.length)
    (ha : allocAnswer pkt.length s = .placed a) (hmtu : pkt.length ≤ d.mtu.toNat) {ok : Bool}
    (htx : nextTx (popAlloc (popDraw s)) = .answered ok) :
    Delivered { status := if ok then .ok else .txFail, csum := 0, buf := 0, len := 0 } (sendBuilt d pkt s) ∧
      (sendBuilt d pkt s).history =
        s.history ++ [{ call := { link := d.link, fd := d.fd, pkt := pkt }, answer := ok }] ∧
      (sendBuilt d pkt s).mem = s.mem ∧ (sendBuilt d pkt s).live = s.live ∧ (sendBuilt d pkt s).host = s.host ∧
      (sendBuilt d pkt s).allocs = s.allocs.tail ∧ (sendBuilt d pkt s).txs = s.txs.tail ∧
      (sendBuilt d pkt s).draws = s.draws.tail := by
  have hanswer (c : TxCall) : nextTx (startTx c (packetPlaced a pkt s)) = .answered ok :=
    (nextTx_congr rfl rfl).trans htx
  have howned (c : TxCall) : (recordTx c ok (popTx (startTx c (packetPlaced a pkt s)))).owned =
      some { addr := a, len := pkt.length } := rfl
  rw [sendBuilt_withinMtu ha hmtu, awaitTx_answered (hanswer _), releaseOwned_of_owned (howned _)]
  exact ⟨raise_delivered _ _, by simp [packetPlaced], drop_packetPlaced hw ha, filter_packetPlaced hL hpos ha,
    by simp [packetPlaced]⟩

end TemporaryBuffer

/-- Settles O53: SEND4's packet has the length the gate is asked about, and over the limit its run leaves the environment alone. -/
theorem send4MtuExceeded : Obligations.Send4MtuExceeded := by
  intro d s a hw hL hc ha hmtu
  obtain ⟨⟨opts, data⟩, hops⟩ := (operands4_isOk_iff ..).mpr hc
  obtain ⟨-, -, -, ho, hd⟩ := (operands4_ok_iff ..).mp hops
  have hlen := packet4_build4Of_length (nextDraw s) ho hd
  rw [← hlen] at ha hmtu
  exact ⟨_, exec_send4_of_ok hops, sendBuilt_overMtu_completes hw hL (by omega) ha hmtu⟩

/-- Settles O52: within the contract SEND4 sends the packet of the BUILD4 record with the drawn values. -/
theorem send4Answered : Obligations.Send4Answered := by
  intro d s opts data a ok hw hL hdata hmod hopt ho hd ha hmtu htx w pkt
  have hlen : pkt.length = 28 + d.optLen.toNat + d.dataLen.toNat := packet4_build4Of_length (nextDraw s) ho hd
  rw [← hlen] at ha hmtu
  exact ⟨_, exec_send4_of_ok ((operands4_ok_iff ..).mpr ⟨hdata, hmod, hopt, ho, hd⟩),
    sendBuilt_answered_completes hw hL (by omega) ha hmtu htx⟩

end Sys2Proof.Machine
end

section
/-! The state after reset (70_reset_and_hazards.md R180). -/

namespace Sys2Proof.Machine

/-- Settles O16: `State.reset` gives each of the block's own fields its value outright. -/
theorem resetState : Obligations.ResetState :=
  ⟨rfl, rfl, rfl, rfl, rfl⟩

end Sys2Proof.Machine
end

section
/-! The decoder against the encoder (30_encoding.md R50 to R63): each format's encoder undoes its decoder and the other way round, and
a descriptor decodes exactly when it meets the mask table of R62. -/

namespace Sys2Proof

/-! ## What `W0` selects -/

/-- The `OP` of a format (R52). -/
def Format.op : Format → Byte
  | .c => 0x01
  | .p => 0x02
  | .n => 0x10
  | .b4 => 0x20
  | .s4 => 0x21
  | .b6e => 0x30
  | .b6n => 0x30

/-- The `KIND` of a format, which only `BUILD6` sets (R51, R58, R59). -/
def Format.kind : Format → Bool
  | .b6n => true
  | _ => false

/-- A format's own `OP` and `KIND` select it (R52, R61). -/
theorem formatOf_commandWord (f : Format) (b d : Bool) : formatOf (commandWord f.op b d f.kind) = some f := by
  unfold formatOf
  rw [commandWord_op, commandWord_kind]
  cases f <;> rfl

/-- A `W0` that selects a format has its `OP`, and for the two formats of one `OP` its `KIND` (R52, R61). -/
theorem op_kind_of_formatOf {w0 : Word} {f : Format} (h : formatOf w0 = some f) :
    w0.extractLsb' 0 8 = f.op ∧ (f.op = 0x30 → w0.getLsbD 10 = f.kind) := by
  rw [formatOf_eq_ofW0] at h
  unfold Format.ofW0 at h
  revert h
  generalize w0.extractLsb' 0 8 = op
  generalize w0.getLsbD 10 = kind
  revert op kind
  cases f <;> decide

/-! ## Decoding what was encoded -/

/-- The decoder of a format, after its `W0`. -/
def decodeFormat : Format → Word → List Word → Except Illegal Instr
  | .c => decodeC
  | .p => decodeP
  | .n => decodeN
  | .b4 => decodeB4
  | .s4 => decodeS4
  | .b6e => decodeB6e
  | .b6n => decodeB6n

theorem decode_of_formatOf {w0 : Word} {f : Format} (h : formatOf w0 = some f) (ws : List Word) :
    decode (w0 :: ws) = decodeFormat f w0 ws := by
  simp only [decode, h]
  cases f <;> rfl

/-- A descriptor that begins with a format's own `W0` is that format's to decode. -/
theorem decode_commandWord (f : Format) (b d : Bool) (ws : List Word) :
    decode (commandWord f.op b d f.kind :: ws) = decodeFormat f (commandWord f.op b d f.kind) ws :=
  decode_of_formatOf (formatOf_commandWord f b d) ws

theorem decode_encode_csum (d : CsumOp) : decode (encode (.csum d)) = .ok (.csum d) := by
  refine (decode_commandWord .c false false _).trans ?_
  simp only [decodeFormat, Format.kind, decodeC, ifClear, commandWord_zero_8, if_true]

theorem decode_encode_pcsum6 (d : Pcsum6Op) : decode (encode (.pcsum6 d)) = .ok (.pcsum6 d) := by
  refine (decode_commandWord .p false false
    (split128 d.src ++ split128 d.dst ++ [d.upperLen, 0#24 ++ d.nextHeader, d.payloadPtr, d.payloadLen])).trans ?_
  simp only [decodeFormat, Format.kind, split128, List.cons_append, List.nil_append, decodeP, ifClear, commandWord_zero_8,
    byte_zero, byte_low, join_split, Bool.and_self, if_true]

theorem decode_encode_needfrag (d : NeedfragOp) : decode (encode (.needfrag d)) = .ok (.needfrag d) := by
  refine (decode_commandWord .n false false _).trans ?_
  simp only [decodeFormat, Format.kind, decodeN, ifClear, commandWord_zero_8, half_half_zero, half_half_low, Bool.and_self, if_true]

theorem decode_encode_build4 (d : Build4Op) : decode (encode (.build4 d)) = .ok (.build4 d) := by
  refine (decode_commandWord .b4 d.badsum d.df _).trans ?_
  simp only [decodeFormat, Format.kind, decodeB4, ifClear, commandWord_zero_10, commandWord_badsum, commandWord_df, half_half_zero,
    half_half_low, half_half_high, byte_byte_half_high, byte_byte_half_mid, byte_byte_half_low, type_code_zero, type_code_mid,
    type_code_low, Bool.and_self, if_true]

theorem decode_encode_send4 (d : Send4Op) : decode (encode (.send4 d)) = .ok (.send4 d) := by
  refine (decode_commandWord .s4 d.badsum d.df _).trans ?_
  simp only [decodeFormat, Format.kind, decodeS4, ifClear, commandWord_zero_10, commandWord_badsum, commandWord_df, half_half_zero,
    half_half_low, byte_high, byte_high_zero, type_code_zero, type_code_mid, type_code_low, Bool.and_self, if_true]

/-- The shared head of formats B6E and B6N passes its checks (R58, R59). -/
theorem head6Clear_encodeHead6 (op : Byte) (h : Build6Head) (k : Bool) :
    head6Clear (commandWord op h.badsum false k) (0#4 ++ h.trafficClass ++ h.flowLabel)
      (h.hopLimit ++ 0#8 ++ h.icmpType ++ h.icmpCode) = true := by
  simp only [head6Clear, commandWord_zero_9, commandWord_zero_11, class_label_zero, hop_type_code_zero, Bool.and_self]

/-- The shared head of formats B6E and B6N is read back (R58, R59). -/
theorem head6_encodeHead6 (op : Byte) (h : Build6Head) (k : Bool) :
    head6 (commandWord op h.badsum false k) (h.src.extractLsb' 96 32) (h.src.extractLsb' 64 32) (h.src.extractLsb' 32 32)
      (h.src.extractLsb' 0 32) (h.dst.extractLsb' 96 32) (h.dst.extractLsb' 64 32) (h.dst.extractLsb' 32 32)
      (h.dst.extractLsb' 0 32) (0#4 ++ h.trafficClass ++ h.flowLabel) (h.hopLimit ++ 0#8 ++ h.icmpType ++ h.icmpCode) = h := by
  simp only [head6, commandWord_badsum, join_split, class_label_mid, class_label_low, hop_type_code_high, hop_type_code_mid,
    hop_type_code_low]

theorem decode_encode_build6Echo (d : Build6EchoOp) : decode (encode (.build6Echo d)) = .ok (.build6Echo d) := by
  refine (decode_commandWord .b6e d.head.badsum false
    (encodeHead6 d.head ++ [d.id ++ d.seq, d.dataPtr, 0#16 ++ d.dataLen])).trans ?_
  simp only [decodeFormat, Format.kind, encodeHead6, split128, List.cons_append, List.nil_append, decodeB6e, ifClear,
    head6Clear_encodeHead6, head6_encodeHead6, half_half_zero, half_half_low, half_half_high, Bool.and_self, if_true]

theorem decode_encode_build6Nd (d : Build6NdOp) : decode (encode (.build6Nd d)) = .ok (.build6Nd d) := by
  refine (decode_commandWord .b6n d.head.badsum false
    (encodeHead6 d.head ++ [0, 0, 0, d.flags] ++ split128 d.target
      ++ [d.optType ++ d.optLen ++ (d.lladdr.extractLsb' 32 16 : BitVec 16), d.lladdr.extractLsb' 0 32])).trans ?_
  have hzero : zeroBits 0 31 0 = true := zeroBits_zero 31 0
  simp only [decodeFormat, Format.kind, encodeHead6, split128, List.cons_append, List.nil_append, decodeB6n, ifClear,
    head6Clear_encodeHead6, head6_encodeHead6, hzero, join_split, byte_byte_half_high, byte_byte_half_mid, byte_byte_half_low,
    lladdr_split, Bool.and_self, if_true]

/-- Settles O2: operation by operation, each by the packings of its format. -/
theorem decodeOfEncode : Obligations.DecodeOfEncode
  | .csum d => decode_encode_csum d
  | .pcsum6 d => decode_encode_pcsum6 d
  | .needfrag d => decode_encode_needfrag d
  | .build4 d => decode_encode_build4 d
  | .send4 d => decode_encode_send4 d
  | .build6Echo d => decode_encode_build6Echo d
  | .build6Nd d => decode_encode_build6Nd d

/-! ## Packing what was extracted -/

/-- A must-be-zero range, as a field (R62). -/
theorem extract_of_zeroBits {w : Word} {hi lo : Nat} (h : zeroBits w hi lo = true) :
    w.extractLsb' lo (hi - lo + 1) = 0#(hi - lo + 1) := by
  rw [← eq_of_beq h]
  refine BitVec.eq_of_getLsbD_eq fun i hi => ?_
  simp

/-- Three adjacent fields of a value, put back together. -/
theorem extract_append_three {l m n : Nat} (x : BitVec (l + m + n)) :
    x.extractLsb' (m + n) l ++ x.extractLsb' n m ++ x.extractLsb' 0 n = x := by
  rw [BitVec.extractLsb'_append_extractLsb'_eq_extractLsb' (Nat.add_comm m n)]
  exact extract_append_extract x

/-- Four adjacent fields of a value, put back together. -/
theorem extract_append_four {k l m n : Nat} (x : BitVec (k + l + m + n)) :
    x.extractLsb' (l + m + n) k ++ x.extractLsb' (m + n) l ++ x.extractLsb' n m ++ x.extractLsb' 0 n = x := by
  rw [BitVec.extractLsb'_append_extractLsb'_eq_extractLsb' (by omega : l + m + n = m + n + l)]
  exact extract_append_three (l := k + l) x

theorem halves_repack (w : Word) : w.extractLsb' 16 16 ++ w.extractLsb' 0 16 = w := extract_append_extract (m := 16) (n := 16) w

theorem low_half_repack {w : Word} (h : zeroBits w 31 16 = true) : 0#16 ++ w.extractLsb' 0 16 = w := by
  have hz : w.extractLsb' 16 16 = 0#16 := extract_of_zeroBits h
  rw [← hz]
  exact halves_repack w

theorem low_byte_repack {w : Word} (h : zeroBits w 31 8 = true) : 0#24 ++ w.extractLsb' 0 8 = w := by
  have hz : w.extractLsb' 8 24 = 0#24 := extract_of_zeroBits h
  rw [← hz]
  exact extract_append_extract (m := 24) (n := 8) w

theorem high_byte_repack {w : Word} (h : zeroBits w 23 0 = true) : w.extractLsb' 24 8 ++ 0#24 = w := by
  have hz : w.extractLsb' 0 24 = 0#24 := extract_of_zeroBits h
  rw [← hz]
  exact extract_append_extract (m := 8) (n := 24) w

theorem byte_byte_half_repack (w : Word) : w.extractLsb' 24 8 ++ w.extractLsb' 16 8 ++ w.extractLsb' 0 16 = w :=
  extract_append_three (l := 8) (m := 8) (n := 16) w

theorem type_code_repack {w : Word} (h : zeroBits w 31 16 = true) : 0#16 ++ w.extractLsb' 8 8 ++ w.extractLsb' 0 8 = w := by
  have hz : w.extractLsb' 16 16 = 0#16 := extract_of_zeroBits h
  rw [← hz]
  exact extract_append_three (l := 16) (m := 8) (n := 8) w

theorem class_label_repack {w : Word} (h : zeroBits w 31 28 = true) : 0#4 ++ w.extractLsb' 20 8 ++ w.extractLsb' 0 20 = w := by
  have hz : w.extractLsb' 28 4 = 0#4 := extract_of_zeroBits h
  rw [← hz]
  exact extract_append_three (l := 4) (m := 8) (n := 20) w

theorem hop_type_code_repack {w : Word} (h : zeroBits w 23 16 = true) :
    w.extractLsb' 24 8 ++ 0#8 ++ w.extractLsb' 8 8 ++ w.extractLsb' 0 8 = w := by
  have hz : w.extractLsb' 16 8 = 0#8 := extract_of_zeroBits h
  rw [← hz]
  exact extract_append_four (k := 8) (l := 8) (m := 8) (n := 8) w

theorem word_of_zeroBits {w : Word} (h : zeroBits w 31 0 = true) : w = 0 :=
  BitVec.extractLsb'_eq_self.symm.trans (extract_of_zeroBits h)

/-- The second of four parts of a packing. -/
theorem extract_second_of_four {k l m n : Nat} (v : BitVec k) (w : BitVec l) (x : BitVec m) (y : BitVec n) :
    (v ++ w ++ x ++ y).extractLsb' (m + n) l = w := by
  refine BitVec.eq_of_getLsbD_eq fun i hi => ?_
  simp only [BitVec.getLsbD_append, BitVec.getLsbD_extractLsb', hi, decide_true, Bool.true_and]
  rw [if_neg (by omega), if_neg (by omega), if_pos (by omega)]
  congr 1; omega

/-! The words of a joined 128-bit operand (R60). -/

theorem join128_first (a b c d : Word) : (join128 a b c d).extractLsb' 96 32 = a := extract_high_of_four a b c d
theorem join128_second (a b c d : Word) : (join128 a b c d).extractLsb' 64 32 = b := extract_second_of_four a b c d
theorem join128_third (a b c d : Word) : (join128 a b c d).extractLsb' 32 32 = c := extract_mid (a ++ b) c d
theorem join128_fourth (a b c d : Word) : (join128 a b c d).extractLsb' 0 32 = d := extract_low (a ++ b ++ c) d

theorem split_join (a b c d : Word) : split128 (join128 a b c d) = [a, b, c, d] := by
  simp only [split128, join128_first, join128_second, join128_third, join128_fourth]

/-! `W0` from its own fields (R51). -/

theorem commandWord_repack {w : Word} (h : zeroBits w 31 11 = true) :
    commandWord (w.extractLsb' 0 8) (w.getLsbD 8) (w.getLsbD 9) (w.getLsbD 10) = w := by
  have hz : w.extractLsb' 11 21 = 0#21 := extract_of_zeroBits h
  have hbit (i : Nat) : BitVec.ofBool (w.getLsbD i) = w.extractLsb' i 1 := by
    refine BitVec.eq_of_getLsbD_eq fun j hj => ?_
    obtain rfl := Nat.lt_one_iff.mp hj
    simp
  simp only [commandWord, hbit, ← hz]
  calc w.extractLsb' 11 21 ++ w.extractLsb' 10 1 ++ w.extractLsb' 9 1 ++ w.extractLsb' 8 1 ++ w.extractLsb' 0 8
      = w.extractLsb' 10 22 ++ w.extractLsb' 9 1 ++ w.extractLsb' 8 1 ++ w.extractLsb' 0 8 := by
        rw [BitVec.extractLsb'_append_extractLsb'_eq_extractLsb' (show 11 = 10 + 1 from rfl)]
    _ = w := extract_append_four (k := 22) (l := 1) (m := 1) (n := 8) w

theorem zeroBits_mono {w : Word} {hi lo lo' : Nat} (h : zeroBits w hi lo = true) (hlo : lo ≤ lo') (hhi : lo' ≤ hi) :
    zeroBits w hi lo' = true :=
  (zeroBits_iff w hhi).mpr fun i h1 h2 => (zeroBits_iff w (hlo.trans hhi)).mp h i (hlo.trans h1) h2

theorem commandWord_repack_zero_10 {w : Word} {op : Byte} (hop : w.extractLsb' 0 8 = op) (h : zeroBits w 31 10 = true) :
    commandWord op (w.getLsbD 8) (w.getLsbD 9) false = w := by
  have h10 : w.getLsbD 10 = false := (zeroBits_iff w (by decide)).mp h 10 (by decide) (by decide)
  rw [← hop, ← h10]
  exact commandWord_repack (zeroBits_mono h (by decide) (by decide))

theorem commandWord_repack_zero_8 {w : Word} {op : Byte} (hop : w.extractLsb' 0 8 = op) (h : zeroBits w 31 8 = true) :
    commandWord op false false false = w := by
  have hbit := (zeroBits_iff w (by decide)).mp h
  have h8 := hbit 8 (by decide) (by decide)
  have h9 := hbit 9 (by decide) (by decide)
  have hw := commandWord_repack_zero_10 hop (zeroBits_mono h (by decide) (by decide))
  rwa [h8, h9] at hw

theorem commandWord_repack_kind {w : Word} {op : Byte} {k : Bool} (hop : w.extractLsb' 0 8 = op) (hk : w.getLsbD 10 = k)
    (h9 : zeroBits w 9 9 = true) (h11 : zeroBits w 31 11 = true) : commandWord op (w.getLsbD 8) false k = w := by
  have hdf : w.getLsbD 9 = false := (zeroBits_iff w le_rfl).mp h9 9 le_rfl le_rfl
  rw [← hop, ← hk, ← hdf]
  exact commandWord_repack h11

/-! ## Encoding what was decoded -/

theorem ifClear_ok_iff {clear : Bool} {i j : Instr} : ifClear clear i = .ok j ↔ clear = true ∧ i = j := by
  cases clear <;> simp [ifClear]

theorem encode_of_decodeC {w0 : Word} {ws : List Word} {i : Instr} (hop : w0.extractLsb' 0 8 = 0x01)
    (h : decodeC w0 ws = .ok i) : encode i = w0 :: ws := by
  unfold decodeC at h
  split at h
  · obtain ⟨h0, rfl⟩ := ifClear_ok_iff.mp h
    simp only [encode, commandWord_repack_zero_8 hop h0]
  · cases h

theorem encode_of_decodeP {w0 : Word} {ws : List Word} {i : Instr} (hop : w0.extractLsb' 0 8 = 0x02)
    (h : decodeP w0 ws = .ok i) : encode i = w0 :: ws := by
  unfold decodeP at h
  split at h
  · obtain ⟨hclear, rfl⟩ := ifClear_ok_iff.mp h
    obtain ⟨h0, h10⟩ := Bool.and_eq_true_iff.mp hclear
    simp only [encode, commandWord_repack_zero_8 hop h0, split_join, low_byte_repack h10, List.cons_append, List.nil_append]
  · cases h

theorem encode_of_decodeN {w0 : Word} {ws : List Word} {i : Instr} (hop : w0.extractLsb' 0 8 = 0x10)
    (h : decodeN w0 ws = .ok i) : encode i = w0 :: ws := by
  unfold decodeN at h
  split at h
  · obtain ⟨hclear, rfl⟩ := ifClear_ok_iff.mp h
    simp only [Bool.and_eq_true] at hclear
    obtain ⟨⟨h0, h1⟩, h3⟩ := hclear
    simp only [encode, commandWord_repack_zero_8 hop h0, low_half_repack h1, low_half_repack h3]
  · cases h

theorem encode_of_decodeB4 {w0 : Word} {ws : List Word} {i : Instr} (hop : w0.extractLsb' 0 8 = 0x20)
    (h : decodeB4 w0 ws = .ok i) : encode i = w0 :: ws := by
  unfold decodeB4 at h
  split at h
  · obtain ⟨hclear, rfl⟩ := ifClear_ok_iff.mp h
    simp only [Bool.and_eq_true] at hclear
    obtain ⟨⟨⟨h0, h5⟩, h7⟩, h9⟩ := hclear
    simp only [encode, commandWord_repack_zero_10 hop h0, byte_byte_half_repack, halves_repack, type_code_repack h5,
      low_half_repack h7, low_half_repack h9]
  · cases h

theorem encode_of_decodeS4 {w0 : Word} {ws : List Word} {i : Instr} (hop : w0.extractLsb' 0 8 = 0x21)
    (h : decodeS4 w0 ws = .ok i) : encode i = w0 :: ws := by
  unfold decodeS4 at h
  split at h
  · obtain ⟨hclear, rfl⟩ := ifClear_ok_iff.mp h
    simp only [Bool.and_eq_true] at hclear
    obtain ⟨⟨⟨⟨⟨h0, h3⟩, h4⟩, h5⟩, h7⟩, h9⟩ := hclear
    simp only [encode, commandWord_repack_zero_10 hop h0, high_byte_repack h3, low_half_repack h4, type_code_repack h5,
      low_half_repack h7, low_half_repack h9]
  · cases h

/-- `W0` and the shared words of formats B6E and B6N are those of the head they give (R58, R59). -/
theorem encodeHead6_head6 {w0 w1 w2 w3 w4 w5 w6 w7 w8 w9 w10 : Word} {op : Byte} {k : Bool} (hop : w0.extractLsb' 0 8 = op)
    (hk : w0.getLsbD 10 = k) (h : head6Clear w0 w9 w10 = true) :
    commandWord op (head6 w0 w1 w2 w3 w4 w5 w6 w7 w8 w9 w10).badsum false k = w0 ∧
      encodeHead6 (head6 w0 w1 w2 w3 w4 w5 w6 w7 w8 w9 w10) = [w1, w2, w3, w4, w5, w6, w7, w8, w9, w10] := by
  simp only [head6Clear, Bool.and_eq_true] at h
  obtain ⟨⟨⟨h9, h11⟩, hw9⟩, hw10⟩ := h
  refine ⟨commandWord_repack_kind hop hk h9 h11, ?_⟩
  simp only [encodeHead6, head6, split_join, class_label_repack hw9, hop_type_code_repack hw10, List.cons_append,
    List.nil_append]

theorem encode_of_decodeB6e {w0 : Word} {ws : List Word} {i : Instr} (hop : w0.extractLsb' 0 8 = 0x30)
    (hk : w0.getLsbD 10 = false) (h : decodeB6e w0 ws = .ok i) : encode i = w0 :: ws := by
  unfold decodeB6e at h
  split at h
  · obtain ⟨hclear, rfl⟩ := ifClear_ok_iff.mp h
    obtain ⟨hhead, h13⟩ := Bool.and_eq_true_iff.mp hclear
    simp only [encode, encodeHead6_head6 hop hk hhead, halves_repack, low_half_repack h13, List.cons_append, List.nil_append]
  · cases h

theorem encode_of_decodeB6n {w0 : Word} {ws : List Word} {i : Instr} (hop : w0.extractLsb' 0 8 = 0x30)
    (hk : w0.getLsbD 10 = true) (h : decodeB6n w0 ws = .ok i) : encode i = w0 :: ws := by
  unfold decodeB6n at h
  split at h
  case h_1 w1 w2 w3 w4 w5 w6 w7 w8 w9 w10 w11 w12 w13 w14 w15 w16 w17 w18 w19 w20 =>
    obtain ⟨hclear, rfl⟩ := ifClear_ok_iff.mp h
    simp only [Bool.and_eq_true] at hclear
    obtain ⟨⟨⟨hhead, h11⟩, h12⟩, h13⟩ := hclear
    obtain rfl := word_of_zeroBits h11
    obtain rfl := word_of_zeroBits h12
    obtain rfl := word_of_zeroBits h13
    have hmac : (w19.extractLsb' 0 16 ++ w20 : Mac).extractLsb' 32 16 = w19.extractLsb' 0 16 := extract_high _ w20
    have hlow : (w19.extractLsb' 0 16 ++ w20 : Mac).extractLsb' 0 32 = w20 := extract_low _ w20
    simp only [encode, encodeHead6_head6 hop hk hhead, split_join, hmac, hlow, byte_byte_half_repack, List.cons_append,
      List.nil_append]
  case h_2 => cases h

/-- Settles O3: the format `W0` selects is the one decoded by, and that format's words pack back from its fields. -/
theorem encodeOfDecode : Obligations.EncodeOfDecode := by
  intro ws i h
  cases ws with
  | nil => cases h
  | cons w0 ws =>
    cases hf : formatOf w0 with
    | none => simp [decode, hf] at h
    | some f =>
      rw [decode_of_formatOf hf] at h
      obtain ⟨hop, hkind⟩ := op_kind_of_formatOf hf
      cases f with
      | c => exact encode_of_decodeC hop h
      | p => exact encode_of_decodeP hop h
      | n => exact encode_of_decodeN hop h
      | b4 => exact encode_of_decodeB4 hop h
      | s4 => exact encode_of_decodeS4 hop h
      | b6e => exact encode_of_decodeB6e hop (hkind rfl) h
      | b6n => exact encode_of_decodeB6n hop (hkind rfl) h

/-! ## What the masks let through -/

/-- A mask that covers a range and meets no bit of a word leaves the range zero. -/
theorem zeroBits_of_and_eq_zero {w m : Word} {hi lo : Nat} (h : w &&& m = 0#32) (hl : lo ≤ hi) (hhi : hi < 32)
    (hm : ∀ i < 32, lo ≤ i → i ≤ hi → m.getLsbD i = true) : zeroBits w hi lo = true := by
  refine (zeroBits_iff w hl).mpr fun i h1 h2 => ?_
  have hbit : (w &&& m).getLsbD i = false := by rw [h, BitVec.getLsbD_zero]
  rwa [BitVec.getLsbD_and, hm i (by omega) h1 h2, Bool.and_true] at hbit

theorem zeroBits_31_8 {w : Word} (h : w &&& 0xFFFFFF00#32 = 0#32) : zeroBits w 31 8 = true :=
  zeroBits_of_and_eq_zero h (by decide) (by decide) (by decide)

theorem zeroBits_31_10 {w : Word} (h : w &&& 0xFFFFFC00#32 = 0#32) : zeroBits w 31 10 = true :=
  zeroBits_of_and_eq_zero h (by decide) (by decide) (by decide)

theorem zeroBits_31_16 {w : Word} (h : w &&& 0xFFFF0000#32 = 0#32) : zeroBits w 31 16 = true :=
  zeroBits_of_and_eq_zero h (by decide) (by decide) (by decide)

theorem zeroBits_31_0 {w : Word} (h : w &&& 0xFFFFFFFF#32 = 0#32) : zeroBits w 31 0 = true :=
  zeroBits_of_and_eq_zero h (by decide) (by decide) (by decide)

theorem head6Clear_of_masks {w0 w9 w10 : Word} (h0 : w0 &&& 0xFFFFFA00#32 = 0#32) (h9 : w9 &&& 0xF0000000#32 = 0#32)
    (h10 : w10 &&& 0x00FF0000#32 = 0#32) : head6Clear w0 w9 w10 = true := by
  have hw0 : zeroBits w0 9 9 = true := zeroBits_of_and_eq_zero h0 (by decide) (by decide) (by decide)
  have hw0' : zeroBits w0 31 11 = true := zeroBits_of_and_eq_zero h0 (by decide) (by decide) (by decide)
  have hw9 : zeroBits w9 31 28 = true := zeroBits_of_and_eq_zero h9 (by decide) (by decide) (by decide)
  have hw10 : zeroBits w10 23 16 = true := zeroBits_of_and_eq_zero h10 (by decide) (by decide) (by decide)
  simp only [head6Clear, hw0, hw0', hw9, hw10, Bool.and_self]

/-- A descriptor that meets the masks of its format passes that format's checks (R61, R62). -/
theorem decodeFormat_of_reservedClear {f : Format} {w0 : Word} {ws : List Word} (h : ReservedClear f (w0 :: ws)) :
    ∃ i, decodeFormat f w0 ws = .ok i := by
  cases f with
  | c =>
    obtain _ | ⟨h0, _ | ⟨-, _ | ⟨-, ⟨⟩⟩⟩⟩ := h
    exact ⟨_, ifClear_ok_iff.mpr ⟨zeroBits_31_8 h0, rfl⟩⟩
  | p =>
    obtain _ | ⟨h0, _ | ⟨-, _ | ⟨-, _ | ⟨-, _ | ⟨-, _ | ⟨-, _ | ⟨-, _ | ⟨-, _ | ⟨-, _ | ⟨-, _ | ⟨h10, _ | ⟨-, _ | ⟨-,
      ⟨⟩⟩⟩⟩⟩⟩⟩⟩⟩⟩⟩⟩⟩⟩ := h
    refine ⟨_, ifClear_ok_iff.mpr ⟨?_, rfl⟩⟩
    simp only [zeroBits_31_8 h0, zeroBits_31_8 h10, Bool.and_self]
  | n =>
    obtain _ | ⟨h0, _ | ⟨h1, _ | ⟨-, _ | ⟨h3, ⟨⟩⟩⟩⟩⟩ := h
    refine ⟨_, ifClear_ok_iff.mpr ⟨?_, rfl⟩⟩
    simp only [zeroBits_31_8 h0, zeroBits_31_16 h1, zeroBits_31_16 h3, Bool.and_self]
  | b4 =>
    obtain _ | ⟨h0, _ | ⟨-, _ | ⟨-, _ | ⟨-, _ | ⟨-, _ | ⟨h5, _ | ⟨-, _ | ⟨h7, _ | ⟨-, _ | ⟨h9, ⟨⟩⟩⟩⟩⟩⟩⟩⟩⟩⟩⟩ := h
    refine ⟨_, ifClear_ok_iff.mpr ⟨?_, rfl⟩⟩
    simp only [zeroBits_31_10 h0, zeroBits_31_16 h5, zeroBits_31_16 h7, zeroBits_31_16 h9, Bool.and_self]
  | s4 =>
    obtain _ | ⟨h0, _ | ⟨-, _ | ⟨-, _ | ⟨h3, _ | ⟨h4, _ | ⟨h5, _ | ⟨-, _ | ⟨h7, _ | ⟨-, _ | ⟨h9, _ | ⟨-, _ | ⟨-, _ | ⟨-,
      ⟨⟩⟩⟩⟩⟩⟩⟩⟩⟩⟩⟩⟩⟩⟩ := h
    refine ⟨_, ifClear_ok_iff.mpr ⟨?_, rfl⟩⟩
    have hw3 := zeroBits_of_and_eq_zero (hi := 23) (lo := 0) h3 (by decide) (by decide) (by decide)
    simp only [zeroBits_31_10 h0, hw3, zeroBits_31_16 h4, zeroBits_31_16 h5, zeroBits_31_16 h7, zeroBits_31_16 h9, Bool.and_self]
  | b6e =>
    obtain _ | ⟨h0, _ | ⟨-, _ | ⟨-, _ | ⟨-, _ | ⟨-, _ | ⟨-, _ | ⟨-, _ | ⟨-, _ | ⟨-, _ | ⟨h9, _ | ⟨h10, _ | ⟨-, _ | ⟨-,
      _ | ⟨h13, ⟨⟩⟩⟩⟩⟩⟩⟩⟩⟩⟩⟩⟩⟩⟩⟩ := h
    refine ⟨_, ifClear_ok_iff.mpr ⟨?_, rfl⟩⟩
    simp only [head6Clear_of_masks h0 h9 h10, zeroBits_31_16 h13, Bool.and_self]
  | b6n =>
    obtain _ | ⟨h0, _ | ⟨-, _ | ⟨-, _ | ⟨-, _ | ⟨-, _ | ⟨-, _ | ⟨-, _ | ⟨-, _ | ⟨-, _ | ⟨h9, _ | ⟨h10, _ | ⟨h11, _ | ⟨h12,
      _ | ⟨h13, _ | ⟨-, _ | ⟨-, _ | ⟨-, _ | ⟨-, _ | ⟨-, _ | ⟨-, _ | ⟨-, ⟨⟩⟩⟩⟩⟩⟩⟩⟩⟩⟩⟩⟩⟩⟩⟩⟩⟩⟩⟩⟩⟩⟩ := h
    refine ⟨_, ifClear_ok_iff.mpr ⟨?_, rfl⟩⟩
    simp only [head6Clear_of_masks h0 h9 h10, zeroBits_31_0 h11, zeroBits_31_0 h12, zeroBits_31_0 h13, Bool.and_self]

theorem reservedClear_of_wellFormed {f : Format} {w0 : Word} {ws : List Word} (hf : Format.ofW0 w0 = some f)
    (h : wellFormed (w0 :: ws) = true) : ReservedClear f (w0 :: ws) := by
  simp only [wellFormed, hf, Bool.and_eq_true, beq_iff_eq, List.all_eq_true] at h
  obtain ⟨hlen, hall⟩ := h
  refine List.forall₂_iff_zip.mpr ⟨hlen, fun {w m} hwm => hall _ ?_⟩
  rw [← List.map_uncurry_zip_eq_zipWith]
  exact List.mem_map.mpr ⟨(w, m), hwm, rfl⟩

/-- Settles O4: what decodes meets the masks, and a descriptor that meets the masks of the format it selects passes the checks. -/
theorem decodeAcceptsWellFormed : Obligations.DecodeAcceptsWellFormed := by
  refine fun ws => ⟨fun ⟨_, h⟩ => wellFormed_of_decode_ok h, fun h => ?_⟩
  cases ws with
  | nil => cases h
  | cons w0 ws =>
    cases hf : formatOf w0 with
    | none =>
      rw [formatOf_eq_ofW0] at hf
      simp [wellFormed, hf] at h
    | some f =>
      rw [decode_of_formatOf hf]
      rw [formatOf_eq_ofW0] at hf
      exact decodeFormat_of_reservedClear (reservedClear_of_wellFormed hf h)

/-- Settles O6: an `OP` outside the table selects no format. -/
theorem reservedOpcodeRejected : Obligations.ReservedOpcodeRejected := by
  intro w0 ws hop
  have hf : formatOf w0 = none := by
    unfold formatOf
    split <;> simp_all
  simp only [decode, hf]

theorem decode_of_encode_eq {ws : List Word} {i : Instr} (h : encode i = ws) : decode ws = .ok i := h ▸ decodeOfEncode i

/-- Settles O1: each descriptor is the one the encoder gives its operation. -/
theorem specVectorsDecode : Obligations.SpecVectorsDecode := by
  refine ⟨?_, ?_, ?_, ?_, ?_, ?_, ?_⟩ <;> exact decode_of_encode_eq (by decide)

end Sys2Proof
end

section
/-! The contract of R166 (60_exceptions.md section 2, 20_memory.md section 5): what a command does with operands in and out of it. -/

namespace Sys2Proof.Machine

open Sys2Proof.Safety

/-! ## The operand buffer (R34) -/

section OperandBuffer

variable {s : State} {p : Word} {n : Nat}

theorem opbuf_empty (s : State) (p : Word) : opbuf s p 0 = .ok [] := if_pos rfl

theorem opbuf_null (hn : n ≠ 0) : opbuf s 0 n = .error .operandNull := by
  unfold opbuf
  rw [if_neg hn, if_pos rfl]

theorem opbuf_wraps (hn : n ≠ 0) (hp : p ≠ 0) (hw : p.toNat + n > 2 ^ 32) : opbuf s p n = .error .operandWraps := by
  unfold opbuf
  rw [if_neg hn, if_neg hp, if_pos hw]

theorem read_eq_none_of_not_provided {m : Memory} {a n : Nat} (h : ¬ Provided m a n) : m.read a n = none := by
  cases hr : m.read a n with
  | none => rfl
  | some bs => exact absurd ((provided_iff ..).mpr ⟨bs, hr⟩) h

theorem opbuf_notProvided (hn : n ≠ 0) (hp : p ≠ 0) (hw : p.toNat + n ≤ 2 ^ 32) (h : ¬ Provided s.mem p.toNat n) :
    opbuf s p n = .error .operandNotProvided := by
  unfold opbuf
  rw [if_neg hn, if_neg hp, if_neg (Nat.not_lt.mpr hw), read_eq_none_of_not_provided h]

theorem opbuf_provided (hn : n ≠ 0) (hp : p ≠ 0) (hw : p.toNat + n ≤ 2 ^ 32) (h : Provided s.mem p.toNat n) :
    ∃ bs, opbuf s p n = .ok bs ∧ bs.length = n ∧ ∀ k < n, bs[k]? = s.mem.get? (p.toNat + k) := by
  obtain ⟨bs, hr⟩ := (provided_iff ..).mp h
  obtain ⟨hlen, hget⟩ := (Memory.read_eq_some_iff ..).mp hr
  exact ⟨bs, (opbuf_ok_iff ..).mpr (.inr ⟨hn, hp, hw, hr⟩), hlen, fun k hk => (hget k hk).symm⟩

end OperandBuffer

/-- Settles O28: the cases of R34 in their order. -/
theorem operandBufferCases : Obligations.OperandBufferCases := by
  intro s ptr n
  refine ⟨?_, ?_, opbuf_wraps, opbuf_notProvided, opbuf_provided⟩
  · rintro rfl
    exact opbuf_empty s ptr
  · rintro hn rfl
    exact opbuf_null hn

/-! ## The byte range (R166(e)) -/

theorem byteRange_wraps {s : State} {p n : Word} (hp : p ≠ 0) (hn : n ≠ 0) (hw : p.toNat + n.toNat > 2 ^ 32) :
    byteRange s p n.toNat = .error .rangeWraps := by
  have h0 : ¬ (p = 0 ∨ n.toNat = 0) := not_or.mpr ⟨hp, fun h => hn (BitVec.eq_of_toNat_eq h)⟩
  unfold byteRange
  rw [if_neg h0, if_pos hw]

theorem byteRange_notProvided {s : State} {p n : Word} (hp : p ≠ 0) (hn : n ≠ 0) (hw : p.toNat + n.toNat ≤ 2 ^ 32)
    (h : ¬ Provided s.mem p.toNat n.toNat) : byteRange s p n.toNat = .error .rangeNotProvided := by
  have h0 : ¬ (p = 0 ∨ n.toNat = 0) := not_or.mpr ⟨hp, fun h => hn (BitVec.eq_of_toNat_eq h)⟩
  unfold byteRange
  rw [if_neg h0, if_neg (Nat.not_lt.mpr hw), read_eq_none_of_not_provided h]

/-! ## Refusal by name (R166) -/

theorem exec_csum_of_error {d : CsumOp} {s : State} {r : Refusal} (h : byteRange s d.ptr d.length.toNat = .error r) :
    exec (.csum d) s = .refused r := by
  rw [exec_csum_eq, h]
  rfl

theorem exec_pcsum6_of_error {d : Pcsum6Op} {s : State} {r : Refusal}
    (h : byteRange s d.payloadPtr d.payloadLen.toNat = .error r) : exec (.pcsum6 d) s = .refused r := by
  rw [exec_pcsum6_eq, h]
  rfl

theorem exec_needfrag_of_error {d : NeedfragOp} {s : State} {r : Refusal} (h : opbuf s d.origPtr d.origLen.toNat = .error r) :
    exec (.needfrag d) s = .refused r := by
  simp only [exec, execNeedfrag, h]

theorem exec_build4_of_error {d : Build4Op} {s : State} {r : Refusal}
    (h : operands4 s d.optPtr d.optLen d.dataPtr d.dataLen = .error r) : exec (.build4 d) s = .refused r := by
  simp only [exec, execBuild4, h]

theorem exec_send4_of_error {d : Send4Op} {s : State} {r : Refusal}
    (h : operands4 s d.optPtr d.optLen d.dataPtr d.dataLen = .error r) : exec (.send4 d) s = .refused r := by
  simp only [exec, execSend4, h]

theorem exec_build6Echo_of_error {d : Build6EchoOp} {s : State} {r : Refusal}
    (h : operandsEcho s d.dataPtr d.dataLen = .error r) : exec (.build6Echo d) s = .refused r := by
  simp only [exec, execBuild6Echo, h]

section Operands4

variable {s : State} {op dp : Word} {ol dl : Half}

theorem operands4_optionsError {r : Refusal} (h : dl.toNat ≤ 1500) (h4 : ol.toNat % 4 = 0) (ho : ol.toNat ≤ 40)
    (hr : opbuf s op ol.toNat = .error r) : operands4 s op ol dp dl = .error r := by
  rw [operands4_within h h4 ho, hr]

theorem operands4_dataError {o : List Byte} {r : Refusal} (h : dl.toNat ≤ 1500) (h4 : ol.toNat % 4 = 0) (ho : ol.toNat ≤ 40)
    (hok : opbuf s op ol.toNat = .ok o) (hr : opbuf s dp dl.toNat = .error r) : operands4 s op ol dp dl = .error r := by
  rw [operands4_within h h4 ho, hok, hr]

end Operands4

theorem operandsEcho_overMax {s : State} {p : Word} {n : Half} (h : n.toNat > Config.echoDataMax) :
    operandsEcho s p n = .error .echoOverMax := if_pos h

theorem operandsEcho_within {s : State} {p : Word} {n : Half} (h : n.toNat ≤ Config.echoDataMax) :
    operandsEcho s p n = opbuf s p n.toNat := if_neg (Nat.not_lt.mpr h)

/-- Settles O27: each operation refuses with the name its operands are refused by. -/
theorem contractViolationsByName : Obligations.ContractViolationsByName := by
  refine ⟨?_, ?_, ?_, ?_, ?_, ?_, ?_, ?_, ?_, ?_, ?_, ?_, ?_, ?_, ?_⟩
  · exact fun d s h => exec_build4_of_error (operands4_overMax h)
  · exact fun d s h => exec_send4_of_error (operands4_overMax h)
  · exact fun d s h ho => exec_build4_of_error (operands4_optionLength h ho)
  · exact fun d s h ho => exec_send4_of_error (operands4_optionLength h ho)
  · exact fun d s h => exec_build6Echo_of_error (operandsEcho_overMax h)
  · exact fun d s r h => exec_needfrag_of_error h
  · exact fun d s r hmax h => exec_build6Echo_of_error ((operandsEcho_within hmax).trans h)
  · exact fun d s r h h4 ho hr => exec_build4_of_error (operands4_optionsError h h4 ho hr)
  · exact fun d s r h h4 ho hr => exec_send4_of_error (operands4_optionsError h h4 ho hr)
  · exact fun d s o r h h4 ho hok hr => exec_build4_of_error (operands4_dataError h h4 ho hok hr)
  · exact fun d s o r h h4 ho hok hr => exec_send4_of_error (operands4_dataError h h4 ho hok hr)
  · exact fun d s hp hn hw => exec_csum_of_error (byteRange_wraps hp hn hw)
  · exact fun d s hp hn hw h => exec_csum_of_error (byteRange_notProvided hp hn hw h)
  · exact fun d s hp hn hw => exec_pcsum6_of_error (byteRange_wraps hp hn hw)
  · exact fun d s hp hn hw h => exec_pcsum6_of_error (byteRange_notProvided hp hn hw h)

/-! ## A command in contract runs, any other is refused (R166) -/

theorem sumOutcome_of_rangeOk (f : List Byte → Half) {s : State} {p n : Word} (h : RangeOk s p n.toNat) :
    ∃ c, sumOutcome f s (byteRange s p n.toNat) = .next (respondSum c s) := by
  obtain ⟨o, ho⟩ := (byteRange_isOk_iff ..).mpr h
  rw [ho]
  cases o with
  | none => exact ⟨0xFFFF, rfl⟩
  | some bs => exact ⟨f bs, rfl⟩

/-- A checksum operation in contract leaves its response and no more (R80). -/
theorem exec_of_no_request {i : Instr} {s : State} (hr : request i = none) (hc : InContract i s) :
    ∃ c, exec i s = .next (respondSum c s) := by
  cases i with
  | csum d =>
    rw [exec_csum_eq]
    exact sumOutcome_of_rangeOk cksum hc
  | pcsum6 d =>
    rw [exec_pcsum6_eq]
    exact sumOutcome_of_rangeOk _ hc
  | _ => cases hr

theorem exec_next_of_inContract {i : Instr} {s : State} (hc : InContract i s) : ∃ t, exec i s = .next t := by
  cases hr : request i with
  | none =>
    obtain ⟨c, hexec⟩ := exec_of_no_request hr hc
    exact ⟨_, hexec⟩
  | some n =>
    rcases exec_of_request hr hc with ⟨_, -, hexec⟩ | ⟨_, _, -, -, hexec⟩
    · exact ⟨_, hexec⟩
    · exact ⟨_, hexec⟩

theorem exists_error {ε α : Type} {e : Except ε α} (h : ¬ ∃ a, e = .ok a) : ∃ r, e = .error r := by
  cases e with
  | error r => exact ⟨r, rfl⟩
  | ok a => exact absurd ⟨a, rfl⟩ h

theorem exec_refused_of_not_inContract {i : Instr} {s : State} (hc : ¬ InContract i s) : ∃ r, exec i s = .refused r := by
  cases i with
  | csum d =>
    obtain ⟨r, hr⟩ := byteRange_of_not_rangeOk hc
    exact ⟨r, exec_csum_of_error hr⟩
  | pcsum6 d =>
    obtain ⟨r, hr⟩ := byteRange_of_not_rangeOk hc
    exact ⟨r, exec_pcsum6_of_error hr⟩
  | needfrag d =>
    obtain ⟨r, hr⟩ := exists_error (mt (opbuf_isOk_iff ..).mp hc)
    exact ⟨r, exec_needfrag_of_error hr⟩
  | build4 d =>
    obtain ⟨r, hr⟩ := exists_error (mt (operands4_isOk_iff ..).mp hc)
    exact ⟨r, exec_build4_of_error hr⟩
  | send4 d =>
    obtain ⟨r, hr⟩ := exists_error (mt (operands4_isOk_iff ..).mp hc)
    exact ⟨r, exec_send4_of_error hr⟩
  | build6Echo d =>
    have hecho : ¬ ∃ data, operandsEcho s d.dataPtr d.dataLen = .ok data := by
      rintro ⟨data, hok⟩
      obtain ⟨hmax, hbuf⟩ := (operandsEcho_ok_iff ..).mp hok
      exact hc ⟨hmax, (opbuf_isOk_iff ..).mp ⟨data, hbuf⟩⟩
    obtain ⟨r, hr⟩ := exists_error hecho
    exact ⟨r, exec_build6Echo_of_error hr⟩
  | build6Nd d => exact absurd trivial hc

/-- A command that runs is in contract. -/
theorem inContract_of_exec {i : Instr} {s t : State} (h : exec i s = .next t) : InContract i s := by
  by_contra hc
  obtain ⟨r, hr⟩ := exec_refused_of_not_inContract hc
  rw [hr] at h
  cases h

/-- Settles O26: in contract an operation answers a next state, out of it a refusal. -/
theorem runsExactlyInContract : Obligations.RunsExactlyInContract :=
  fun _ _ => ⟨fun ⟨_, h⟩ => inContract_of_exec h, exec_next_of_inContract⟩

end Sys2Proof.Machine
end

section
/-! What a run of a command can leave (20_memory.md R38 to R40, 44_transmission.md R140 to R148): the ends of a builder and of SEND4
as cases, and what every end keeps. -/

namespace Sys2Proof.Machine

open Sys2Proof.Safety

/-! ## Where a buffer is placed -/

/-- Settles O44: `allocAnswer` lets no other placement through. -/
theorem freshPlacement : Obligations.FreshPlacement := by
  intro n s a h
  obtain ⟨h0, hfit, hclear⟩ := allocAnswer_placed h
  exact ⟨h0, hfit, (Memory.clear_iff ..).mp hclear⟩

/-- A populated address lies outside a fresh range (R38). -/
theorem outside_of_populated {m : Memory} {a n x : Nat} (hclear : m.clear a n = true) (hx : (m.get? x).isSome = true) :
    x < a ∨ a + n ≤ x := by
  by_contra hin
  have hnone : m.get? x = none := (Memory.clear_iff ..).mp hclear x (by omega) (by omega)
  simp [hnone] at hx

/-! ## The ends of SEND4 -/

/-- What SEND4 with the call `c` can leave from `s`, case by case (R140, R142, R144, R145, R148). -/
inductive SendOutcome (c : TxCall) (s : State) : State → Prop where
  | waitsAlloc (h : allocAnswer c.pkt.length s = .silent) : SendOutcome c s (popAlloc s)
  | allocFails (h : allocAnswer c.pkt.length s = .null) : SendOutcome c s (raise .allocFail (popAlloc (popDraw s)))
  | overMtu (a : Word) (h : allocAnswer c.pkt.length s = .placed a) :
    SendOutcome c s (raise .mtuExceeded (release { addr := a, len := c.pkt.length } (packetPlaced a c.pkt s)))
  | waitsTx (a : Word) (h : allocAnswer c.pkt.length s = .placed a) : SendOutcome c s (popTx (startTx c (packetPlaced a c.pkt s)))
  | answered (a : Word) (ok : Bool) (h : allocAnswer c.pkt.length s = .placed a) :
    SendOutcome c s (raise (if ok then .ok else .txFail)
      (release { addr := a, len := c.pkt.length } (recordTx c ok (popTx (startTx c (packetPlaced a c.pkt s))))))

/-- A silent transmitter leaves the send in progress (R148). -/
theorem awaitTx_silent {c : TxCall} {s : State} (h : nextTx s = .silent) : awaitTx c s = popTx s := by
  simp only [awaitTx, h]

theorem sendBuilt_outcome (d : Send4Op) (pkt : List Byte) (s : State) :
    SendOutcome { link := d.link, fd := d.fd, pkt := pkt } s (sendBuilt d pkt s) := by
  cases ha : allocAnswer pkt.length s with
  | silent =>
    have hend : sendBuilt d pkt s = popAlloc s := by simp only [sendBuilt, ha]
    rw [hend]
    exact .waitsAlloc ha
  | null =>
    rw [sendBuilt_of_null ha]
    exact .allocFails ha
  | placed a =>
    by_cases hmtu : pkt.length ≤ d.mtu.toNat
    case neg =>
      rw [sendBuilt_overMtu ha (Nat.not_le.mp hmtu)]
      exact .overMtu a ha
    case pos =>
      rw [sendBuilt_withinMtu ha hmtu]
      generalize hu : startTx _ (packetPlaced a pkt s) = u
      cases htx : nextTx u with
      | silent =>
        rw [awaitTx_silent htx, ← hu]
        exact .waitsTx a ha
      | answered ok =>
        rw [awaitTx_answered htx, ← hu]
        exact .answered a ok ha

/-! ## MEM and the live set (R19, R30, R32) -/

/-- Every populated address reads as before and every live buffer is still live. -/
def EnvGrows (s t : State) : Prop :=
  (∀ x, (s.mem.get? x).isSome = true → t.mem.get? x = s.mem.get? x) ∧ ∀ b ∈ s.live, b ∈ t.live

theorem envGrows_of_eq {s t : State} (hm : t.mem = s.mem) (hl : t.live = s.live) : EnvGrows s t := by
  refine ⟨fun x _ => by rw [hm], fun b hb => ?_⟩
  rwa [hl]

theorem envGrows_memWrite_grant {s : State} {a : Word} {bs : List Byte} (hclear : s.mem.clear a.toNat bs.length = true) :
    EnvGrows s (memWrite a bs (grant a bs.length s)) := by
  refine ⟨fun x hx => ?_, fun b hb => mem_insertBuffer.mpr (.inr hb)⟩
  have hout := outside_of_populated hclear hx
  rw [memWrite_grant_get?, if_neg (by omega)]

/-- Releasing what was placed takes nothing away that was there before (R146). -/
theorem envGrows_release_placed {s u : State} {a : Word} {pkt : List Byte} (hL : LiveInv s) (hpos : 1 ≤ pkt.length)
    (ha : allocAnswer pkt.length s = .placed a) (hm : u.mem = (packetPlaced a pkt s).mem)
    (hl : u.live = (packetPlaced a pkt s).live) : EnvGrows s (release { addr := a, len := pkt.length } u) := by
  obtain ⟨-, -, hclear⟩ := allocAnswer_placed ha
  constructor
  · intro x hx
    have hout := outside_of_populated hclear hx
    have hplaced : (packetPlaced a pkt s).mem.get? x = s.mem.get? x :=
      (envGrows_memWrite_grant (s := popAlloc (popDraw s)) hclear).1 x hx
    rw [release_mem, Memory.get?_drop, if_neg (by simp only; omega), hm, hplaced]
  · intro b hb
    have hback := filter_packetPlaced hL hpos ha
    rw [release_live, hl, hback]
    exact hb

theorem buildInto_envGrows (bs : List Byte) (s : State) : EnvGrows s (buildInto bs s) := by
  rcases buildInto_cases bs s with ⟨-, hend⟩ | ⟨-, hend⟩ | ⟨a, ha, hend⟩
  · exact envGrows_of_eq (by rw [hend]; rfl) (by rw [hend]; rfl)
  · exact envGrows_of_eq (by rw [hend]; rfl) (by rw [hend]; rfl)
  · obtain ⟨-, -, hclear⟩ := allocAnswer_placed ha
    rw [hend]
    exact envGrows_memWrite_grant (s := popAlloc s) hclear

theorem sendOutcome_envGrows {c : TxCall} {s t : State} (hL : LiveInv s) (hpos : 1 ≤ c.pkt.length) (h : SendOutcome c s t) :
    EnvGrows s t := by
  cases h with
  | waitsAlloc _ => exact envGrows_of_eq rfl rfl
  | allocFails _ => exact envGrows_of_eq rfl rfl
  | overMtu a ha => exact envGrows_release_placed hL hpos ha rfl rfl
  | waitsTx a ha =>
    obtain ⟨-, -, hclear⟩ := allocAnswer_placed ha
    exact envGrows_memWrite_grant (s := popAlloc (popDraw s)) hclear
  | answered a ok ha => exact envGrows_release_placed (u := recordTx c ok _) hL hpos ha rfl rfl

/-- Settles O45: a checksum operation changes nothing, a builder writes into a fresh buffer alone, and SEND4 releases only the fresh
buffer it placed. -/
theorem populatedMemoryKept : Obligations.PopulatedMemoryKept := by
  intro i s t hL h
  rcases exec_cases h with ⟨c, rfl⟩ | ⟨bs, -, rfl⟩ | ⟨d, pkt, -, hpos, rfl⟩
  · exact envGrows_of_eq rfl rfl
  · exact buildInto_envGrows bs s
  · exact sendOutcome_envGrows hL (by simp only; omega) (sendBuilt_outcome d pkt s)

/-! ## The host's inputs, the history -/

/-- The ends of a builder, as far as they do not depend on its bytes: only the allocator was asked. -/
theorem buildInto_keeps (bs : List Byte) (s : State) :
    (buildInto bs s).host = s.host ∧ (buildInto bs s).meanwhile = s.meanwhile ∧ (buildInto bs s).history = s.history ∧
      ((buildInto bs s).sending = none ∨ (buildInto bs s).sending = s.sending) := by
  rcases buildInto_cases bs s with ⟨-, hend⟩ | ⟨-, hend⟩ | ⟨a, -, hend⟩ <;> rw [hend]
  · exact ⟨rfl, rfl, rfl, .inr rfl⟩
  · exact ⟨rfl, rfl, rfl, .inl rfl⟩
  · exact ⟨rfl, rfl, rfl, .inl rfl⟩

theorem sendOutcome_host {c : TxCall} {s t : State} (h : SendOutcome c s t) : t.host = s.host ∧ t.meanwhile = s.meanwhile := by
  cases h <;> simp [packetPlaced]

theorem sendOutcome_history {c : TxCall} {s t : State} (h : SendOutcome c s t) :
    t.history = s.history ∨ ∃ r, t.history = s.history ++ [r] := by
  cases h with
  | answered a ok _ => exact .inr ⟨{ call := c, answer := ok }, rfl⟩
  | _ => exact .inl rfl

/-- Settles O58: no end of a command takes from the host's lists. -/
theorem hostMovesKept : Obligations.HostMovesKept := by
  intro i s t h
  rcases exec_cases h with ⟨c, rfl⟩ | ⟨bs, -, rfl⟩ | ⟨d, pkt, -, -, rfl⟩
  · exact ⟨rfl, rfl⟩
  · obtain ⟨hhost, hmeanwhile, -, -⟩ := buildInto_keeps bs s
    exact ⟨hhost, hmeanwhile⟩
  · exact sendOutcome_host (sendBuilt_outcome d pkt s)

/-- Settles O57: only an answered send adds to the history, and only SEND4 sends. -/
theorem onlySend4Transmits : Obligations.OnlySend4Transmits := by
  intro i s t h
  rcases exec_cases h with ⟨c, rfl⟩ | ⟨bs, -, rfl⟩ | ⟨d, pkt, rfl, -, rfl⟩
  · exact ⟨.inl rfl, fun _ => ⟨rfl, .inl rfl⟩⟩
  · obtain ⟨-, -, hhistory, hsending⟩ := buildInto_keeps bs s
    exact ⟨.inl hhistory, fun _ => ⟨hhistory, hsending⟩⟩
  · exact ⟨sendOutcome_history (sendBuilt_outcome d pkt s), fun hne => absurd rfl (hne d)⟩

/-! ## The response (R15, R145) -/

/-- A response that appears is the one `raise` gives for a status SEND4 has, which tells what the history has gained (R145, R146). -/
theorem sendOutcome_response {c : TxCall} {s t : State} {r : Response} (h : SendOutcome c s t) (hs : s.response = none)
    (hr : t.response = some r) :
    (r.csum = 0 ∧ r.buf = 0 ∧ r.len = 0) ∧ (t.phase = .idle ∧ t.captured = none) ∧
      ((r.status = .ok ∧ ∃ c, t.history = s.history ++ [{ call := c, answer := true }]) ∨
       (r.status = .txFail ∧ ∃ c, t.history = s.history ++ [{ call := c, answer := false }]) ∨
       ((r.status = .allocFail ∨ r.status = .mtuExceeded) ∧ t.history = s.history)) := by
  have hraise (st : Status) (u : State) (hu : (raise st u).response = some r) :
      r = { status := st, csum := 0, buf := 0, len := 0 } := (Option.some.inj hu).symm
  cases h with
  | waitsAlloc _ => exact absurd (hs.symm.trans hr) nofun
  | waitsTx a _ => exact absurd (hs.symm.trans hr) nofun
  | allocFails _ =>
    obtain rfl := hraise _ _ hr
    exact ⟨⟨rfl, rfl, rfl⟩, ⟨rfl, rfl⟩, .inr (.inr ⟨.inl rfl, rfl⟩)⟩
  | overMtu a _ =>
    obtain rfl := hraise _ _ hr
    exact ⟨⟨rfl, rfl, rfl⟩, ⟨rfl, rfl⟩, .inr (.inr ⟨.inr rfl, rfl⟩)⟩
  | answered a ok _ =>
    obtain rfl := hraise _ _ hr
    cases ok with
    | true => exact ⟨⟨rfl, rfl, rfl⟩, ⟨rfl, rfl⟩, .inl ⟨rfl, c, rfl⟩⟩
    | false => exact ⟨⟨rfl, rfl, rfl⟩, ⟨rfl, rfl⟩, .inr (.inl ⟨rfl, c, rfl⟩)⟩

/-- Settles O56: SEND4 responds only at an end that has recorded what its status tells. -/
theorem send4StatusTellsAttempt : Obligations.Send4StatusTellsAttempt := by
  intro d s t r hs h hr
  obtain ⟨⟨opts, data⟩, hops⟩ := (operands4_isOk_iff ..).mpr (inContract_of_exec h)
  obtain rfl := Host.Outcome.next.inj ((exec_send4_of_ok hops).symm.trans h)
  obtain ⟨⟨hcsum, hbuf, hlen⟩, -, htells⟩ := sendOutcome_response (sendBuilt_outcome d _ s) hs hr
  exact ⟨hcsum, hbuf, hlen, htells⟩

/-- A builder's response has no checksum, and on failure nothing at all (R15, R93, R109, R130). -/
theorem buildInto_response {bs : List Byte} {s : State} {r : Response} (hs : s.response = none)
    (hr : (buildInto bs s).response = some r) :
    r.csum = 0 ∧ (r.status ≠ .ok → r.buf = 0 ∧ r.len = 0) ∧ (buildInto bs s).phase = .idle ∧
      (buildInto bs s).captured = none := by
  rcases buildInto_cases bs s with ⟨-, hend⟩ | ⟨-, hend⟩ | ⟨a, -, hend⟩ <;> rw [hend] at hr ⊢
  · exact absurd (hs.symm.trans hr) nofun
  · obtain rfl := Option.some.inj hr
    exact ⟨rfl, fun _ => ⟨rfl, rfl⟩, rfl, rfl⟩
  · obtain rfl := Option.some.inj hr
    exact ⟨rfl, fun hne => absurd rfl hne, rfl, rfl⟩

/-- Settles O59: an operation that asks no buffer answers a checksum alone, one that asks for a buffer answers no checksum. -/
theorem responseFieldsZero : Obligations.ResponseFieldsZero := by
  intro i s t r hs h hr
  have hc := inContract_of_exec h
  cases hreq : request i with
  | none =>
    obtain ⟨c, hexec⟩ := exec_of_no_request hreq hc
    obtain rfl := Host.Outcome.next.inj (hexec.symm.trans h)
    obtain rfl := Option.some.inj hr
    exact ⟨fun hne => absurd rfl hne, fun _ => ⟨rfl, rfl⟩, fun hne => absurd rfl hne, rfl, rfl⟩
  | some n =>
    rcases exec_of_request hreq hc with ⟨bs, -, hexec⟩ | ⟨d, pkt, -, -, hexec⟩
    · obtain rfl := Host.Outcome.next.inj (hexec.symm.trans h)
      obtain ⟨hcsum, hfail, hphase, hcaptured⟩ := buildInto_response hs hr
      exact ⟨fun hne => ⟨hcsum, hfail hne⟩, nofun, fun _ => hcsum, hphase, hcaptured⟩
    · obtain rfl := Host.Outcome.next.inj (hexec.symm.trans h)
      obtain ⟨hzero, ⟨hphase, hcaptured⟩, -⟩ := sendOutcome_response (sendBuilt_outcome d pkt s) hs hr
      exact ⟨fun _ => hzero, nofun, fun _ => hzero.1, hphase, hcaptured⟩

/-! ## Waiting (R148, R191) -/

theorem popAlloc_stillBusy (s : State) : StillBusy s (popAlloc s) := ⟨rfl, rfl, rfl⟩

theorem popAlloc_envKept (s : State) : EnvKept s (popAlloc s) := ⟨rfl, rfl, rfl⟩

theorem popAlloc_askedAlloc (s : State) : AskedAlloc s (popAlloc s) := ⟨rfl, rfl, rfl, rfl, rfl, rfl⟩

/-- Settles O43: builder or SEND4, a command the allocator does not answer has asked it and done no more. -/
theorem silentAllocatorWaits : Obligations.SilentAllocatorWaits := by
  intro i s n hreq hc hsilent
  have hend : exec i s = .next (popAlloc s) := by
    rcases exec_of_request hreq hc with ⟨bs, rfl, hexec⟩ | ⟨d, pkt, -, rfl, hexec⟩
    · rw [hexec]
      simp only [buildInto, hsilent]
    · rw [hexec]
      simp only [sendBuilt, hsilent]
  exact ⟨_, hend, popAlloc_stillBusy s, rfl, rfl, popAlloc_envKept s, popAlloc_askedAlloc s⟩

/-- A placed packet within the limit is handed over whole, and the silent transmitter leaves it where it was placed (R140, R148). -/
theorem sendBuilt_silent_waits {d : Send4Op} {pkt : List Byte} {s : State} {a : Word} (ha : allocAnswer pkt.length s = .placed a)
    (hmtu : pkt.length ≤ d.mtu.toNat) (htx : nextTx (popAlloc (popDraw s)) = .silent) :
    StillBusy s (sendBuilt d pkt s) ∧ (sendBuilt d pkt s).history = s.history ∧
      (sendBuilt d pkt s).sending = some { link := d.link, fd := d.fd, pkt := pkt } ∧
      (sendBuilt d pkt s).owned = some { addr := a, len := pkt.length } ∧
      (sendBuilt d pkt s).mem.read a.toNat pkt.length = some pkt ∧
      ∀ x, x < a.toNat ∨ a.toNat + pkt.length ≤ x → (sendBuilt d pkt s).mem.get? x = s.mem.get? x := by
  have hsilent (c : TxCall) : nextTx (startTx c (packetPlaced a pkt s)) = .silent := (nextTx_congr rfl rfl).trans htx
  rw [sendBuilt_withinMtu ha hmtu, awaitTx_silent (hsilent _)]
  refine ⟨by simp [StillBusy, packetPlaced], by simp [packetPlaced], rfl, rfl, Memory.read_write _ _ _, fun x hx => ?_⟩
  exact (memWrite_grant_get? (popAlloc (popDraw s)) a pkt x).trans (if_neg (by omega))

/-- Settles O54: SEND4 sends the packet of the BUILD4 record with the drawn values, and waits. -/
theorem send4Waits : Obligations.Send4Waits := by
  intro d s opts data a hdata hmod hopt ho hd ha hmtu htx w pkt
  have hlen : pkt.length = 28 + d.optLen.toNat + d.dataLen.toNat := packet4_build4Of_length (nextDraw s) ho hd
  rw [← hlen] at ha hmtu ⊢
  exact ⟨_, exec_send4_of_ok ((operands4_ok_iff ..).mpr ⟨hdata, hmod, hopt, ho, hd⟩), sendBuilt_silent_waits ha hmtu htx⟩

/-- Settles O55: the send in progress is the whole of the block's step, and an answer releases the buffer it owns. -/
theorem sendInProgress : Obligations.SendInProgress := by
  intro s c b hbusy hwaits hsending howned
  have hstep : step s = .next (awaitTx c (popMeanwhile s)) := by
    rw [step_eq_blockStep hbusy hwaits]
    simp only [blockStep, popMeanwhile_sending, hsending]
  rw [hstep]
  have htx : nextTx (popMeanwhile s) = nextTx s := nextTx_congr rfl rfl
  constructor
  · intro hsilent
    rw [awaitTx_silent (htx.trans hsilent)]
    exact ⟨_, rfl, ⟨rfl, rfl, rfl⟩, hsending, howned, rfl, rfl, rfl⟩
  · intro ok hanswered
    rw [awaitTx_answered (htx.trans hanswered),
      releaseOwned_of_owned (s := recordTx c ok (popTx (popMeanwhile s))) (b := b) howned]
    refine ⟨_, rfl, raise_delivered _ _, rfl, fun x h1 h2 => ?_, fun x hx => ?_, fun x => ?_⟩
    · rw [raise_mem, release_mem, Memory.get?_drop, if_pos ⟨h1, h2⟩]
    · rw [raise_mem, release_mem, Memory.get?_drop, if_neg (by omega)]
      rfl
    · simp

end Sys2Proof.Machine
end

section
/-! No state across operations (00_scope.md R5): what a command can see of a state, and that its run in that part alone is its run in the
whole, the history it found put before the entries it adds. -/

namespace Sys2Proof.Machine

open Sys2Proof.Safety

/-- What a command can see: `MEM`, the environment's answers to come, and the pending response; nothing an earlier command left behind. -/
def forget (s : State) : State :=
  { s with phase := .idle, captured := none, owned := none, sending := none, live := [], history := [], host := [],
           meanwhile := [] }

/-- A run to `u` from what the command can see is the run to `t` from the whole state. -/
def RunsAlike (s t u : State) : Prop :=
  forget t = forget u ∧ t.history = s.history ++ u.history

theorem buildInto_forget (bs : List Byte) (s : State) : RunsAlike s (buildInto bs s) (buildInto bs (forget s)) := by
  have ha : allocAnswer bs.length (forget s) = allocAnswer bs.length s := rfl
  unfold buildInto
  rw [ha]
  split <;> exact ⟨rfl, (List.append_nil _).symm⟩

theorem sendBuilt_forget (d : Send4Op) (pkt : List Byte) (s : State) :
    RunsAlike s (sendBuilt d pkt s) (sendBuilt d pkt (forget s)) := by
  cases ha : allocAnswer pkt.length s with
  | silent =>
    have ha' : allocAnswer pkt.length (forget s) = .silent := ha
    simp only [sendBuilt, ha, ha']
    exact ⟨rfl, (List.append_nil _).symm⟩
  | null =>
    rw [sendBuilt_of_null ha, sendBuilt_of_null (s := forget s) ha]
    exact ⟨rfl, (List.append_nil _).symm⟩
  | placed a =>
    by_cases hmtu : pkt.length ≤ d.mtu.toNat
    case neg =>
      rw [sendBuilt_overMtu ha (Nat.not_le.mp hmtu), sendBuilt_overMtu (s := forget s) ha (Nat.not_le.mp hmtu)]
      exact ⟨rfl, (List.append_nil _).symm⟩
    case pos =>
      rw [sendBuilt_withinMtu ha hmtu, sendBuilt_withinMtu (s := forget s) ha hmtu]
      generalize ({ link := d.link, fd := d.fd, pkt := pkt } : TxCall) = c
      cases htx : nextTx (startTx c (packetPlaced a pkt s)) with
      | silent =>
        rw [awaitTx_silent htx, awaitTx_silent (s := startTx c (packetPlaced a pkt (forget s))) htx]
        exact ⟨rfl, (List.append_nil _).symm⟩
      | answered ok =>
        rw [awaitTx_answered htx, awaitTx_answered (s := startTx c (packetPlaced a pkt (forget s))) htx]
        exact ⟨rfl, rfl⟩

theorem sumOutcome_forget {f : List Byte → Half} {s t : State} {r : Except Refusal (Option (List Byte))}
    (h : sumOutcome f s r = .next t) : ∃ u, sumOutcome f (forget s) r = .next u ∧ RunsAlike s t u := by
  rcases r with r | _ | bs
  · cases h
  · cases h
    exact ⟨_, rfl, rfl, (List.append_nil _).symm⟩
  · cases h
    exact ⟨_, rfl, rfl, (List.append_nil _).symm⟩

/-- A command that runs runs alike from what it can see. -/
theorem exec_forget {i : Instr} {s t : State} (h : exec i s = .next t) :
    ∃ u, exec i (forget s) = .next u ∧ RunsAlike s t u := by
  have hc := inContract_of_exec h
  cases i with
  | csum d =>
    rw [exec_csum_eq] at h ⊢
    exact sumOutcome_forget h
  | pcsum6 d =>
    rw [exec_pcsum6_eq] at h ⊢
    exact sumOutcome_forget h
  | needfrag d =>
    obtain ⟨orig, ho⟩ := (opbuf_isOk_iff ..).mpr hc
    obtain rfl := Host.Outcome.next.inj ((exec_needfrag_of_ok ho).symm.trans h)
    exact ⟨_, exec_needfrag_of_ok (s := forget s) ho, buildInto_forget _ s⟩
  | build4 d =>
    obtain ⟨⟨opts, data⟩, ho⟩ := (operands4_isOk_iff ..).mpr hc
    obtain rfl := Host.Outcome.next.inj ((exec_build4_of_ok ho).symm.trans h)
    exact ⟨_, exec_build4_of_ok (s := forget s) ho, buildInto_forget _ s⟩
  | send4 d =>
    obtain ⟨⟨opts, data⟩, ho⟩ := (operands4_isOk_iff ..).mpr hc
    obtain rfl := Host.Outcome.next.inj ((exec_send4_of_ok ho).symm.trans h)
    exact ⟨_, exec_send4_of_ok (s := forget s) ho, sendBuilt_forget d _ s⟩
  | build6Echo d =>
    obtain ⟨hmax, hok⟩ := hc
    obtain ⟨data, hdata⟩ := (opbuf_isOk_iff ..).mpr hok
    have ho := (operandsEcho_ok_iff ..).mpr ⟨hmax, hdata⟩
    obtain rfl := Host.Outcome.next.inj ((exec_build6Echo_of_ok ho).symm.trans h)
    exact ⟨_, exec_build6Echo_of_ok (s := forget s) ho, buildInto_forget _ s⟩
  | build6Nd d =>
    obtain rfl := Host.Outcome.next.inj ((exec_build6Nd_eq d s).symm.trans h)
    exact ⟨_, exec_build6Nd_eq d (forget s), buildInto_forget _ s⟩

/-- The contract of a command is about `MEM` alone (R166). -/
theorem inContract_congr {i : Instr} {s s' : State} (hm : s.mem = s'.mem) : InContract i s ↔ InContract i s' := by
  cases i <;> simp only [InContract, RangeOk, OperandOk, Contract4, hm]

/-- Settles O60: the two states look the same to the command, so both runs are alike to one run. -/
theorem noStateAcrossCommands : Obligations.NoStateAcrossCommands := by
  intro i s s' t hmem hallocs htxs hdraws hticks hs hs' h
  have hsee : forget s' = forget s := by simp only [forget, hmem, hallocs, htxs, hdraws, hticks, hs, hs']
  obtain ⟨t', h'⟩ := exec_next_of_inContract ((inContract_congr hmem).mp (inContract_of_exec h))
  obtain ⟨u, hu, hview, hhistory⟩ := exec_forget h
  obtain ⟨u', hu', hview', hhistory'⟩ := exec_forget h'
  rw [hsee] at hu'
  obtain rfl := Host.Outcome.next.inj (hu.symm.trans hu')
  have hsame : forget t' = forget t := hview'.trans hview.symm
  exact ⟨t', u.history, h', (congrArg State.response hsame :), (congrArg State.mem hsame :), hhistory, hhistory'⟩

/-! ## The checksum operations (R80) -/

/-- A byte range depends on the bytes at its addresses alone (R80). -/
theorem byteRange_congr {s s' : State} {p n : Word}
    (h : ∀ x, p.toNat ≤ x → x < p.toNat + n.toNat → s.mem.get? x = s'.mem.get? x) :
    byteRange s p n.toNat = byteRange s' p n.toNat := by
  simp only [byteRange, Memory.read_congr h]

/-- The response of a checksum operation depends on its byte range alone (R80). -/
theorem sumOutcome_response {f : List Byte → Half} {r : Except Refusal (Option (List Byte))} {s t : State} (s' : State)
    (h : sumOutcome f s r = .next t) : ∃ t', sumOutcome f s' r = .next t' ∧ t'.response = t.response := by
  rcases r with r | _ | bs <;> cases h <;> exact ⟨_, rfl, rfl⟩

/-- Settles O37: a checksum operation leaves its response alone, and its byte range reads the range's addresses alone. -/
theorem checksumOperationsPure : Obligations.ChecksumOperationsPure := by
  refine ⟨fun i s t hi h => ?_, fun d s s' t heq h => ?_, fun d s s' t heq h => ?_⟩
  · have hreq : request i = none := by rcases hi with ⟨d, rfl⟩ | ⟨d, rfl⟩ <;> rfl
    obtain ⟨c, hexec⟩ := exec_of_no_request hreq (inContract_of_exec h)
    obtain rfl := Host.Outcome.next.inj (hexec.symm.trans h)
    obtain ⟨-, hkept, hinputs⟩ := respondSum_completes c s
    exact ⟨hkept, hinputs, c, rfl⟩
  · rw [exec_csum_eq] at h ⊢
    rw [← byteRange_congr heq]
    exact sumOutcome_response s' h
  · rw [exec_pcsum6_eq] at h ⊢
    rw [← byteRange_congr heq]
    exact sumOutcome_response s' h

end Sys2Proof.Machine
end

section
/-! The host's moves (10_state.md R10, R14; 20_memory.md R30, R40; 70_reset_and_hazards.md R180 to R192): what a step is while `IDLE`
and while a command runs, and what each move does there. -/

namespace Sys2Proof.Machine

open Sys2Proof.Safety

/-! ## While `IDLE` -/

/-- While `IDLE` a step is the host's next move, taken from its list. -/
theorem step_eq_hostMove {s : State} {mv : HostMove} {rest : List HostMove} (hp : s.phase = .idle) (hh : s.host = mv :: rest) :
    step s = hostMove mv (popHost s) := by
  simp only [step, hp, idleStep, hh]

theorem popHost_eq {s : State} {mv : HostMove} {rest : List HostMove} (hh : s.host = mv :: rest) :
    popHost s = { s with host := rest } := by
  simp only [popHost, hh, List.tail_cons]

/-- Settles O15: with no move listed the host makes none. -/
theorem idleDoesNothing : Obligations.IdleDoesNothing := by
  intro s hp hh
  simp only [step, hp, idleStep, hh]

/-- Settles O14: presenting a descriptor is `acceptCommand`. -/
theorem presentedCommandCaptured : Obligations.PresentedCommandCaptured := by
  intro s d rest hp hh
  rw [step_eq_hostMove hp hh, popHost_eq hh]
  exact ⟨_, rfl, rfl, rfl, rfl, rfl, rfl, ⟨rfl, rfl, rfl⟩, rfl, rfl, rfl, rfl, rfl, rfl⟩

/-- Settles O17: a reset between commands is `resetBlock`. -/
theorem resetKeepsEnvironment : Obligations.ResetKeepsEnvironment := by
  intro s rest hp hh
  rw [step_eq_hostMove hp hh, popHost_eq hh]
  exact ⟨_, rfl, rfl, rfl, rfl, rfl, rfl, ⟨rfl, rfl, rfl⟩, rfl, rfl, rfl, rfl, rfl, rfl⟩

/-- Settles O19: a store sets its one address. -/
theorem hostStoreProvides : Obligations.HostStoreProvides := by
  intro s a b rest hp hh
  rw [step_eq_hostMove hp hh, popHost_eq hh]
  refine ⟨_, rfl, ?_, fun x hx => ?_, rfl, rfl⟩
  · exact (Memory.get?_set ..).trans (if_pos rfl)
  · exact (Memory.get?_set ..).trans (if_neg hx)

/-- Releasing a live buffer takes that buffer from the live set and no other (R38, R40). -/
theorem mem_filter_live {s : State} {b : Buffer} (hL : LiveInv s) (hb : b ∈ s.live) (x : Buffer) :
    x ∈ s.live.filter (fun y => y.addr != b.addr) ↔ x ∈ s.live ∧ x ≠ b := by
  simp only [List.mem_filter, bne_iff_ne]
  exact and_congr_right fun hx => not_congr ⟨live_eq_of_addr hL hx hb, congrArg Buffer.addr⟩

/-- A host's `free` of a live buffer is its release (R40). -/
theorem hostMove_free {s : State} {b : Buffer} (hL : LiveInv s) (hb : b ∈ s.live) :
    hostMove (.free b.addr) s = .next (release b s) := by
  simp only [hostMove, liveAt_of_mem hL hb]

/-- The live set's law is about `MEM` and the live set alone. -/
theorem liveInv_congr {s t : State} (hL : LiveInv s) (hm : t.mem = s.mem) (hl : t.live = s.live) : LiveInv t := by
  obtain ⟨hdisjoint, hplaced, hpopulated⟩ := hL
  rw [← hl] at hdisjoint hplaced hpopulated
  rw [← hm] at hpopulated
  exact ⟨hdisjoint, hplaced, hpopulated⟩

/-- Settles O18: the host's `free` releases the one live buffer at its address. -/
theorem hostFreeReleases : Obligations.HostFreeReleases := by
  intro s b rest hI hp hh hb
  have hL : LiveInv (popHost s) := liveInv_congr hI.live rfl rfl
  rw [step_eq_hostMove hp hh, hostMove_free hL hb, popHost_eq hh]
  refine ⟨_, rfl, (mem_filter_live hI.live hb :), fun x h1 h2 => ?_, fun x hx => ?_, rfl, rfl⟩
  · exact (Memory.get?_drop ..).trans (if_pos ⟨h1, h2⟩)
  · exact (Memory.get?_drop ..).trans (if_neg (by omega))

/-! ## While a command runs -/

/-- While a command runs a step on which the host moves is that move, taken from its list. -/
theorem step_eq_busyMove {s : State} {mv : HostMove} {rest : List (Option HostMove)} (hp : s.phase = .busy)
    (hm : s.meanwhile = some mv :: rest) : step s = busyMove mv (popMeanwhile s) := by
  simp only [step, hp, busyStep, hm]

theorem popMeanwhile_eq {s : State} {o : Option HostMove} {rest : List (Option HostMove)} (hm : s.meanwhile = o :: rest) :
    popMeanwhile s = { s with meanwhile := rest } := by
  simp only [popMeanwhile, hm, List.tail_cons]

theorem blockStep_of_decode_ok {s : State} {ws : List Word} {i : Instr} (hs : s.sending = none) (hc : s.captured = some ws)
    (hd : decode ws = .ok i) : blockStep s = exec i s := by
  simp only [blockStep, hs, hc, hd]

/-- Settles O13: with no send in progress the block's step decodes the captured descriptor and runs it. -/
theorem stepRunsDecoded : Obligations.StepRunsDecoded := by
  intro s ws i hp hwaits hsending hcaptured hdecode
  rw [step_eq_blockStep hp hwaits]
  exact blockStep_of_decode_ok (s := popMeanwhile s) hsending hcaptured hdecode

/-- What the host must leave alone is the operand buffers of the captured command (R184, R190). -/
theorem heldBuffers_eq {s : State} {ws : List Word} {i : Instr} (hc : s.captured = some ws) (hd : decode ws = .ok i) :
    heldBuffers s = operandBuffers i := by
  simp only [heldBuffers, runningCommand, hc, Option.bind_some, hd, Except.toOption]

/-- Buffers that end before a range begins, or begin after it ends, are not touched. -/
theorem touches_eq_false {a n : Nat} {bufs : List (Word × Nat)}
    (h : ∀ r ∈ bufs, r.1 ≠ 0 → a + n ≤ r.1.toNat ∨ r.1.toNat + r.2 ≤ a) : touches a n bufs = false := by
  refine (touches_eq_false_iff ..).mpr fun r hr h0 x _ _ _ _ => ?_
  have hapart := h r hr h0
  omega

/-- A byte that lies in a range and in one of the buffers is touched. -/
theorem touches_eq_true {a n x : Nat} {p : Word} {len : Nat} {bufs : List (Word × Nat)} (hr : (p, len) ∈ bufs) (h0 : p ≠ 0)
    (h1 : a ≤ x) (h2 : x < a + n) (h3 : p.toNat ≤ x) (h4 : x < p.toNat + len) : touches a n bufs = true := by
  rw [← Bool.not_eq_false, touches_eq_false_iff]
  exact fun h => h _ hr h0 x h1 h2 h3 h4

section BusyMove

variable {s : State}

theorem busyMove_store {a : Word} (b : Byte) (ht : touches a.toNat 1 (heldBuffers s) = false) :
    busyMove (.store a b) s = .next (hostStore a b s) := by
  simp only [busyMove, ht, Bool.false_eq_true, if_false]

theorem busyMove_store_touching {a : Word} (b : Byte) (ht : touches a.toNat 1 (heldBuffers s) = true) :
    busyMove (.store a b) s = .refused .touchedWhileBusy := by
  simp only [busyMove, ht, if_true]

variable {c : Buffer} (hL : LiveInv s) (hc : c ∈ s.live)

include hL hc

theorem busyMove_free (ho : s.owned ≠ some c) (ht : touches c.addr.toNat c.len (heldBuffers s) = false) :
    busyMove (.free c.addr) s = .next (release c s) := by
  simp only [busyMove, liveAt_of_mem hL hc, if_neg ho, ht, Bool.false_eq_true, if_false]

theorem busyMove_free_touching (ho : s.owned ≠ some c) (ht : touches c.addr.toNat c.len (heldBuffers s) = true) :
    busyMove (.free c.addr) s = .refused .touchedWhileBusy := by
  simp only [busyMove, liveAt_of_mem hL hc, if_neg ho, ht, if_true]

theorem busyMove_free_owned (ho : s.owned = some c) : busyMove (.free c.addr) s = .refused .freeOfOwnedBuffer := by
  simp only [busyMove, liveAt_of_mem hL hc, if_pos ho]

end BusyMove

/-- Settles O23: a move apart from the operand buffers is the store or the release it is while `IDLE`. -/
theorem hostActsWhileBusy : Obligations.HostActsWhileBusy := by
  intro s ws i hp hcaptured hdecode
  have hheld : heldBuffers (popMeanwhile s) = operandBuffers i := heldBuffers_eq hcaptured hdecode
  constructor
  · intro a b rest hm hapart
    have ht : touches a.toNat 1 (heldBuffers (popMeanwhile s)) = false := by
      rw [hheld]
      exact touches_eq_false hapart
    rw [step_eq_busyMove hp hm, busyMove_store b ht, popMeanwhile_eq hm]
    rfl
  · intro c rest hm hL hc ho hapart
    have ht : touches c.addr.toNat c.len (heldBuffers (popMeanwhile s)) = false := by
      rw [hheld]
      exact touches_eq_false hapart
    rw [step_eq_busyMove hp hm, busyMove_free (s := popMeanwhile s) (liveInv_congr hL rfl rfl) hc ho ht, popMeanwhile_eq hm]
    rfl

/-- Settles O24: `busyMove` refuses each breach, a touched operand buffer after the block's own. -/
theorem hostBreachesRefused : Obligations.HostBreachesRefused := by
  refine ⟨fun s d rest hp hm => step_eq_busyMove hp hm, fun s rest hp hm => step_eq_busyMove hp hm, ?owned, ?touched⟩
  case owned =>
    intro s c rest hp hm hL hc ho
    exact (step_eq_busyMove hp hm).trans (busyMove_free_owned (s := popMeanwhile s) (liveInv_congr hL rfl rfl) hc ho)
  case touched =>
    intro s ws i p n hp hcaptured hdecode hbuf h0
    have hheld : (p, n) ∈ heldBuffers (popMeanwhile s) := by
      rwa [heldBuffers_eq (s := popMeanwhile s) hcaptured hdecode]
    constructor
    · intro a b rest hm h1 h2
      rw [step_eq_busyMove hp hm]
      exact busyMove_store_touching b (touches_eq_true hheld h0 le_rfl (Nat.lt_succ_self _) h1 h2)
    · rintro c rest hm hL hc ho ⟨x, h1, h2, h3, h4⟩
      rw [step_eq_busyMove hp hm]
      exact busyMove_free_touching (liveInv_congr hL rfl rfl) hc ho (touches_eq_true hheld h0 h1 h2 h3 h4)

/-! ## A good state steps (R160, R170) -/

/-- A move the host is allowed while a command runs has a next state (R190). -/
theorem busyMove_next {mv : HostMove} {s : State} (hL : LiveInv s) (h : MeanwhileOk mv s) : ∃ t, busyMove mv s = .next t := by
  cases mv with
  | present d => exact h.elim
  | reset => exact h.elim
  | store a b => exact ⟨_, busyMove_store b h⟩
  | free a =>
    obtain ⟨b, hb, rfl, ho, ht⟩ := h
    exact ⟨_, busyMove_free hL hb ho ht⟩

/-- A move while `IDLE` has a next state unless it frees an address where no live buffer is (R40). -/
theorem hostMove_next {mv : HostMove} {s : State} (hL : LiveInv s) (h : ∀ a, mv = .free a → ∃ b ∈ s.live, b.addr = a) :
    ∃ t, hostMove mv s = .next t := by
  cases mv with
  | present d => exact ⟨_, rfl⟩
  | store a b => exact ⟨_, rfl⟩
  | reset => exact ⟨_, rfl⟩
  | free a =>
    obtain ⟨b, hb, rfl⟩ := h a rfl
    exact ⟨_, hostMove_free hL hb⟩

/-- The block has a step of its own in a `BUSY` state whose command is in contract (R160, R166). -/
theorem blockStep_next {s : State} (hcaptured : s.captured.isSome = true)
    (hc : ∀ ws i, s.captured = some ws → decode ws = .ok i → InContract i s) : ∃ t, blockStep s = .next t := by
  obtain ⟨ws, hws⟩ := Option.isSome_iff_exists.mp hcaptured
  cases hs : s.sending with
  | some c => exact ⟨awaitTx c s, by simp only [blockStep, hs]⟩
  | none =>
    cases hd : decode ws with
    | error e => exact ⟨_, blockStep_of_decode_error hs hws hd⟩
    | ok i =>
      obtain ⟨t, ht⟩ := exec_next_of_inContract (hc ws i hws hd)
      exact ⟨t, (blockStep_of_decode_ok hs hws hd).trans ht⟩

/-- Settles O22: whichever of the two moves, what it needs is what the premises give it. -/
theorem goodStateSteps : Obligations.GoodStateSteps := by
  rintro s ⟨-, hL, hB⟩ ⟨hfree, hmeanwhile⟩ hc
  cases hp : s.phase with
  | idle =>
    cases hh : s.host with
    | nil => exact ⟨s, idleDoesNothing s hp hh⟩
    | cons mv rest =>
      rw [step_eq_hostMove hp hh]
      exact hostMove_next (liveInv_congr hL rfl rfl) fun a ha => hfree a rest (ha ▸ hh)
  | busy =>
    have hblock (hwaits : HostWaits s) : ∃ t, step s = .next t := by
      rw [step_eq_blockStep hp hwaits]
      exact blockStep_next (s := popMeanwhile s) (hB.busy_holds_command hp).1 fun ws i hws hd =>
        (inContract_congr rfl).mp (hc ws i hws hd)
    rcases hm : s.meanwhile with _ | ⟨_ | mv, rest⟩
    · exact hblock (by rw [HostWaits, hm]; rfl)
    · exact hblock (by rw [HostWaits, hm]; rfl)
    · rw [step_eq_busyMove hp hm]
      exact busyMove_next (liveInv_congr hL rfl rfl) (hmeanwhile mv rest hp hm)

end Sys2Proof.Machine
end

section
/-! The invariant of every run (10_state.md R10, R14, R18; 20_memory.md R30, R38): what each change of `MEM` and the live set keeps of
it, what each change of the block's own fields keeps, and every step. -/

namespace Sys2Proof.Machine

open Sys2Proof.Safety

/-! ## `MEM` and the live set -/

/-- The part of the invariant that is about the environment: `MEM` in canonical form, the live set lawful (R30, R38). -/
structure EnvInv (s : State) : Prop where
  mem_wf : s.mem.wf
  live : LiveInv s

theorem envInv_congr {s t : State} (h : EnvInv s) (hm : t.mem = s.mem) (hl : t.live = s.live) : EnvInv t :=
  ⟨hm ▸ h.mem_wf, liveInv_congr h.live hm hl⟩

/-- Where `MEM` stays populated a live set stays lawful. -/
theorem liveInv_of_populated {s t : State} (hL : LiveInv s) (hl : t.live = s.live)
    (hm : ∀ x, (s.mem.get? x).isSome = true → (t.mem.get? x).isSome = true) : LiveInv t := by
  obtain ⟨hdisjoint, hplaced, hpopulated⟩ := hL
  rw [← hl] at hdisjoint hplaced hpopulated
  exact ⟨hdisjoint, hplaced, fun b hb x h1 h2 => hm x (hpopulated b hb x h1 h2)⟩

theorem isSome_get?_write {m : Memory} (a : Nat) (bs : List Byte) {x : Nat}
    (h : (a ≤ x ∧ x < a + bs.length) ∨ (m.get? x).isSome = true) : ((m.write a bs).get? x).isSome = true := by
  rw [Memory.get?_write]
  split
  case isTrue hin =>
    rw [List.getElem?_eq_getElem (by omega)]
    rfl
  case isFalse hout => exact h.resolve_left hout

theorem envInv_memWrite {s : State} {a : Word} {bs : List Byte} (h : EnvInv s) (hfit : a.toNat + bs.length ≤ 2 ^ 32) :
    EnvInv (memWrite a bs s) :=
  ⟨Memory.wf_write h.mem_wf bs hfit, liveInv_of_populated h.live rfl fun _ hx => isSome_get?_write _ _ (.inr hx)⟩

theorem envInv_hostStore {s : State} (a : Word) (b : Byte) (h : EnvInv s) : EnvInv (hostStore a b s) := by
  refine ⟨Memory.wf_set h.mem_wf a.isLt b, liveInv_of_populated h.live rfl fun x hx => ?_⟩
  rw [hostStore_mem, Memory.get?_set]
  split
  · rfl
  · exact hx

/-- A fresh buffer of at least one byte may join the live set (R38). -/
theorem envInv_grant {s : State} {a : Word} {n : Nat} (h : EnvInv s) (h0 : a ≠ 0) (hfit : a.toNat + n ≤ 2 ^ 32)
    (hclear : s.mem.clear a.toNat n = true) (hpos : 1 ≤ n) : EnvInv (grant a n s) := by
  refine ⟨Memory.wf_write h.mem_wf _ (by rwa [freshBytes_length]), ?_, fun b hb => ?_, fun b hb x h1 h2 => ?_⟩
  · exact pairwise_insertBuffer hpos h.live.disjoint (fun x hx => (h.live.placed x hx).2.1) (fresh_disjoint h.live hpos hclear)
  · rcases mem_insertBuffer.mp hb with rfl | hb
    · exact ⟨h0, hpos, hfit⟩
    · exact h.live.placed b hb
  · rcases mem_insertBuffer.mp hb with rfl | hb
    · exact isSome_get?_write _ _ (.inl ⟨h1, by rwa [freshBytes_length]⟩)
    · exact isSome_get?_write _ _ (.inr (h.live.populated b hb x h1 h2))

/-- Releasing a live buffer leaves every other one populated, since no two share an address (R38, R40). -/
theorem envInv_release {s : State} {b : Buffer} (h : EnvInv s) (hb : b ∈ s.live) : EnvInv (release b s) := by
  have hother {x : Buffer} (hx : x ∈ (release b s).live) : x ∈ s.live ∧ x ≠ b := (mem_filter_live h.live hb x).mp hx
  refine ⟨Memory.wf_drop h.mem_wf _ _, h.live.disjoint.filter _, fun x hx => h.live.placed x (hother hx).1, fun x hx y h1 h2 => ?_⟩
  obtain ⟨hlive, hne⟩ := hother hx
  have hapart := live_disjoint h.live hlive hb hne
  rw [release_mem, Memory.get?_drop, if_neg (by omega)]
  exact h.live.populated x hlive y h1 h2

/-! ## The block's own fields -/

theorem blockInv_congr {s t : State} (h : BlockInv s) (hphase : t.phase = s.phase) (hcaptured : t.captured = s.captured)
    (hresponse : t.response = s.response) (howned : t.owned = s.owned) (hsending : t.sending = s.sending)
    (hlive : ∀ b, s.owned = some b → b ∈ s.live → b ∈ t.live) : BlockInv t where
  idle_holds_nothing := by
    rw [hphase, hcaptured, howned, hsending]
    exact h.idle_holds_nothing
  busy_holds_command := by
    rw [hphase, hcaptured, hresponse]
    exact h.busy_holds_command
  owned_is_sent := by
    rw [howned, hsending]
    exact h.owned_is_sent
  sent_is_owned := by
    rw [howned, hsending]
    intro c hc
    obtain ⟨b, hb, hmem, hlen⟩ := h.sent_is_owned c hc
    exact ⟨b, hb, hlive b hb hmem, hlen⟩

/-- A block that has responded, or was reset, holds nothing. -/
theorem blockInv_of_idle {s : State} (hphase : s.phase = .idle) (hcaptured : s.captured = none) (howned : s.owned = none)
    (hsending : s.sending = none) : BlockInv s where
  idle_holds_nothing _ := ⟨hcaptured, howned, hsending⟩
  busy_holds_command hbusy := nomatch hphase.symm.trans hbusy
  owned_is_sent _ hb := nomatch howned.symm.trans hb
  sent_is_owned _ hc := nomatch hsending.symm.trans hc

theorem owned_mem_live {s : State} (h : BlockInv s) {b : Buffer} (hb : s.owned = some b) : b ∈ s.live := by
  obtain ⟨c, hc⟩ := Option.isSome_iff_exists.mp (h.owned_is_sent b hb)
  obtain ⟨b', hb', hmem, -⟩ := h.sent_is_owned c hc
  exact Option.some.inj (hb.symm.trans hb') ▸ hmem

theorem inv_of_env {s : State} (h : EnvInv s) (hB : BlockInv s) : Inv s := ⟨h.mem_wf, h.live, hB⟩

theorem envInv_of_inv {s : State} (h : Inv s) : EnvInv s := ⟨h.mem_wf, h.live⟩

theorem inv_respond {s : State} (h : EnvInv s) (r : Response) : Inv (respond r s) :=
  inv_of_env (envInv_congr h rfl rfl) (blockInv_of_idle rfl rfl rfl rfl)

theorem inv_raise {s : State} (h : EnvInv s) (st : Status) : Inv (raise st s) := inv_respond h _

/-- What is neither the block's own field nor `MEM` nor the live set has no part in the invariant. -/
theorem inv_congr {s t : State} (h : Inv s) (hphase : t.phase = s.phase) (hcaptured : t.captured = s.captured)
    (hresponse : t.response = s.response) (howned : t.owned = s.owned) (hsending : t.sending = s.sending) (hm : t.mem = s.mem)
    (hl : t.live = s.live) : Inv t :=
  inv_of_env (envInv_congr (envInv_of_inv h) hm hl)
    (blockInv_congr h.block hphase hcaptured hresponse howned hsending fun _ _ hb => hl ▸ hb)

theorem inv_popAlloc {s : State} (h : Inv s) : Inv (popAlloc s) := inv_congr h rfl rfl rfl rfl rfl rfl rfl
theorem inv_popDraw {s : State} (h : Inv s) : Inv (popDraw s) := inv_congr h rfl rfl rfl rfl rfl rfl rfl
theorem inv_popTx {s : State} (h : Inv s) : Inv (popTx s) := inv_congr h rfl rfl rfl rfl rfl rfl rfl
theorem inv_popHost {s : State} (h : Inv s) : Inv (popHost s) := inv_congr h rfl rfl rfl rfl rfl rfl rfl
theorem inv_popMeanwhile {s : State} (h : Inv s) : Inv (popMeanwhile s) := inv_congr h rfl rfl rfl rfl rfl rfl rfl
theorem inv_recordTx {s : State} (h : Inv s) (c : TxCall) (ok : Bool) : Inv (recordTx c ok s) :=
  inv_congr h rfl rfl rfl rfl rfl rfl rfl
theorem inv_silenceTx {s : State} (h : Inv s) : Inv (silenceTx s) := inv_congr h rfl rfl rfl rfl rfl rfl rfl
theorem inv_tick {s : State} (h : Inv s) : Inv (tick s) := inv_congr h rfl rfl rfl rfl rfl rfl rfl

/-! ## The commands -/

theorem envInv_releaseOwned {s : State} (h : Inv s) : EnvInv (releaseOwned s) := by
  cases ho : s.owned with
  | none => simpa only [releaseOwned, ho] using envInv_of_inv h
  | some b =>
    rw [releaseOwned_of_owned ho]
    exact envInv_release (envInv_of_inv h) (owned_mem_live h.block ho)

/-- A send in progress keeps the invariant, silent or answered (R148, R162). -/
theorem inv_awaitTx {s : State} (h : Inv s) (c : TxCall) : Inv (awaitTx c s) := by
  cases htx : nextTx s with
  | silent =>
    rw [awaitTx_silent htx]
    exact inv_popTx h
  | answered ok =>
    rw [awaitTx_answered htx]
    exact inv_raise (envInv_releaseOwned (inv_recordTx (inv_popTx h) c ok)) _

/-- A fresh buffer filled with what is built leaves the environment lawful (R38, R39). -/
theorem envInv_filled {s : State} {a : Word} {bs : List Byte} (h : EnvInv s) (h0 : a ≠ 0) (hfit : a.toNat + bs.length ≤ 2 ^ 32)
    (hclear : s.mem.clear a.toNat bs.length = true) (hpos : 1 ≤ bs.length) : EnvInv (memWrite a bs (grant a bs.length s)) :=
  envInv_memWrite (envInv_grant h h0 hfit hclear hpos) hfit

theorem inv_buildInto {bs : List Byte} {s : State} (h : Inv s) (hpos : 1 ≤ bs.length) : Inv (buildInto bs s) := by
  rcases buildInto_cases bs s with ⟨-, hend⟩ | ⟨-, hend⟩ | ⟨a, ha, hend⟩ <;> rw [hend]
  · exact inv_popAlloc h
  · exact inv_raise (envInv_of_inv (inv_popAlloc h)) _
  · obtain ⟨h0, hfit, hclear⟩ := allocAnswer_placed ha
    exact inv_respond (envInv_filled (envInv_of_inv (inv_popAlloc h)) h0 hfit hclear hpos) _

theorem envInv_packetPlaced {s : State} {a : Word} {pkt : List Byte} (h : Inv s) (ha : allocAnswer pkt.length s = .placed a)
    (hpos : 1 ≤ pkt.length) : EnvInv (packetPlaced a pkt s) := by
  obtain ⟨h0, hfit, hclear⟩ := allocAnswer_placed ha
  exact envInv_filled (envInv_of_inv (inv_popAlloc (inv_popDraw h))) h0 hfit hclear hpos

theorem buffer_mem_packetPlaced (a : Word) (pkt : List Byte) (s : State) :
    { addr := a, len := pkt.length } ∈ (packetPlaced a pkt s).live := mem_insertBuffer.mpr (.inl rfl)

/-- A packet handed over has the buffer it was placed in (R18, R143). -/
theorem blockInv_handedOver {s : State} {a : Word} {c : TxCall} (h : BlockInv s) (hp : s.phase = .busy) :
    BlockInv (startTx c (packetPlaced a c.pkt s)) where
  idle_holds_nothing hidle := nomatch hp.symm.trans hidle
  busy_holds_command := h.busy_holds_command
  owned_is_sent _ _ := rfl
  sent_is_owned := by
    intro c' hc'
    obtain rfl := Option.some.inj hc'
    exact ⟨_, rfl, buffer_mem_packetPlaced a c.pkt s, rfl⟩

theorem inv_sendOutcome {c : TxCall} {s t : State} (h : Inv s) (hp : s.phase = .busy) (hpos : 1 ≤ c.pkt.length)
    (hend : SendOutcome c s t) : Inv t := by
  cases hend with
  | waitsAlloc _ => exact inv_popAlloc h
  | allocFails _ => exact inv_raise (envInv_of_inv (inv_popAlloc (inv_popDraw h))) _
  | overMtu a ha => exact inv_raise (envInv_release (envInv_packetPlaced h ha hpos) (buffer_mem_packetPlaced a c.pkt s)) _
  | waitsTx a ha =>
    have hsent : EnvInv (startTx c (packetPlaced a c.pkt s)) := envInv_congr (envInv_packetPlaced h ha hpos) rfl rfl
    exact inv_popTx (inv_of_env hsent (blockInv_handedOver h.block hp))
  | answered a ok ha =>
    have hsent : EnvInv (recordTx c ok (popTx (startTx c (packetPlaced a c.pkt s)))) :=
      envInv_congr (envInv_packetPlaced h ha hpos) rfl rfl
    exact inv_raise (envInv_release hsent (buffer_mem_packetPlaced a c.pkt s)) _

theorem inv_exec {i : Instr} {s t : State} (h : Inv s) (hp : s.phase = .busy) (hexec : exec i s = .next t) : Inv t := by
  rcases exec_cases hexec with ⟨c, rfl⟩ | ⟨bs, hlen, rfl⟩ | ⟨d, pkt, -, hlen, rfl⟩
  · exact inv_respond (envInv_of_inv h) _
  · exact inv_buildInto h (by omega)
  · exact inv_sendOutcome h hp (by simp only; omega) (sendBuilt_outcome d pkt s)

/-! ## A step -/

theorem inv_blockStep {s t : State} (h : Inv s) (hp : s.phase = .busy) (hstep : blockStep s = .next t) : Inv t := by
  rcases blockStep_cases hstep with ⟨c, -, rfl⟩ | ⟨-, ws, e, -, -, rfl⟩ | ⟨-, ws, i, -, -, hexec⟩
  · exact inv_awaitTx h c
  · exact inv_raise (envInv_of_inv h) _
  · exact inv_exec h hp hexec

theorem inv_hostStore {s : State} (h : Inv s) (a : Word) (b : Byte) : Inv (hostStore a b s) :=
  inv_of_env (envInv_hostStore a b (envInv_of_inv h)) (blockInv_congr h.block rfl rfl rfl rfl rfl fun _ _ hb => hb)

/-- The host may release any live buffer that is not the block's own (R40, R190). -/
theorem inv_release {s : State} {b : Buffer} (h : Inv s) (hb : b ∈ s.live) (ho : s.owned ≠ some b) : Inv (release b s) := by
  refine inv_of_env (envInv_release (envInv_of_inv h) hb) (blockInv_congr h.block rfl rfl rfl rfl rfl fun c hc hlive => ?_)
  refine (mem_filter_live h.live hb c).mpr ⟨hlive, ?_⟩
  rintro rfl
  exact ho hc

theorem inv_busyMove {mv : HostMove} {s t : State} (h : Inv s) (hmove : busyMove mv s = .next t) : Inv t := by
  rcases busyMove_cases hmove with ⟨a, b, -, -, rfl⟩ | ⟨a, b, -, hb, ho, -, rfl⟩
  · exact inv_hostStore h a b
  · exact inv_release h (liveAt_mem hb).1 ho

/-- A descriptor presented to a block that holds nothing is all that it then holds (R10, R14). -/
theorem inv_acceptCommand {s : State} (h : Inv s) (hp : s.phase = .idle) (d : List Word) : Inv (acceptCommand d s) := by
  obtain ⟨-, howned, hsending⟩ := h.block.idle_holds_nothing hp
  refine inv_of_env (envInv_congr (envInv_of_inv h) rfl rfl) ⟨nofun, fun _ => ⟨rfl, rfl⟩, fun b hb => ?_, fun c hc => ?_⟩
  · exact nomatch howned.symm.trans hb
  · exact nomatch hsending.symm.trans hc

theorem inv_resetBlock {s : State} (h : EnvInv s) : Inv (resetBlock s) :=
  inv_of_env (envInv_congr h rfl rfl) (blockInv_of_idle rfl rfl rfl rfl)

/-- Settles O20: move by move and end by end, each step is one of the changes above. -/
theorem stepKeepsInvariant : Obligations.StepKeepsInvariant := by
  intro s t h hstep
  rcases step_cases hstep with ⟨-, -, rfl⟩ | ⟨hp, d, _, -, rfl⟩ | ⟨-, a, b, _, -, rfl⟩ | ⟨hp, a, b, _, -, hb, rfl⟩ |
    ⟨-, _, -, rfl⟩ | ⟨-, mv, _, -, hmove⟩ | ⟨hp, -, hblock⟩
  · exact h
  · exact inv_acceptCommand (inv_popHost h) hp d
  · exact inv_hostStore (inv_popHost h) a b
  · obtain ⟨-, howned, -⟩ := h.block.idle_holds_nothing hp
    have hnot : (popHost s).owned ≠ some b := fun ho => nomatch howned.symm.trans ho
    exact inv_release (inv_popHost h) (liveAt_mem hb).1 hnot
  · exact inv_resetBlock (envInv_of_inv (inv_popHost h))
  · exact inv_busyMove (inv_popMeanwhile h) hmove
  · exact inv_blockStep (inv_popMeanwhile h) hp hblock

/-- Settles O21: after reset nothing is populated, nothing is live and the block holds nothing. -/
theorem resetHasInvariant : Obligations.ResetHasInvariant :=
  inv_of_env ⟨Memory.wf_nil, .nil, nofun, nofun⟩ (blockInv_of_idle rfl rfl rfl rfl)

/-! ## A reset that abandons the command (R181) -/

theorem envInv_loseContents {s : State} (h : EnvInv s) (hheld : ∀ b, s.owned = some b → b ∈ s.live) : EnvInv (loseContents s) := by
  unfold loseContents
  split
  · exact h
  · rename_i b hb
    obtain ⟨-, -, hfit⟩ := h.live.placed b (hheld b hb)
    exact envInv_memWrite h (by rwa [freshBytes_length])

/-- What an abandoned command in state `s` may have left as `t`, its own buffer's contents not yet lost (R181). -/
structure LeftBy (s t : State) : Prop where
  env : EnvInv t
  held : ∀ b, t.owned = some b → b ∈ t.live
  own : ∀ b, t.owned = some b → s.owned = some b ∨ s.mem.clear b.addr.toNat b.len = true
  kept : ∀ x, (s.mem.get? x).isSome = true → (∀ b, s.owned = some b → x < b.addr.toNat ∨ b.addr.toNat + b.len ≤ x) →
    t.mem.get? x = s.mem.get? x
  live : ∀ b ∈ s.live, b ∈ t.live ∨ s.owned = some b
  history : t.history = s.history ∨ ∃ r, t.history = s.history ++ [r]

/-- What holds the environment as it was and owns what was owned has left nothing. -/
theorem leftBy_of_eq {s t : State} (h : Inv s) (hm : t.mem = s.mem) (hl : t.live = s.live) (ho : t.owned = none ∨ t.owned = s.owned)
    (hh : t.history = s.history ∨ ∃ r, t.history = s.history ++ [r]) : LeftBy s t := by
  have howned {b : Buffer} (hb : t.owned = some b) : s.owned = some b :=
    ho.elim (fun hnone => nomatch hnone.symm.trans hb) fun hsame => hsame ▸ hb
  exact {
    env := envInv_congr (envInv_of_inv h) hm hl
    held := fun b hb => hl ▸ owned_mem_live h.block (howned hb)
    own := fun b hb => .inl (howned hb)
    kept := fun x _ _ => by rw [hm]
    live := fun b hb => .inl (hl ▸ hb)
    history := hh }

/-- An answered send has released the buffer the block owned, and no more (R146, R162). -/
theorem leftBy_answered {s : State} (h : Inv s) {c : TxCall} (hc : s.sending = some c) (ok : Bool) (st : Status) :
    LeftBy s (raise st (releaseOwned (recordTx c ok (popTx s)))) := by
  obtain ⟨b, hb, -, -⟩ := h.block.sent_is_owned c hc
  have hinv : Inv (recordTx c ok (popTx s)) := inv_recordTx (inv_popTx h) c ok
  have henv := envInv_releaseOwned hinv
  rw [releaseOwned_of_owned (s := recordTx c ok (popTx s)) hb] at henv ⊢
  refine ⟨envInv_congr henv rfl rfl, nofun, nofun, fun x _ hout => ?_, fun b' hb' => ?_, .inr ⟨_, rfl⟩⟩
  · have hx := hout b hb
    exact (Memory.get?_drop ..).trans (if_neg (by omega))
  · by_cases he : b' = b
    · exact .inr (he ▸ hb)
    · exact .inl ((mem_filter_live h.live (owned_mem_live h.block hb) b').mpr ⟨hb', he⟩)

theorem sendOutcome_owned {c : TxCall} {s t : State} (h : SendOutcome c s t) :
    t.owned = none ∨ t.owned = s.owned ∨ ∃ b, t.owned = some b ∧ s.mem.clear b.addr.toNat b.len = true := by
  cases h with
  | waitsAlloc _ => exact .inr (.inl rfl)
  | waitsTx a ha => exact .inr (.inr ⟨_, rfl, (allocAnswer_placed ha).2.2⟩)
  | _ => exact .inl rfl

/-- After a run the block owns nothing, what it owned before, or a buffer that was fresh (R18). -/
theorem exec_owned {i : Instr} {s t : State} (h : exec i s = .next t) :
    t.owned = none ∨ t.owned = s.owned ∨ ∃ b, t.owned = some b ∧ s.mem.clear b.addr.toNat b.len = true := by
  rcases exec_cases h with ⟨c, rfl⟩ | ⟨bs, -, rfl⟩ | ⟨d, pkt, -, -, rfl⟩
  · exact .inl rfl
  · rcases buildInto_cases bs s with ⟨-, hend⟩ | ⟨-, hend⟩ | ⟨a, -, hend⟩ <;> rw [hend]
    · exact .inr (.inl rfl)
    · exact .inl rfl
    · exact .inl rfl
  · exact sendOutcome_owned (sendBuilt_outcome d pkt s)

theorem leftBy_exec {i : Instr} {s t : State} (h : Inv s) (hp : s.phase = .busy) (hexec : exec i s = .next t) :
    LeftBy s t := by
  have ht := inv_exec h hp hexec
  obtain ⟨hkept, hlive⟩ := populatedMemoryKept i s t h.live hexec
  obtain ⟨hhistory, -⟩ := onlySend4Transmits i s t hexec
  refine ⟨envInv_of_inv ht, fun b hb => owned_mem_live ht.block hb, fun b hb => ?_, fun x hx _ => hkept x hx,
    fun b hb => .inl (hlive b hb), hhistory⟩
  rcases exec_owned hexec with ho | ho | ⟨b', ho, hclear⟩
  · exact nomatch ho.symm.trans hb
  · exact .inl (ho ▸ hb)
  · obtain rfl := Option.some.inj (ho.symm.trans hb)
    exact .inr hclear

theorem leftBy_blockStep {s t : State} (h : Inv s) (hp : s.phase = .busy) (hstep : blockStep s = .next t) : LeftBy s t := by
  rcases blockStep_cases hstep with ⟨c, hc, rfl⟩ | ⟨-, ws, e, -, -, rfl⟩ | ⟨-, ws, i, -, -, hexec⟩
  · cases htx : nextTx s with
    | silent =>
      rw [awaitTx_silent htx]
      exact leftBy_of_eq h rfl rfl (.inr rfl) (.inl rfl)
    | answered ok =>
      rw [awaitTx_answered htx]
      exact leftBy_answered h hc ok _
  · exact leftBy_of_eq h rfl rfl (.inl rfl) (.inl rfl)
  · exact leftBy_exec h hp hexec

/-- A command that has only been given its buffer has left that buffer (R181). -/
theorem leftBy_leaveBuffer {s : State} (h : Inv s) : LeftBy s (leaveBuffer s) := by
  rcases leaveBuffer_cases s with hend | hend | ⟨i, n, a, -, hreq, ha, hend⟩ <;> rw [hend]
  · exact leftBy_of_eq h rfl rfl (.inr rfl) (.inl rfl)
  · exact leftBy_of_eq h rfl rfl (.inr rfl) (.inl rfl)
  · obtain ⟨h0, hfit, hclear⟩ := allocAnswer_placed ha
    have hpos : 1 ≤ n := Nat.le_trans (by decide) (request_pos hreq)
    refine ⟨envInv_grant (envInv_of_inv (inv_popAlloc h)) h0 hfit hclear hpos, fun b hb => ?_, fun b hb => ?_, fun x hx _ => ?_,
      fun b hb => .inl (mem_insertBuffer.mpr (.inr hb)), .inl rfl⟩
    · exact mem_insertBuffer.mpr (.inl (Option.some.inj hb).symm)
    · obtain rfl := Option.some.inj hb
      exact .inr hclear
    · have hout := outside_of_populated hclear hx
      rw [grant_mem, Memory.get?_write, freshBytes_length, if_neg (by omega)]
      rfl

theorem sendOutcome_history_of_sending {c c' : TxCall} {s t : State} (h : SendOutcome c s t) (hc : t.sending = some c') :
    t.history = s.history := by
  cases h with
  | answered a ok _ => exact nomatch hc
  | _ => rfl

/-- A run that ends with a send in progress has recorded no attempt yet (R148, R173). -/
theorem exec_history_of_sending {i : Instr} {s t : State} {c : TxCall} (h : exec i s = .next t) (hc : t.sending = some c) :
    t.history = s.history := by
  rcases exec_cases h with ⟨c, rfl⟩ | ⟨bs, -, rfl⟩ | ⟨d, pkt, -, -, rfl⟩
  · rfl
  · obtain ⟨-, -, hhistory, -⟩ := buildInto_keeps bs s
    exact hhistory
  · exact sendOutcome_history_of_sending (sendBuilt_outcome d pkt s) hc

/-- A command that has handed its packet over has left what its step with a silent transmitter leaves, and one attempt (R181). -/
theorem leftBy_leaveAttempt {s : State} (h : Inv s) (hp : s.phase = .busy) : LeftBy s (leaveAttempt s) := by
  rcases leaveAttempt_cases s with hend | ⟨c, -, hend⟩ | ⟨hs, t, c, hstep, hc, hend⟩ <;> rw [hend]
  · exact leftBy_of_eq h rfl rfl (.inr rfl) (.inl rfl)
  · exact leftBy_of_eq h rfl rfl (.inr rfl) (.inr ⟨_, rfl⟩)
  · obtain ⟨henv, hheld, hown, hkept, hlive, -⟩ := leftBy_blockStep (inv_silenceTx h) hp hstep
    have hhistory : t.history = s.history := by
      rcases blockStep_cases hstep with ⟨_, hsend, -⟩ | ⟨-, _, _, -, -, rfl⟩ | ⟨-, _, _, -, -, hexec⟩
      · exact nomatch hs.symm.trans hsend
      · rfl
      · exact (exec_history_of_sending hexec hc :)
    exact ⟨envInv_congr henv rfl rfl, hheld, hown, hkept, hlive, .inr ⟨_, congrArg (· ++ _) hhistory⟩⟩

/-- However far the command had come, what it left is bounded (R181). -/
theorem leftBy_leftBehind (p : Progress) {s t : State} (h : Inv s) (hp : s.phase = .busy) (hstep : blockStep s = .next t) :
    LeftBy s (leftBehind p s t) := by
  rcases leftBehind_cases p s t with hend | ⟨-, hend⟩ | hend | hend <;> rw [hend]
  · exact leftBy_of_eq h rfl rfl (.inr rfl) (.inl rfl)
  · exact leftBy_leaveBuffer h
  · exact leftBy_leaveAttempt h hp
  · exact leftBy_blockStep h hp hstep

/-- A populated address outside the buffer the block owned is outside the buffer whose contents are lost (R181). -/
theorem loseContents_kept {s t : State} (h : LeftBy s t) {x : Nat} (hx : (s.mem.get? x).isSome = true)
    (hout : ∀ b, s.owned = some b → x < b.addr.toNat ∨ b.addr.toNat + b.len ≤ x) :
    (loseContents t).mem.get? x = s.mem.get? x := by
  refine (loseContents_get? t x fun b hb => ?_).trans (h.kept x hx hout)
  rcases h.own b hb with ho | hclear
  · exact hout b ho
  · exact outside_of_populated hclear hx

theorem abandon_of_next {s t : State} (h : blockStep (tick s) = .next t) :
    abandon s = .next (resetBlock (loseContents (leftBehind (Config.freeProgress s.ticks) (tick s) t))) := by
  simp only [abandon, h]

theorem abandon_of_refused {s : State} {r : Refusal} (h : blockStep (tick s) = .refused r) : abandon s = .refused r := by
  simp only [abandon, h]

/-- Settles O25: what the command left is bounded however far it came, losing its buffer's contents stays inside that buffer, and the
block is then reset; a command that is refused is refused here. -/
theorem resetAbandonsCommand : Obligations.ResetAbandonsCommand := by
  constructor
  · intro s h hp hc
    obtain ⟨hcaptured, -⟩ := h.block.busy_holds_command hp
    obtain ⟨u, hu⟩ := blockStep_next (s := tick s) hcaptured fun ws i hws hd => (inContract_congr rfl).mp (hc ws i hws hd)
    have hleft := leftBy_leftBehind (Config.freeProgress s.ticks) (inv_tick h) hp hu
    refine ⟨_, abandon_of_next hu, inv_resetBlock (envInv_loseContents hleft.env hleft.held), rfl, rfl, rfl, rfl, rfl,
      fun x hx hout => loseContents_kept hleft hx hout, fun b hb => ?_, ?_⟩
    · rw [resetBlock_live, loseContents_live]
      exact hleft.live b hb
    · rw [resetBlock_history, loseContents_history]
      exact hleft.history
  · intro s ws i hs hws hd hc
    obtain ⟨r, hr⟩ := exec_refused_of_not_inContract (mt (inContract_congr (s' := s) (s := tick s) rfl).mp hc)
    exact ⟨r, abandon_of_refused ((blockStep_of_decode_ok (s := tick s) hs hws hd).trans hr)⟩

end Sys2Proof.Machine
end

section
/-! Byte order (00_scope.md section 7, R8; 30_encoding.md R60), the closed form of the checksum and the laws that follow from it
(40_checksum.md R72 to R75), the packets that verify (R112, R127), and the numbers of R4 and R165. -/

namespace Sys2Proof.Machine

open Sys2Proof.Safety

/-! ## Byte order -/

/-- Settles O7: a joined operand is split back into its words, so its bytes are theirs in order. -/
theorem addressBytesInOrder : Obligations.AddressBytesInOrder := by
  refine ⟨fun a b c d => ?_, fun h w => ?_, fun w => rfl⟩
  · simp only [be128, join128_first, join128_second, join128_third, join128_fourth]
  · have hhigh : (h ++ w : Mac).extractLsb' 32 16 = h := extract_high h w
    have hlow : (h ++ w : Mac).extractLsb' 0 32 = w := extract_low h w
    simp only [be48, hhigh, hlow]

theorem bigEndian_append (xs ys : List Byte) : bigEndian (xs ++ ys) = 256 ^ ys.length * bigEndian xs + bigEndian ys := by
  have hfrom (acc : Nat) (bs : List Byte) :
      bs.foldl (fun acc b => 256 * acc + b.toNat) acc = 256 ^ bs.length * acc + bigEndian bs := by
    induction bs using List.reverseRecOn with
    | nil => simp [bigEndian]
    | append_singleton bs b ih =>
      simp only [bigEndian, List.foldl_append, ih, List.foldl_cons, List.foldl_nil, List.length_append, List.length_singleton,
        pow_succ]
      ring
  rw [bigEndian, List.foldl_append]
  exact hfrom _ ys

/-- A value is its high part at its place, and its low part. -/
theorem toNat_eq_high_add_low {m n : Nat} (x : BitVec (m + n)) :
    x.toNat = 2 ^ n * (x.extractLsb' n m).toNat + (x.extractLsb' 0 n).toNat := by
  have hhigh : x.toNat / 2 ^ n % 2 ^ m = x.toNat / 2 ^ n :=
    Nat.mod_eq_of_lt (Nat.div_lt_of_lt_mul (by rw [Nat.mul_comm, ← Nat.pow_add]; exact x.isLt))
  rw [BitVec.extractLsb'_toNat, BitVec.extractLsb'_toNat, Nat.shiftRight_eq_div_pow, Nat.shiftRight_zero, hhigh]
  exact (Nat.div_add_mod _ _).symm

theorem bigEndian_be16 (v : Half) : bigEndian (be16 v) = v.toNat := by
  rw [toNat_eq_high_add_low (m := 8) (n := 8) v]
  simp [bigEndian, be16]

theorem bigEndian_be32 (v : Word) : bigEndian (be32 v) = v.toNat := by
  simp only [bigEndian, be32, List.foldl_cons, List.foldl_nil, BitVec.extractLsb'_toNat, Nat.shiftRight_eq_div_pow]
  omega

theorem bigEndian_be48 (v : Mac) : bigEndian (be48 v) = v.toNat := by
  rw [be48, bigEndian_append, bigEndian_be16, bigEndian_be32, toNat_eq_high_add_low (m := 16) (n := 32) v]
  simp

theorem bigEndian_be128 (v : Ip6) : bigEndian (be128 v) = v.toNat := by
  simp only [be128, bigEndian_append, bigEndian_be32, be32_length, BitVec.extractLsb'_toNat, Nat.shiftRight_eq_div_pow]
  omega

/-- Settles O8: each serialiser's bytes spell the parts of its value at their places. -/
theorem networkByteOrder : Obligations.NetworkByteOrder := ⟨bigEndian_be16, bigEndian_be32, bigEndian_be48, bigEndian_be128⟩

/-! ## The sum in any order, and its closed form (R72, R74) -/

/-- Two words may be added in either order, whatever the sum so far. -/
theorem ocadd16_right_comm {a b : Nat} (ha : a ≤ 0xFFFF) (hb : b ≤ 0xFFFF) (t : Nat) :
    ocadd16 (ocadd16 t a) b = ocadd16 (ocadd16 t b) a := by
  simp only [ocadd16]
  split_ifs <;> omega

/-- Settles O31: neighbouring words may change places, so any order gives the same sum. -/
theorem wordOrderIrrelevant : Obligations.WordOrderIrrelevant := by
  intro ws vs hws hperm
  exact hperm.foldl_eq' (fun a ha b hb t => ocadd16_right_comm (hws a ha) (hws b hb) t) 0

/-- The value of the one's-complement sum whose exact sum is `t` (R74). -/
def closedForm (t : Nat) : Nat := if t = 0 then 0 else (t - 1) % 0xFFFF + 1

theorem closedForm_of_le {t : Nat} (h : t ≤ 0xFFFF) : closedForm t = t := by
  unfold closedForm
  split <;> omega

theorem ocadd16_closedForm (t : Nat) {a : Nat} (ha : a ≤ 0xFFFF) : ocadd16 (closedForm t) a = closedForm (t + a) := by
  simp only [ocadd16, closedForm]
  split_ifs <;> omega

theorem foldl_ocadd16_closedForm (t : Nat) {ws : List Nat} (hws : ∀ w ∈ ws, w ≤ 0xFFFF) :
    ws.foldl ocadd16 (closedForm t) = closedForm (t + ws.sum) := by
  induction ws generalizing t with
  | nil => rfl
  | cons w ws ih =>
    rw [List.foldl_cons, ocadd16_closedForm t (hws w List.mem_cons_self), ih _ fun v hv => hws v (List.mem_cons_of_mem _ hv),
      List.sum_cons, Nat.add_assoc]

theorem ocsum_eq_closedForm (s : List Byte) : ocsum s = closedForm (words s).sum := by
  have h := foldl_ocadd16_closedForm 0 (words_le (s := s))
  rwa [Nat.zero_add] at h

theorem closedForm_eq_zero_iff (t : Nat) : closedForm t = 0 ↔ t = 0 := by
  unfold closedForm
  split <;> omega

theorem closedForm_eq_max_iff (t : Nat) : closedForm t = 0xFFFF ↔ 0 < t ∧ 0xFFFF ∣ t := by
  unfold closedForm
  split <;> omega

theorem words_sum_eq_zero_iff (s : List Byte) : (words s).sum = 0 ↔ ∀ b ∈ s, b = 0 := by
  have hbyte (b : Byte) : b = 0 ↔ b.toNat = 0 := ⟨fun h => h ▸ rfl, fun h => BitVec.eq_of_toNat_eq h⟩
  induction s using words.induct with
  | case1 => simp [words]
  | case2 b =>
    rw [words, List.sum_singleton, List.forall_mem_singleton, hbyte]
    omega
  | case3 hi lo rest ih =>
    have hrest : (words rest).sum = 0 ↔ ∀ b ∈ rest, b = 0 := ih
    rw [words, List.sum_cons, List.forall_mem_cons, List.forall_mem_cons, ← hrest, hbyte, hbyte]
    omega

/-- One folding of a wide accumulator keeps the value (R74). -/
theorem closedForm_fold {t : Nat} (h : t > 0xFFFF) : closedForm (t % 0x10000 + t / 0x10000) = closedForm t := by
  unfold closedForm
  rw [if_neg (by omega), if_neg (by omega)]
  omega

theorem foldWide_eq_closedForm {n t : Nat} (h : t ≤ n) : foldWide n t = closedForm t := by
  induction n generalizing t with
  | zero =>
    obtain rfl := Nat.le_zero.mp h
    rfl
  | succ n ih =>
    rw [foldWide]
    split
    · rw [ih (by omega), closedForm_fold ‹_›]
    · exact (closedForm_of_le (by omega)).symm

theorem cksum_eq_max_iff (s : List Byte) : cksum s = 0xFFFF ↔ ocsum s = 0 := by
  have hle := ocsum_le s
  have hmax : (0xFFFF : Half).toNat = 0xFFFF := rfl
  rw [← BitVec.toNat_inj, cksum_toNat, hmax]
  omega

theorem cksum_eq_zero_iff (s : List Byte) : cksum s = 0 ↔ ocsum s = 0xFFFF := by
  have hle := ocsum_le s
  have hzero : (0 : Half).toNat = 0 := rfl
  rw [← BitVec.toNat_inj, cksum_toNat, hzero]
  omega

/-- Settles O33: everything follows from the closed form of the exact sum. -/
theorem checksumClosedForm : Obligations.ChecksumClosedForm := by
  intro s
  have hzero : ocsum s = 0 ↔ ∀ b ∈ s, b = 0 := by rw [ocsum_eq_closedForm, closedForm_eq_zero_iff, words_sum_eq_zero_iff]
  have hmax : ocsum s = 0xFFFF ↔ 0 < (words s).sum ∧ 0xFFFF ∣ (words s).sum := by
    rw [ocsum_eq_closedForm, closedForm_eq_max_iff]
  refine ⟨ocsum_eq_closedForm s, hzero, hmax, (cksum_eq_max_iff s).trans hzero, (cksum_eq_zero_iff s).trans hmax, ?_⟩
  rw [ocsum_eq_closedForm, foldWide_eq_closedForm le_rfl]

/-! ## A checksum in its own field (R75) -/

theorem words_append_of_even {xs : List Byte} (ys : List Byte) (h : xs.length % 2 = 0) : words (xs ++ ys) = words xs ++ words ys := by
  induction xs using words.induct with
  | case1 => rfl
  | case2 b => cases h
  | case3 hi lo rest ih =>
    have hrest : rest.length % 2 = 0 := by
      rw [List.length_cons, List.length_cons] at h
      omega
    simp only [List.cons_append, words, ih hrest]

theorem words_be16 (v : Half) : words (be16 v) = [v.toNat] := by
  rw [toNat_eq_high_add_low (m := 8) (n := 8) v]
  rfl

/-- A 16-bit field at an even place adds its value to the exact sum. -/
theorem words_sum_field {before : List Byte} (after : List Byte) (heven : before.length % 2 = 0) (v : Half) :
    (words (before ++ be16 v ++ after)).sum = (words before).sum + v.toNat + (words after).sum := by
  have heven' : (before ++ be16 v).length % 2 = 0 := by simpa using heven
  rw [words_append_of_even after heven', words_append_of_even (be16 v) heven, words_be16]
  simp [Nat.add_assoc]

/-- Whatever has a 16-bit field at an even place sums to 0xFFFF once the checksum of it with the field zero stands there. -/
theorem ocsum_of_own_checksum {f : Half → List Byte} {before after : List Byte} (hf : ∀ v, f v = before ++ be16 v ++ after)
    (heven : before.length % 2 = 0) : ocsum (f (cksum (f 0))) = 0xFFFF := by
  have hsum (v : Half) : (words (f v)).sum = (words before).sum + v.toNat + (words after).sum := by
    rw [hf, words_sum_field after heven]
  have hzero : (words (f 0)).sum = (words before).sum + (words after).sum := by simp [hsum]
  rw [ocsum_eq_closedForm, closedForm_eq_max_iff, hsum, cksum_toNat, ocsum_eq_closedForm, hzero]
  unfold closedForm
  split <;> omega

theorem cksum_of_own_checksum {f : Half → List Byte} {before after : List Byte} (hf : ∀ v, f v = before ++ be16 v ++ after)
    (heven : before.length % 2 = 0) : cksum (f (cksum (f 0))) = 0 :=
  (cksum_eq_zero_iff _).mpr (ocsum_of_own_checksum hf heven)

/-- The 16-bit field at offset `p` of a byte sequence, set to a value. -/
def setField (s : List Byte) (p : Nat) (v : Half) : List Byte := s.take p ++ be16 v ++ s.drop (p + 2)

/-- Setting a zero field to zero changes nothing. -/
theorem setField_zero {s : List Byte} {p : Nat} (h0 : s[p]? = some 0) (h1 : s[p + 1]? = some 0) : setField s p 0 = s := by
  obtain ⟨hp, h0⟩ := List.getElem?_eq_some_iff.mp h0
  obtain ⟨hp1, h1⟩ := List.getElem?_eq_some_iff.mp h1
  have hdrop : s.drop p = be16 0 ++ s.drop (p + 2) := by
    rw [List.drop_eq_getElem_cons hp, List.drop_eq_getElem_cons hp1, h0, h1]
    rfl
  rw [setField, List.append_assoc, ← hdrop, List.take_append_drop]

/-- Settles O34: the sequence is what it is with its own zero field set to zero. -/
theorem checksumVerifiesItself : Obligations.ChecksumVerifiesItself := by
  intro s p heven hfit h0 h1
  have hbefore : (s.take p).length % 2 = 0 := by rwa [List.length_take_of_le (by omega)]
  have hsum := ocsum_of_own_checksum (f := setField s p) (fun _ => rfl) hbefore
  have hck := cksum_of_own_checksum (f := setField s p) (fun _ => rfl) hbefore
  rw [setField_zero h0 h1] at hsum hck
  exact ⟨hsum, hck⟩

/-! ## Packets that verify (R112, R127) -/

/-- The ICMP v4 region around its checksum field (R100). -/
theorem icmp4Region_eq (d : Build4Op) (data : List Byte) (v : Half) :
    icmp4Region d data v = [d.icmpType, d.icmpCode] ++ be16 v ++ (be16 d.id ++ be16 d.seq ++ data) := by
  simp [icmp4Region]

/-- What precedes the checksum field of the IPv4 header (R101). -/
def beforeIp4Sum (d : Build4Op) : List Byte :=
  [0x40 ||| BitVec.ofNat 8 (hlen4 d.optLen / 4)] ++ [d.tos] ++ be16 (BitVec.ofNat 16 (total4 d.optLen d.dataLen)) ++ be16 d.ipId
    ++ be16 (if d.df then Config.ip4DfBit else 0) ++ [d.ttl] ++ [Config.ip4ProtoIcmp]

theorem ip4Header_eq (d : Build4Op) (opts : List Byte) (v : Half) :
    ip4Header d opts v = beforeIp4Sum d ++ be16 v ++ (be32 d.src ++ be32 d.dst ++ opts) := by
  simp [ip4Header, beforeIp4Sum]

theorem cksum_icmp4Region (d : Build4Op) (data : List Byte) : cksum (icmp4Region d data (icmp4Sum d data)) = 0 :=
  cksum_of_own_checksum (icmp4Region_eq d data) (by simp)

theorem cksum_ip4Header (d : Build4Op) (opts : List Byte) : cksum (ip4Header d opts (ip4Sum d opts)) = 0 :=
  cksum_of_own_checksum (ip4Header_eq d opts) (by simp [beforeIp4Sum])

/-- Without `BADSUM` the header and the ICMP region each carry their own checksum (R105, R106, R107). -/
theorem packet4_of_good (d : Build4Op) (opts data : List Byte) (hgood : d.badsum = false) :
    packet4 d opts data = ip4Header d opts (ip4Sum d opts) ++ icmp4Region d data (icmp4Sum d data) := by
  simp [packet4, sumField, hgood]

/-- Settles O47: the packet falls apart at the header's length into two regions that verify. -/
theorem build4RoundTrip : Obligations.Build4RoundTrip := by
  intro d s a hgood hc ha
  obtain ⟨⟨opts, data⟩, hops⟩ := (operands4_isOk_iff ..).mpr hc
  obtain ⟨-, -, -, ho, hd⟩ := (operands4_ok_iff ..).mp hops
  have hlen : (packet4 d opts data).length = 28 + d.optLen.toNat + d.dataLen.toNat := by
    rw [packet4_length, opbuf_length ho, opbuf_length hd]
    omega
  have hread := (buildInto_builtAt (hlen ▸ ha)).holds
  rw [hlen] at hread
  have hheader : 20 + d.optLen.toNat = (ip4Header d opts (ip4Sum d opts)).length := by rw [ip4Header_length, opbuf_length ho]
  have htake : (packet4 d opts data).take (20 + d.optLen.toNat) = ip4Header d opts (ip4Sum d opts) := by
    rw [packet4_of_good d opts data hgood, hheader, List.take_left]
  have hdrop : (packet4 d opts data).drop (20 + d.optLen.toNat) = icmp4Region d data (icmp4Sum d data) := by
    rw [packet4_of_good d opts data hgood, hheader, List.drop_left]
  refine ⟨_, _, exec_build4_of_ok hops, hread, ?_, ?_, ?_⟩
  · rw [hdrop]
    exact cksum_icmp4Region d data
  · rw [htake]
    exact cksum_ip4Header d opts
  · have hwithin (k : Nat) : (packet4 d opts data).drop (20 + d.optLen.toNat + k) = (icmp4Region d data (icmp4Sum d data)).drop k := by
      rw [← hdrop, List.drop_drop]
    rw [hdrop, hwithin, hwithin]
    rfl

/-- The ICMP v6 region around its checksum field (R120). -/
theorem icmp6Region_eq (h : Build6Head) (msg : List Byte) (v : Half) :
    icmp6Region h msg v = [h.icmpType, h.icmpCode] ++ be16 v ++ msg := by
  simp [icmp6Region]

/-- What precedes the ICMP v6 checksum field in a packet: the IPv6 header, the ICMP type and code (R120). -/
def beforeIcmp6Sum (h : Build6Head) (msg : List Byte) : List Byte :=
  ip6Header h (4 + msg.length) ++ [h.icmpType, h.icmpCode]

theorem beforeIcmp6Sum_length (h : Build6Head) (msg : List Byte) : (beforeIcmp6Sum h msg).length = 42 := by
  simp [beforeIcmp6Sum]

/-- The ICMP checksum field is the only place of a packet where `BADSUM` has a say (R128, R129). -/
theorem packet6_of_badsum (h : Build6Head) (b : Bool) (msg : List Byte) :
    packet6 { h with badsum := b } msg = beforeIcmp6Sum h msg ++ be16 (sumField b (icmp6Sum h msg)) ++ msg := by
  have hregions : packet6 { h with badsum := b } msg =
      ip6Header h (4 + msg.length) ++ icmp6Region h msg (sumField b (icmp6Sum h msg)) := rfl
  rw [hregions]
  simp [icmp6Region_eq, beforeIcmp6Sum]

/-- Settles O48: the two packets share all that stands around the ICMP checksum field, and the field tells `BADSUM(c)` from `c`. -/
theorem build6BadsumDiffers : Obligations.Build6BadsumDiffers := by
  intro h msg p q
  have hbefore : 42 = (beforeIcmp6Sum h msg).length := (beforeIcmp6Sum_length h msg).symm
  have hnext : 43 = (beforeIcmp6Sum h msg).length + 1 := congrArg (· + 1) hbefore
  have hp : p = _ := packet6_of_badsum h false msg
  have hq : q = _ := packet6_of_badsum h true msg
  rw [hp, hq, hbefore, hnext]
  exact ⟨by simp, fun k hhi hlo => getElem?_outside_be16 _ _ _ _ hhi hlo,
    getElem?_be16_ne _ _ (sumField_false_ne_true (icmp6Sum h msg))⟩

/-- Settles O49: behind the pseudo-header the ICMP region's checksum field stands at the even offset 42. -/
theorem build6Verifies : Obligations.Build6Verifies := by
  intro h msg hgood
  have hregion : (packet6 h msg).drop 40 = icmp6Region h msg (icmp6Sum h msg) := by
    rw [packet6, hgood]
    exact List.drop_left' (ip6Header_length ..)
  rw [hregion, icmp6Sum]
  unfold pcsum6
  have hfield (v : Half) : ph6 h.src h.dst (BitVec.ofNat 32 (4 + msg.length)) Config.ip6NextIcmp6 ++ icmp6Region h msg v =
      ph6 h.src h.dst (BitVec.ofNat 32 (4 + msg.length)) Config.ip6NextIcmp6 ++ [h.icmpType, h.icmpCode] ++ be16 v ++ msg := by
    simp [icmp6Region_eq]
  have hverifies := cksum_of_own_checksum hfield (by simp)
  exact hverifies

/-! ## Constants (R4, R106, R131, R165) -/

/-- Settles O10: the numbers are the table's, and a status is read back from its number. -/
theorem statusNumbers : Obligations.StatusNumbers := by
  refine ⟨rfl, rfl, rfl, rfl, rfl, fun a b => ?_⟩
  cases a <;> cases b <;> decide

/-- Settles O50: the law `Config.badsum` was made to keep. -/
theorem badsumLaw : Obligations.BadsumLaw := badsum_ne

/-- Settles O51: the open part of the limit is below 65500. -/
theorem echoLimitRange : Obligations.EchoLimitRange := by
  have hroom := Config.echoRoom.isLt
  unfold Obligations.EchoLimitRange
  rw [echoDataMax_eq]
  omega

end Sys2Proof.Machine
end

section
/-! The text of a command (30_encoding.md R65): the operands of a line in any order. -/

namespace Sys2Proof.Machine

/-- Two lines that differ in the order of their operands at most. -/
structure SameLine (l m : AsmLine) : Prop where
  operands : l.operands.Perm m.operands
  flags : l.flags = m.flags
  results : l.results = m.results

section Lines

variable {l m : AsmLine}

/-- The shape of a line says nothing of the order of its operands. -/
theorem shape_congr (h : SameLine l m) (names flags : List String) (results : Nat) :
    l.shape names flags results = m.shape names flags results := by
  have hnames : (l.operands.map (·.1)).isPerm (names.map String.toList) = (m.operands.map (·.1)).isPerm (names.map String.toList) := by
    rw [Bool.eq_iff_iff, List.isPerm_iff, List.isPerm_iff]
    exact (h.operands.map _).congr_left _
  simp only [AsmLine.shape, hnames, h.flags, h.results]

theorem flag_congr (h : SameLine l m) (name : String) : l.flag name = m.flag name := by
  simp only [AsmLine.flag, h.flags]

/-- A line of a shape whose names are all different has one operand of each name, whatever the order. -/
theorem operand_congr {names flags : List String} {results : Nat} (h : SameLine l m) (hn : names.Nodup)
    (hs : l.shape names flags results = true) {α : Type} (name : String) (read : List Char → Option α) :
    l.operand name read = m.operand name read := by
  have hnames : (l.operands.map (·.1)).Perm (names.map String.toList) := by
    simp only [AsmLine.shape, Bool.and_eq_true] at hs
    obtain ⟨⟨hperm, -⟩, -⟩ := hs
    exact List.isPerm_iff.mp hperm
  have hnodup : (l.operands.map (·.1)).Nodup := hnames.nodup_iff.mpr (hn.map fun _ _ => String.toList_inj.mp)
  have hone : {p ∈ l.operands | p.1 == name.toList}.Subsingleton := by
    rintro p ⟨hp, hpn⟩ q ⟨hq, hqn⟩
    exact List.inj_on_of_nodup_map hnodup hp hq ((eq_of_beq hpn).trans (eq_of_beq hqn).symm)
  simp only [AsmLine.operand, List.find?_eq_find?_of_perm h.operands hone]

/-- What an operation reads from a line of its shape, operand by operand and flag by flag, is not changed by their order. -/
theorem ofShape_congr {names flags : List String} {results : Nat} {i j : Option Instr} (h : SameLine l m) (hn : names.Nodup)
    (hij : (∀ {α : Type} (name : String) (read : List Char → Option α), l.operand name read = m.operand name read) → i = j) :
    (if l.shape names flags results then i else none) = if m.shape names flags results then j else none := by
  rw [← shape_congr h]
  split
  case isTrue hs => exact hij (operand_congr h hn hs)
  case isFalse => rfl

theorem asmCsum_congr (syms : Symbols) (h : SameLine l m) : asmCsum syms l = asmCsum syms m := by
  unfold asmCsum
  exact ofShape_congr h (by simp) fun hop => by simp only [hop]

theorem asmPcsum6_congr (syms : Symbols) (h : SameLine l m) : asmPcsum6 syms l = asmPcsum6 syms m := by
  unfold asmPcsum6
  exact ofShape_congr h (by simp) fun hop => by simp only [hop]

theorem asmNeedfrag_congr (syms : Symbols) (h : SameLine l m) : asmNeedfrag syms l = asmNeedfrag syms m := by
  unfold asmNeedfrag
  exact ofShape_congr h (by simp) fun hop => by simp only [hop]

theorem asmBuild4_congr (syms : Symbols) (h : SameLine l m) : asmBuild4 syms l = asmBuild4 syms m := by
  unfold asmBuild4
  exact ofShape_congr h (by simp) fun hop => by simp only [hop, flag_congr h]

theorem asmSend4_congr (syms : Symbols) (h : SameLine l m) : asmSend4 syms l = asmSend4 syms m := by
  unfold asmSend4
  exact ofShape_congr h (by simp) fun hop => by simp only [hop, flag_congr h]

theorem asmBuild6Echo_congr (syms : Symbols) (h : SameLine l m) : asmBuild6Echo syms l = asmBuild6Echo syms m := by
  unfold asmBuild6Echo
  exact ofShape_congr h (by simp) fun hop => by simp only [hop, asmHead6, flag_congr h]

theorem asmBuild6Nd_congr (h : SameLine l m) : asmBuild6Nd l = asmBuild6Nd m := by
  unfold asmBuild6Nd
  exact ofShape_congr h (by simp) fun hop => by simp only [hop, asmHead6, flag_congr h]

end Lines

/-- Settles O12: the two lines name the same operation, and each operation reads its operands by name. -/
theorem operandOrderFree : Obligations.OperandOrderFree := by
  intro syms l m hmnemonic hoperands hflags hresults
  have h : SameLine l m := ⟨hoperands, hflags, hresults⟩
  simp only [assembleLine, hmnemonic, asmCsum_congr syms h, asmPcsum6_congr syms h, asmNeedfrag_congr syms h,
    asmBuild4_congr syms h, asmSend4_congr syms h, asmBuild6Echo_congr syms h, asmBuild6Nd_congr h]

/-- Settles O11: the lines are read character by character. -/
theorem assembledLines : Obligations.AssembledLines := by
  refine ⟨?_, ?_, ?_, ?_, ?_, ?_, ?_⟩ <;> decide +kernel

end Sys2Proof.Machine
end
